-- ==== Sys2Proof/Word.lean ====
section
/-! DEFINITION. The word types of the block: a byte, the `u16` of a colour or a window bound, and the
32-bit word of a register (00_scope.md R9, R12). -/

namespace Sys2Proof

/-- A byte, the `u8` of R12. -/
abbrev Byte := BitVec 8

/-- The `u16` of R9: a 565 colour, or one window bound. -/
abbrev U16 := BitVec 16

/-- The `u32` of R9: what one register access moves (10_state.md R33). -/
abbrev Word := BitVec 32

end Sys2Proof
end

