-- ==== Sys2Proof/Config.lean ====
section
/-! DEFINITION. The configuration of an instance (00_scope.md R6, R7), which is not state (10_state.md R20), and the
values the environment draws freely (20_memory.md R67). -/

namespace Sys2Proof

/-- The parameters of R7, and where the platform put the register space (R75). Nothing the block does changes them (R20). -/
structure Config where
  /-- `WIDTH`: columns of the canvas. -/
  width : Nat
  /-- `HEIGHT`: rows of the canvas. -/
  height : Nat
  /-- `CMD_COLUMN_SET`, a byte or unset. -/
  cmdColumnSet : Option Byte
  /-- `CMD_PAGE_SET`, a byte or unset. -/
  cmdPageSet : Option Byte
  /-- `CMD_RAM_WRITE`, a byte or unset. -/
  cmdRamWrite : Option Byte
  /-- `CMD_RAM_READ`, a byte or unset. -/
  cmdRamRead : Option Byte
  /-- `INIT_SEQ`: the command/data pairs of start-up, each part may be absent. -/
  initSeq : List (Option Byte × Option (List Byte))
  /-- `PIXEL_WR_BYTES`, 2 in every well-formed configuration. -/
  pixelWrBytes : Nat
  /-- `POS_BYTES`, 4 in every well-formed configuration. -/
  posBytes : Nat
  /-- `PIXEL_RD_BYTES`, 3 in every well-formed configuration. -/
  pixelRdBytes : Nat
  /-- `CHUNK_PIXELS`, at least 1. -/
  chunkPixels : Nat
  /-- `HAS_RESET`: is there a reset line to pulse at start-up. -/
  hasReset : Bool
  /-- `T_RST`, in a unit the platform chooses; no rule depends on it (R264). Any number, 0 included (log 17). -/
  tRst : Nat
  /-- `ARG_BITS`, 32. -/
  argBits : Nat
  /-- `ADDR_BITS`, 32. -/
  addrBits : Nat
  /-- The address of the register space inside host memory, or `none` where host memory does not contain it (R75). -/
  regBase : Option Nat
  deriving DecidableEq, Repr

/-- The example profile of 95_test_vectors.md section 0. DESIGN CHOICE (log 1), unsafe: it is the configuration of
`State.reset` only; `State.powerOn` is the machine after reset for every configuration. -/
def Config.exampleProfile : Config where
  width := 128
  height := 160
  cmdColumnSet := some 0x2A#8
  cmdPageSet := some 0x2B#8
  cmdRamWrite := some 0x2C#8
  cmdRamRead := some 0x2E#8
  initSeq := []
  pixelWrBytes := 2
  posBytes := 4
  pixelRdBytes := 3
  chunkPixels := 512
  hasReset := false
  tRst := 1
  argBits := 32
  addrBits := 32
  regBase := none

/-- FREE VALUE (log 2), safe: does the `n`th freely drawn event return `ok` (R67). Nothing constrains it. -/
opaque Config.freeOk : Nat → Bool

/-- FREE VALUE (log 2), safe: byte `k` of the answer to the `n`th freely drawn event (R67). Nothing constrains it. -/
opaque Config.freeByte : Nat → Nat → Byte

end Sys2Proof
end

