-- ==== Sys2Proof/Machine/Operands.lean ====
section
/-! DEFINITION. What the operations compute from their geometry operands: rectangles, bounds tests, clamps, chunk counts.
All of it is over the integers (42_display_ops.md R180). -/

namespace Sys2Proof.Machine

/-- A rectangle of inclusive pixel coordinates (00_scope.md R18). -/
structure Rect where
  x0 : Int
  y0 : Int
  x1 : Int
  y1 : Int
  deriving DecidableEq, Repr

/-- How many pixels a rectangle covers (00_scope.md R18). -/
def Rect.pixels (r : Rect) : Int := (r.x1 - r.x0 + 1) * (r.y1 - r.y0 + 1)

/-- The rectangle lies inside the canvas (00_scope.md R18). -/
abbrev Rect.inside (cfg : Config) (r : Rect) : Prop :=
  0 ≤ r.x0 ∧ r.x0 ≤ r.x1 ∧ r.x1 < cfg.width ∧ 0 ≤ r.y0 ∧ r.y0 ≤ r.y1 ∧ r.y1 < cfg.height

/-- A value fits the `u16` of `encode_position` (41_window_accessor.md R150). -/
abbrev FitsU16 (v : Int) : Prop := 0 ≤ v ∧ v ≤ 65535

/-- The `u16` of a window bound; every caller passes a value that fits (41_window_accessor.md R150, log 20). -/
def toU16 (v : Int) : U16 := BitVec.ofInt 16 v

/-- `clamp(v, lo, hi)` (00_scope.md R11). -/
def clamp (v lo hi : Int) : Int := min hi (max lo v)

/-- The pixel lies on the canvas (42_display_ops.md R173). -/
abbrev onCanvas (cfg : Config) (x y : Int) : Prop :=
  0 ≤ x ∧ x < cfg.width ∧ 0 ≤ y ∧ y < cfg.height

/-- The one-pixel rectangle `(x, y, x, y)` (42_display_ops.md R172, R173). -/
def pixelRect (x y : Int) : Rect := { x0 := x, y0 := y, x1 := x, y1 := y }

/-- The rectangle with an origin and a size. -/
def sizedRect (x y w h : Int) : Rect := { x0 := x, y0 := y, x1 := x + w - 1, y1 := y + h - 1 }

/-- The clamped column of a fill's origin (42_display_ops.md R174). -/
def clampX (cfg : Config) (x : Int) : Int := clamp x 0 (cfg.width - 1)

/-- The clamped row of a fill's origin (42_display_ops.md R174). -/
def clampY (cfg : Config) (y : Int) : Int := clamp y 0 (cfg.height - 1)

/-- The clamped width of a fill, against the clamped origin (42_display_ops.md R174). -/
def clampW (cfg : Config) (x w : Int) : Int := clamp w 1 (cfg.width - clampX cfg x)

/-- The clamped height of a fill, against the clamped origin (42_display_ops.md R174). -/
def clampH (cfg : Config) (y h : Int) : Int := clamp h 1 (cfg.height - clampY cfg y)

/-- The rectangle a fill draws (42_display_ops.md R174). -/
def clampedRect (cfg : Config) (x y w h : Int) : Rect :=
  sizedRect (clampX cfg x) (clampY cfg y) (clampW cfg x w) (clampH cfg y h)

/-- How many pixels a fill draws: `total` (42_display_ops.md R175). -/
def fillTotal (cfg : Config) (x y w h : Int) : Nat := (clampW cfg x w * clampH cfg y h).toNat

/-- `n_full` (42_display_ops.md R175): the floor, not the ceiling (90_conflicts.md C1). -/
def fullChunks (cfg : Config) (total : Nat) : Nat := total / cfg.chunkPixels

/-- `rest` (42_display_ops.md R175). -/
def restPixels (cfg : Config) (total : Nat) : Nat := total % cfg.chunkPixels

/-- The test of `BLIT` (42_display_ops.md R179). -/
abbrev blitFits (cfg : Config) (x y w h : Int) : Prop :=
  0 ≤ x ∧ x < cfg.width ∧ 0 ≤ y ∧ y < cfg.height ∧ 1 ≤ w ∧ 1 ≤ h ∧ x + w ≤ cfg.width ∧ y + h ≤ cfg.height

/-- The buffer range does not pass the top of the address space (42_display_ops.md R179). -/
abbrev bufferInSpace (addr len : Nat) : Prop := addr + len ≤ 4294967296

/-- The buffer and the 64-byte register space share an address (20_memory.md R75). -/
def overlapsRegisters (cfg : Config) (addr len : Nat) : Bool :=
  match cfg.regBase with
  | none => false
  | some base => decide (0 < len ∧ addr < base + 64 ∧ base < addr + len)

end Sys2Proof.Machine
end

