-- ==== Sys2Proof/Machine/Codec.lean ====
section
/-! DEFINITION. The pixel codec's pure functions (40_pixel_codec.md R130 to R135). -/

namespace Sys2Proof.Machine

/-- `be16(v)` (00_scope.md R12): most significant byte first. -/
def be16 (v : U16) : List Byte := [v.extractLsb' 8 8, v.extractLsb' 0 8]

/-- `color565(r, g, b)` (R130): the masks and shifts of the rule, over 16 bits. -/
def packColor (r g b : Byte) : U16 :=
  ((r &&& 0xF8#8).setWidth 16 <<< 8) ||| ((g &&& 0xFC#8).setWidth 16 <<< 3) ||| (b >>> 3).setWidth 16

/-- `unpack565(c)` (R131): the truncated components. -/
def unpackColor (c : U16) : Byte × Byte × Byte :=
  ((c >>> 8 &&& 0xF8#16).setWidth 8, (c >>> 3 &&& 0xFC#16).setWidth 8, (c <<< 3 &&& 0xF8#16).setWidth 8)

/-- `encode_pixel(c)` (R132, 30_encoding.md R107). -/
def encodePixel (c : U16) : List Byte := be16 c

/-- `decode_pixel([b0, b1, b2])` (R133, 30_encoding.md R109): red, green, blue. -/
def decodePixel (b0 b1 b2 : Byte) : U16 := packColor b0 b1 b2

/-- `encode_position(a, b)` (R134, 30_encoding.md R108). -/
def encodePosition (a b : U16) : List Byte := be16 a ++ be16 b

/-- `rep(l, k)` (00_scope.md R12): `l` repeated `k` times. -/
def rep (l : List Byte) (k : Nat) : List Byte := (List.replicate k l).flatten

end Sys2Proof.Machine
end

