-- ==== Sys2Proof/Syntax.lean ====
section
/-! DEFINITION. The instructions: one constructor for each row of the opcode table, and the two forms in which an
instruction is presented (the nine command words, the bytes of a wire format). -/

namespace Sys2Proof

/-- The nine values of 30_encoding.md R100: the command word and the eight operand words, each as wide as its register
is implemented (10_state.md R22). The operand registers and the operand latch (10_state.md R34) both have this form. -/
structure CommandWords where
  /-- `CMD`: bits [7:0] the operation code, bits [31:8] zero (R101). -/
  cmd : Word
  /-- `ARG_X`. -/
  x : Word
  /-- `ARG_Y`. -/
  y : Word
  /-- `ARG_W`. -/
  w : Word
  /-- `ARG_H`. -/
  h : Word
  /-- `ARG_COLOR`, its 16 implemented bits (10_state.md R25). -/
  color : U16
  /-- `ARG_RGB`, its 24 implemented bits (10_state.md R26). -/
  rgb : BitVec 24
  /-- `BUF_ADDR`. -/
  addr : Word
  /-- `BUF_LEN`. -/
  len : Word
  deriving DecidableEq, Repr

/-- The two encodings that meet in the block (30_encoding.md, opening): a host command, or the bytes of one wire format
in the order they are sent (30_encoding.md R106 to R109). -/
inductive Frame where
  | command (c : CommandWords)
  | wire (bytes : List Byte)
  deriving DecidableEq, Repr

/-- The instructions. The geometry operands are the integers the rules compute with (30_encoding.md R104). -/
inductive Instr where
  /-- `PIXEL_GET x, y`: 42_display_ops.md R172. -/
  | pixelGet (x y : Int)
  /-- `PIXEL_SET x, y, color`: 42_display_ops.md R173. -/
  | pixelSet (x y : Int) (color : U16)
  /-- `FILL_RECT x, y, w, h, color`: 42_display_ops.md R174, R175. -/
  | fillRect (x y w h : Int) (color : U16)
  /-- `FILL color`: 42_display_ops.md R176. -/
  | fill (color : U16)
  /-- `HLINE x, y, w, color`: 42_display_ops.md R177. -/
  | hline (x y w : Int) (color : U16)
  /-- `VLINE x, y, h, color`: 42_display_ops.md R178. -/
  | vline (x y h : Int) (color : U16)
  /-- `BLIT addr, len, x, y, w, h`: 42_display_ops.md R179. -/
  | blit (addr len : Nat) (x y w h : Int)
  /-- `COLOR565 r, g, b`: 40_pixel_codec.md R136. -/
  | color565 (r g b : Byte)
  /-- `encode_position(a, b)`: 40_pixel_codec.md R134, no host opcode. -/
  | encodePosition (a b : U16)
  /-- `encode_pixel(c)`: 40_pixel_codec.md R132, no host opcode. -/
  | encodePixel (c : U16)
  /-- `decode_pixel([b0, b1, b2])`: 40_pixel_codec.md R133, no host opcode. -/
  | decodePixel (b0 b1 b2 : Byte)
  deriving DecidableEq, Repr

/-- The eight operations of 30_encoding.md R102, which a host can start; the other three are internal (R157). -/
def Instr.isOperation : Instr → Bool
  | .pixelGet _ _ => true
  | .pixelSet _ _ _ => true
  | .fillRect _ _ _ _ _ => true
  | .fill _ => true
  | .hline _ _ _ _ => true
  | .vline _ _ _ _ => true
  | .blit _ _ _ _ _ _ => true
  | .color565 _ _ _ => true
  | .encodePosition _ _ => false
  | .encodePixel _ => false
  | .decodePixel _ _ _ => false

end Sys2Proof
end

