-- ==== Sys2Proof/WellFormed.lean ====
section
/-! DEFINITION. Which instructions the operand registers can hold (30_encoding.md R104), and which configurations an
instance is built from (00_scope.md R8). -/

namespace Sys2Proof

/-- The range of a signed 32-bit operand (10_state.md R24). -/
abbrev InS32 (v : Int) : Prop := -2147483648 ≤ v ∧ v ≤ 2147483647

/-- The range of an unsigned 32-bit operand (10_state.md R27). -/
abbrev InU32 (n : Nat) : Prop := n < 4294967296

/-- Every operand lies in the range its register holds; the other operands are as wide as their type. -/
def Instr.wf : Instr → Bool
  | .pixelGet x y => decide (InS32 x ∧ InS32 y)
  | .pixelSet x y _ => decide (InS32 x ∧ InS32 y)
  | .fillRect x y w h _ => decide (InS32 x ∧ InS32 y ∧ InS32 w ∧ InS32 h)
  | .fill _ => true
  | .hline x y w _ => decide (InS32 x ∧ InS32 y ∧ InS32 w)
  | .vline x y h _ => decide (InS32 x ∧ InS32 y ∧ InS32 h)
  | .blit addr len x y w h =>
    decide (InU32 addr ∧ InU32 len ∧ InS32 x ∧ InS32 y ∧ InS32 w ∧ InS32 h)
  | .color565 _ _ _ => true
  | .encodePosition _ _ => true
  | .encodePixel _ => true
  | .decodePixel _ _ _ => true

/-- R8: the configurations an instance is built from. The widths of R7 that this spec fixes have their one value.
DESIGN CHOICE (log 17), safe: `T_RST` is not tested, as in R8, so 0 is admitted beside the positive durations of
92_eei_decisions.md's parameter table. -/
def Config.wf (c : Config) : Bool :=
  decide (1 ≤ c.width ∧ c.width ≤ 65536 ∧ 1 ≤ c.height ∧ c.height ≤ 65536 ∧ 1 ≤ c.chunkPixels ∧
    c.pixelWrBytes = 2 ∧ c.posBytes = 4 ∧ c.pixelRdBytes = 3 ∧ c.argBits = 32 ∧ c.addrBits = 32)

end Sys2Proof
end

