-- ==== Sys2Proof/Decode.lean ====
section
/-! DEFINITION. The decoder (30_encoding.md R100 to R105, R107 to R109), total on every frame and rejecting by name, and
the encoder beside it. -/

namespace Sys2Proof

/-- Why a frame is no instruction. -/
inductive DecodeReject where
  /-- `CMD[31:8]` is not zero (30_encoding.md R105). -/
  | reservedBits
  /-- `CMD[7:0]` is 0x00 or at least 0x09 (30_encoding.md R105). -/
  | reservedOpcode
  /-- No wire format has this many bytes (30_encoding.md R106). -/
  | wireLength
  deriving DecidableEq, Repr

/-- What the decoder answers. -/
inductive Decoded where
  | instr (i : Instr)
  | reject (why : DecodeReject)
  deriving DecidableEq, Repr

/-- The instruction, if there is one. -/
def Decoded.toOption : Decoded → Option Instr
  | .instr i => some i
  | .reject _ => none

/-- `ZERO`, bits [31:8] of the command word (30_encoding.md R101). -/
def CommandWords.reserved (c : CommandWords) : BitVec 24 := c.cmd.extractLsb' 8 24

/-- `OPCODE`, bits [7:0] of the command word (30_encoding.md R101). -/
def CommandWords.opcode (c : CommandWords) : Byte := c.cmd.extractLsb' 0 8

/-- The red component of `ARG_RGB`, bits [23:16] (30_encoding.md R104). -/
def CommandWords.red (c : CommandWords) : Byte := c.rgb.extractLsb' 16 8

/-- The green component of `ARG_RGB`, bits [15:8] (30_encoding.md R104). -/
def CommandWords.green (c : CommandWords) : Byte := c.rgb.extractLsb' 8 8

/-- The blue component of `ARG_RGB`, bits [7:0] (30_encoding.md R104). -/
def CommandWords.blue (c : CommandWords) : Byte := c.rgb.extractLsb' 0 8

/-- R102, R103, R104: the operation code selects the operation, and the operation reads its own operand words only,
the geometry as two's complement, address and length unsigned. R105: every other command word is rejected. -/
def decodeCommand (c : CommandWords) : Decoded :=
  if c.reserved ≠ 0#24 then .reject .reservedBits
  else match c.opcode.toNat with
    | 1 => .instr (.pixelGet c.x.toInt c.y.toInt)
    | 2 => .instr (.pixelSet c.x.toInt c.y.toInt c.color)
    | 3 => .instr (.fillRect c.x.toInt c.y.toInt c.w.toInt c.h.toInt c.color)
    | 4 => .instr (.fill c.color)
    | 5 => .instr (.hline c.x.toInt c.y.toInt c.w.toInt c.color)
    | 6 => .instr (.vline c.x.toInt c.y.toInt c.h.toInt c.color)
    | 7 => .instr (.blit c.addr.toNat c.len.toNat c.x.toInt c.y.toInt c.w.toInt c.h.toInt)
    | 8 => .instr (.color565 c.red c.green c.blue)
    | _ => .reject .reservedOpcode

/-- R107, R108, R109: the three wire formats, told apart by their lengths, most significant byte first. -/
def decodeWire : List Byte → Decoded
  | [hi, lo] => .instr (.encodePixel (hi ++ lo))
  | [r, g, b] => .instr (.decodePixel r g b)
  | [a1, a0, b1, b0] => .instr (.encodePosition (a1 ++ a0) (b1 ++ b0))
  | _ => .reject .wireLength

/-- The decoder. -/
def decode : Frame → Decoded
  | .command c => decodeCommand c
  | .wire bytes => decodeWire bytes

/-- A command word with every operand word zero. -/
def CommandWords.ofCmd (v : Word) : CommandWords where
  cmd := v
  x := 0
  y := 0
  w := 0
  h := 0
  color := 0
  rgb := 0
  addr := 0
  len := 0

/-- The two's complement pattern of a geometry operand (30_encoding.md R111). -/
def geometryWord (v : Int) : Word := BitVec.ofInt 32 v

/-- The pattern of an unsigned operand. -/
def unsignedWord (n : Nat) : Word := BitVec.ofNat 32 n

/-- The encoder: the frame of an instruction. Operand words an operation does not read are zero (R103 lets them hold
anything). -/
def encode : Instr → Frame
  | .pixelGet x y => .command { CommandWords.ofCmd 1 with x := geometryWord x, y := geometryWord y }
  | .pixelSet x y color =>
    .command { CommandWords.ofCmd 2 with x := geometryWord x, y := geometryWord y, color := color }
  | .fillRect x y w h color =>
    .command { CommandWords.ofCmd 3 with
      x := geometryWord x, y := geometryWord y, w := geometryWord w, h := geometryWord h, color := color }
  | .fill color => .command { CommandWords.ofCmd 4 with color := color }
  | .hline x y w color =>
    .command { CommandWords.ofCmd 5 with
      x := geometryWord x, y := geometryWord y, w := geometryWord w, color := color }
  | .vline x y h color =>
    .command { CommandWords.ofCmd 6 with
      x := geometryWord x, y := geometryWord y, h := geometryWord h, color := color }
  | .blit addr len x y w h =>
    .command { CommandWords.ofCmd 7 with
      x := geometryWord x, y := geometryWord y, w := geometryWord w, h := geometryWord h
      addr := unsignedWord addr, len := unsignedWord len }
  | .color565 r g b => .command { CommandWords.ofCmd 8 with rgb := r ++ g ++ b }
  | .encodePosition a b =>
    .wire [a.extractLsb' 8 8, a.extractLsb' 0 8, b.extractLsb' 8 8, b.extractLsb' 0 8]
  | .encodePixel c => .wire [c.extractLsb' 8 8, c.extractLsb' 0 8]
  | .decodePixel b0 b1 b2 => .wire [b0, b1, b2]

/-- Byte `k` of `w`, counted from the least significant. -/
def byteOf (w k : Nat) : Byte := BitVec.ofNat 8 (w / 256 ^ k)

/-- The frame that the opcode table's bits `w` of a row of `nbits` bits stand for. DESIGN CHOICE (log 9): a 32-bit row is
a command word with zero operand words where the word is an operation, else a wire position; the wire rows are written
with the byte sent first in the most significant place, as the table's patterns are. -/
def tableFrame (nbits w : Nat) : Option Frame :=
  match nbits with
  | 16 => some (.wire [byteOf w 1, byteOf w 0])
  | 24 => some (.wire [byteOf w 2, byteOf w 1, byteOf w 0])
  | 32 =>
    match decodeCommand (CommandWords.ofCmd (BitVec.ofNat 32 w)) with
    | .instr _ => some (.command (CommandWords.ofCmd (BitVec.ofNat 32 w)))
    | .reject _ => some (.wire [byteOf w 3, byteOf w 2, byteOf w 1, byteOf w 0])
  | _ => none

/-- The instruction the decoder reads from a row of the opcode table. -/
def decodeTableWord (nbits w : Nat) : Option Instr :=
  match tableFrame nbits w with
  | some f => (decode f).toOption
  | none => none

end Sys2Proof
end

