-- ==== Sys2Proof/Machine/Bus.lean ====
section
/-! DEFINITION. The Bus Transport channel: events, outcomes, the trace (20_memory.md R63 to R68). -/

namespace Sys2Proof.Machine

/-- The two names of the reset line's level (R63, 70_reset_and_hazards.md R252); which electrical level each is stays
with the platform (90_conflicts.md C8). -/
inductive ResetLevel where
  | deassert
  | assert
  deriving DecidableEq, Repr

/-- The events of R63. -/
inductive BusEvent where
  /-- `W(cmd, data)`: one write transaction (R64). -/
  | write (cmd : Option Byte) (data : List Byte)
  /-- `R(cmd, n)`: one read transaction (R65). -/
  | read (cmd : Option Byte) (count : Nat)
  /-- `RST(level)`: drive the reset line. -/
  | rst (level : ResetLevel)
  /-- `WAIT`: let the fixed delay `T_RST` pass. -/
  | wait (duration : Nat)
  deriving DecidableEq, Repr

/-- The outcome of an event (R63): `ok`, with the bytes a read obtained and none for any other event, or `fail`. -/
inductive Answer where
  | ok (bytes : List Byte)
  | fail
  deriving DecidableEq, Repr

/-- One entry of the trace (R68): an event and its outcome. -/
structure TraceEntry where
  event : BusEvent
  answer : Answer
  deriving DecidableEq, Repr

/-- `BusWrite(cmd, data)` as the events it performs (R66): one write transaction, or none at all where there is neither
a command nor data. -/
def busWrite (cmd : Option Byte) (data : List Byte) : List BusEvent :=
  match cmd, data with
  | none, [] => []
  | _, _ => [.write cmd data]

/-- What an answer of the transport means for an event (R67): a read succeeds only with exactly the bytes asked for, the
other transactions return no bytes, and `WAIT` always completes. -/
def Answer.fit (a : Answer) (e : BusEvent) : Answer :=
  match e, a with
  | .wait _, _ => .ok []
  | .read _ n, .ok bytes => if bytes.length = n then .ok bytes else .fail
  | _, .ok _ => .ok []
  | _, .fail => .fail

/-- The freely drawn answer number `k` to an event (R67): nothing is known of it but its length. -/
def freeAnswer (k : Nat) (e : BusEvent) : Answer :=
  match e with
  | .read _ n => if Config.freeOk k then .ok ((List.range n).map (Config.freeByte k)) else .fail
  | _ => if Config.freeOk k then .ok [] else .fail

/-- Does an event draw on the transport; `WAIT` does not (R63). -/
def BusEvent.drawsAnswer : BusEvent → Bool
  | .write _ _ => true
  | .read _ _ => true
  | .rst _ => true
  | .wait _ => false

/-- The events that R63, R65 and R66 admit: no write with neither command nor data, no read without a command or of
nothing. -/
def BusEvent.proper : BusEvent → Bool
  | .write cmd data => cmd.isSome || !data.isEmpty
  | .read cmd n => cmd.isSome && decide (1 ≤ n)
  | .rst _ => true
  | .wait _ => true

/-- The bus transactions are the `W` and `R` events (R68). -/
def BusEvent.isTransaction : BusEvent → Bool
  | .write _ _ => true
  | .read _ _ => true
  | .rst _ => false
  | .wait _ => false

/-- The data bytes of a write with no command: the pixels of a chunk (30_encoding.md R110, DATA). -/
def BusEvent.rawData : BusEvent → List Byte
  | .write none data => data
  | _ => []

/-- `ResetPulse()` (70_reset_and_hazards.md R252): deassert, wait, assert, wait. -/
def resetPulse (cfg : Config) : List BusEvent :=
  [.rst .deassert, .wait cfg.tRst, .rst .assert, .wait cfg.tRst]

/-- The events of one entry of `INIT_SEQ` (70_reset_and_hazards.md R253); an absent payload is the empty one. -/
def initEntry (entry : Option Byte × Option (List Byte)) : List BusEvent :=
  busWrite entry.1 (entry.2.getD [])

/-- The events of the start-up sequence (70_reset_and_hazards.md R251): the reset pulse if there is a reset line, then
`INIT_SEQ` in order. -/
def startupEvents (cfg : Config) : List BusEvent :=
  (if cfg.hasReset then resetPulse cfg else []) ++ cfg.initSeq.flatMap initEntry

end Sys2Proof.Machine
end

