-- ==== Sys2Proof/Machine/Memory.lean ====
section
/-! DEFINITION. Host memory (20_memory.md R60, R61, R62): bytes at the addresses 0 .. 2^32 - 1, held as a list of cells in
one canonical form. -/

namespace Sys2Proof.Machine

/-- Host memory: cells at strictly rising addresses, none equal to what an unlisted address reads as. -/
abbrev Memory := List Host.Cell

/-- What an address that nothing has written reads as. DESIGN CHOICE (log 4), unsafe: the spec gives no contents of
host memory, and R62 makes every read return a byte. -/
def Memory.unwritten : Byte := 0

/-- The addresses of host memory (R60). -/
def Memory.size : Nat := 4294967296

/-- The byte at an address (R61). -/
def Memory.read : Memory → Nat → Byte
  | [], _ => Memory.unwritten
  | (k, v) :: m, a => if k = a then v else Memory.read m a

/-- The cell for `b` at `a`, if it has to be listed. -/
def Memory.cell (a : Nat) (b : Byte) : Memory :=
  if b = Memory.unwritten then [] else [(a, b)]

/-- The host stores a byte; the canonical form is kept. -/
def Memory.write : Memory → Nat → Byte → Memory
  | [], a, b => Memory.cell a b
  | (k, v) :: m, a, b =>
    if k < a then (k, v) :: Memory.write m a b
    else if k = a then Memory.cell a b ++ m
    else Memory.cell a b ++ (k, v) :: m

/-- Every address of the list is at least `lo`, inside host memory, above the ones before it, and its byte is not the
unwritten one. -/
def Memory.wfFrom : Nat → Memory → Bool
  | _, [] => true
  | lo, (k, v) :: m =>
    decide (lo ≤ k) && decide (k < Memory.size) && decide (v ≠ Memory.unwritten) && Memory.wfFrom (k + 1) m

/-- The canonical form holds. -/
def Memory.wf (m : Memory) : Bool := Memory.wfFrom 0 m

/-- `MemRead(addr, n)` (00_scope.md R14): the bytes at `addr, addr + 1, ..., addr + n - 1`, in that order. -/
def Memory.readBytes (m : Memory) : Nat → Nat → List Byte
  | _, 0 => []
  | a, n + 1 => m.read a :: Memory.readBytes m (a + 1) n

end Sys2Proof.Machine
end

