-- ==== Sys2Proof/Machine/State.lean ====
section
/-! DEFINITION. The state of the machine (10_state.md R21 to R41), the reasons a step can stop, and the state after
reset. -/

namespace Sys2Proof.Machine

/-- The completion codes (60_exceptions.md R210); the values 7 to 15 are never produced. -/
inductive Code where
  | ok
  | outOfBounds
  | transportError
  | configError
  | encodeRange
  | illegalOp
  | notReady
  deriving DecidableEq, Repr

/-- The fields of `STATUS` (10_state.md R28). -/
structure Status where
  /-- `BUSY`, bit 0. -/
  busy : Bool
  /-- `READY`, bit 1. -/
  ready : Bool
  /-- `DEAD`, bit 2. -/
  dead : Bool
  /-- `CODE`, bits [7:4]. -/
  code : Code
  deriving DecidableEq, Repr

/-- What an operation still does with the bytes its last event returned, once every event was `ok`. -/
inductive OnOk where
  /-- Nothing: the operation returns no value. -/
  | nothing
  /-- `RESULT` takes `decode_pixel` of the bytes (42_display_ops.md R172). -/
  | decodeResult
  deriving DecidableEq, Repr

/-- The sequencer phase with the position inside it (10_state.md R35). `runEntry` and `runEvents` are `RUN`: before the
checks of the operation, and among its events (those still to perform, what comes after them, the bytes last received). -/
inductive Phase where
  | startup (todo : List BusEvent)
  | idle
  | runEntry
  | runEvents (todo : List BusEvent) (onOk : OnOk) (received : List Byte)
  | idleDead
  deriving DecidableEq, Repr

/-- The MODEL's own port of the codec functions (log 8): the bytes of a wire format presented on it, and the value the
last function presented on it returned. The block's operations do not use it. -/
structure Codec where
  request : Option (List Byte)
  bytes : List Byte
  color : U16
  deriving DecidableEq, Repr

/-- What the host and the platform do next (log 5). Sizes are in bytes. -/
inductive Input where
  /-- The host writes a register (10_state.md R22, R33). -/
  | write (offset size : Nat) (value : Word)
  /-- The host reads a register. -/
  | read (offset size : Nat)
  /-- The host stores a byte in its own memory (20_memory.md R62). -/
  | memWrite (addr : Nat) (value : Byte)
  /-- The host polls `STATUS` until `BUSY` is 0 (30_encoding.md R111). -/
  | await
  /-- The block moves once, by at most one event, before the host acts again (20_memory.md R76). -/
  | turn
  /-- The platform applies and releases hardware reset (70_reset_and_hazards.md R250). -/
  | hardReset
  deriving DecidableEq, Repr

/-- One register read by the host and the value it saw (20_memory.md R69). -/
structure HostRead where
  offset : Nat
  value : Word
  deriving DecidableEq, Repr

/-- Why a step ends in a fault. The block itself traps nowhere (60_exceptions.md, opening). -/
inductive Fault where
  /-- Raised by the host's own store (`hostStore`) at an address outside 0 .. 2^32 - 1, which host memory does not have
  (20_memory.md R60). Safe: no state follows. -/
  | noSuchAddress
  deriving DecidableEq, Repr

/-- Why a step is refused. -/
inductive Refusal where
  /-- Raised by an arm of `exec` whose instruction has no meaning yet. Safe: nothing is claimed. -/
  | notModelled (mnemonic : String)
  /-- Raised by `step` for a configuration no instance is built from (00_scope.md R8). Safe. -/
  | illFormedConfig
  /-- Raised by a register access that is not 32 bits wide or not naturally aligned (10_state.md R33), and by a byte the
  host stores where its memory contains the register space. Safe. -/
  | narrowOrMisaligned
  /-- Raised by a register access beyond offset 0x3F (10_state.md R32, 93_implementation_defined.md U10). Safe. -/
  | beyondRegisterSpace
  /-- Raised by every `BLIT` whose buffer overlaps the block's own registers (20_memory.md R75). Safe. -/
  | blitOverlapsRegisters
  /-- Raised by the host's store into the buffer of a running `BLIT` (93_implementation_defined.md U6). Safe. -/
  | blitBufferWritten
  /-- Raised by `step` for bytes on the codec port that have no wire format's length (40_pixel_codec.md R133). Safe. -/
  | noWireFormat
  deriving DecidableEq, Repr

/-- The whole machine: the four parts of 10_state.md R21, host memory (20_memory.md R61), the configuration (constant,
10_state.md R20, log 1), and the model's own fields (INVENTORY.md). -/
structure State where
  /-- The configuration; nothing changes it. -/
  cfg : Config
  /-- `CMD` and the eight operand registers (10_state.md R22 to R27). -/
  regs : CommandWords
  /-- The operand latch (10_state.md R34). -/
  latch : CommandWords
  /-- `STATUS` (10_state.md R28). -/
  status : Status
  /-- `RESULT`, its 16 implemented bits (10_state.md R29). -/
  result : U16
  /-- `FAULT_LOG` (10_state.md R30). -/
  faultLog : Word
  /-- The sequencer phase (10_state.md R35). -/
  phase : Phase
  /-- The trace since hardware reset (20_memory.md R68). -/
  trace : List TraceEntry
  /-- Host memory (20_memory.md R61). -/
  mem : Memory
  /-- The transport's answers still to come, one for each event but `WAIT` (20_memory.md R67, log 2). -/
  answers : List Answer
  /-- How many answers were drawn freely (log 2). -/
  draws : Nat
  /-- What the host and the platform do next (log 5). -/
  inputs : List Input
  /-- What the host has read (log 7). -/
  hostReads : List HostRead
  /-- The port of the codec functions (log 8). -/
  codec : Codec
  deriving DecidableEq, Repr

/-- The codec port after reset: nothing requested, nothing returned. DESIGN CHOICE (log 8), unsafe. -/
def Codec.atReset : Codec where
  request := none
  bytes := []
  color := 0

/-- The machine right after hardware reset, for any configuration (10_state.md R41). The latch is unspecified there:
zero is a DESIGN CHOICE (log 3), unsafe. -/
def State.powerOn (cfg : Config) : State where
  cfg := cfg
  regs := CommandWords.ofCmd 0
  latch := CommandWords.ofCmd 0
  status := { busy := true, ready := false, dead := false, code := .ok }
  result := 0
  faultLog := 0
  phase := .startup (startupEvents cfg)
  trace := []
  mem := []
  answers := []
  draws := 0
  inputs := []
  hostReads := []
  codec := Codec.atReset

/-- The machine right after reset, in the configuration of the example profile (log 1). -/
def State.reset : State := State.powerOn Config.exampleProfile

end Sys2Proof.Machine
end

