-- ==== Sys2Proof/Machine/Flags.lean ====
section
/-! DEFINITION. `STATUS` and `FAULT_LOG` as the host sees them (10_state.md R28, R30; 60_exceptions.md R210). -/

namespace Sys2Proof.Machine

/-- The number of a completion code (60_exceptions.md R210). -/
def Code.number : Code → Nat
  | .ok => 0
  | .outOfBounds => 1
  | .transportError => 2
  | .configError => 3
  | .encodeRange => 4
  | .illegalOp => 5
  | .notReady => 6

/-- `STATUS` read as a word (10_state.md R28): bits 0, 1, 2 and [7:4]; the reserved bits read 0. -/
def Status.word (s : Status) : Word :=
  0#24 ++ BitVec.ofNat 4 s.code.number ++ 0#1 ++ BitVec.ofBool s.dead ++ BitVec.ofBool s.ready ++ BitVec.ofBool s.busy

/-- The bit of `FAULT_LOG` that completing with a code sets (10_state.md R30): bit `n` for the codes 1 to 6, none for
`OK`. -/
def Code.faultBit (c : Code) : Word :=
  if c = .ok then 0 else 1#32 <<< c.number

/-- Bit 8 of `FAULT_LOG`, `BUSY_VIOLATION` (10_state.md R30). -/
def busyViolation : Word := 1#32 <<< 8

/-- The bits of `FAULT_LOG` that can ever be set: 1 to 6 and 8 (10_state.md R30). -/
def faultBits : Word := 0x17E#32

end Sys2Proof.Machine
end

