-- ==== Sys2Proof/Machine/Ops.lean ====
section
/-! DEFINITION. The shared operations over the state: completing an operation (this machine's one exception entry; there
is no return from it, 60_exceptions.md R220, R222), performing events, ending start-up, hardware reset. -/

namespace Sys2Proof.Machine

/-- The phase of an idle block (10_state.md R35). -/
def Status.idlePhase (s : Status) : Phase := if s.dead then .idleDead else .idle

/-- Completion with code `c`, normal or failing, as one indivisible step (60_exceptions.md R220): `CODE`, the bit of
`FAULT_LOG`, `BUSY`; nothing else changes but the phase, which is idle again. -/
def State.complete (c : Code) (s : State) : State :=
  { s with
    status := { s.status with busy := false, code := c }
    faultLog := s.faultLog ||| c.faultBit
    phase := s.status.idlePhase }

/-- The transport's answer to an event (20_memory.md R67): the next of `answers`, or a freely drawn one when there is
none left; `WAIT` draws nothing. With it the state after the draw. -/
def State.draw (s : State) (e : BusEvent) : Answer × State :=
  match e.drawsAnswer, s.answers with
  | false, _ => (Answer.fit (.ok []) e, s)
  | true, a :: rest => (a.fit e, { s with answers := rest })
  | true, [] => (freeAnswer s.draws e, { s with draws := s.draws + 1 })

/-- Append an event with its outcome to the trace (20_memory.md R68). -/
def State.record (s : State) (e : BusEvent) (a : Answer) : State :=
  { s with trace := s.trace ++ [{ event := e, answer := a }] }

/-- Perform one event (20_memory.md R63): draw its outcome, append it to the trace. -/
def State.perform (s : State) (e : BusEvent) : Answer × State :=
  ((s.draw e).1, (s.draw e).2.record e (s.draw e).1)

/-- Write `RESULT` (10_state.md R29). -/
def State.setResult (v : U16) (s : State) : State := { s with result := v }

/-- What an operation does with the bytes received once every event was `ok` (42_display_ops.md R172). `decode_pixel`
is given three bytes by every operation (20_memory.md R67); it has no meaning for another length (log 18). -/
def State.useReceived (onOk : OnOk) (received : List Byte) (s : State) : State :=
  match onOk, received with
  | .decodeResult, [b0, b1, b2] => s.setResult (decodePixel b0 b1 b2)
  | _, _ => s

/-- Every event of the operation was `ok`: its value is written, and it completes `OK`. -/
def State.finish (onOk : OnOk) (received : List Byte) (s : State) : State :=
  (s.useReceived onOk received).complete .ok

/-- Perform the events of an operation to its completion: one after another (20_memory.md R76), stopping with
`TRANSPORT_ERROR` at the first that fails (60_exceptions.md R212). -/
def State.runEvents : List BusEvent → OnOk → List Byte → State → State
  | [], onOk, received, s => s.finish onOk received
  | e :: rest, onOk, _, s =>
    match s.perform e with
    | (.ok bytes, s') => State.runEvents rest onOk bytes s'
    | (.fail, s') => s'.complete .transportError

/-- Start-up succeeded (70_reset_and_hazards.md R254): `READY`, then completion with `OK`. -/
def State.startupDone (s : State) : State :=
  State.complete .ok { s with status := { s.status with ready := true } }

/-- Start-up failed (70_reset_and_hazards.md R255): `DEAD`, then completion with `TRANSPORT_ERROR`. -/
def State.startupFailed (s : State) : State :=
  State.complete .transportError { s with status := { s.status with dead := true } }

/-- Hardware reset (70_reset_and_hazards.md R250): every piece of the block's state takes its value of 10_state.md R41;
the configuration, host memory and what the outside will do are not the block's (log 14). -/
def State.hardReset (s : State) : State :=
  { State.powerOn s.cfg with
    mem := s.mem
    answers := s.answers
    draws := s.draws
    inputs := s.inputs
    hostReads := s.hostReads }

/-- What the rule of an instruction decides before its first event (60_exceptions.md R219). -/
inductive Launch where
  /-- It completes at once with a code and no event. -/
  | stop (c : Code)
  /-- It writes `RESULT` and completes `OK`, with no event (40_pixel_codec.md R136). -/
  | value (v : U16)
  /-- It performs these events and then completes. -/
  | events (todo : List BusEvent) (onOk : OnOk)
  /-- A codec function returns bytes (log 8). -/
  | codecBytes (bytes : List Byte)
  /-- A codec function returns a colour (log 8). -/
  | codecColor (color : U16)
  /-- The spec asks the model to refuse it. -/
  | refuse (why : Refusal)
  deriving DecidableEq, Repr

/-- A codec function's value stands on the model's port; nothing else changes (40_pixel_codec.md R135). -/
def State.codecReturnBytes (bytes : List Byte) (s : State) : State :=
  { s with codec := { s.codec with request := none, bytes := bytes } }

/-- A codec function's colour stands on the model's port; nothing else changes (40_pixel_codec.md R135). -/
def State.codecReturnColor (color : U16) (s : State) : State :=
  { s with codec := { s.codec with request := none, color := color } }

/-- Carry out a launch whole: to completion, all its events in order. -/
def Launch.run (l : Launch) (s : State) : Host.Outcome State Fault Refusal :=
  match l with
  | .stop c => .next (s.complete c)
  | .value v => .next ((s.setResult v).complete .ok)
  | .events todo onOk => .next (s.runEvents todo onOk [])
  | .codecBytes bytes => .next (s.codecReturnBytes bytes)
  | .codecColor color => .next (s.codecReturnColor color)
  | .refuse why => .refused why

/-- Carry out the first move of a launch: its checks, and entering its events without performing one. -/
def Launch.enter (l : Launch) (s : State) : Host.Outcome State Fault Refusal :=
  match l with
  | .events todo onOk => .next { s with phase := .runEvents todo onOk [] }
  | .stop c => (Launch.stop c).run s
  | .value v => (Launch.value v).run s
  | .codecBytes bytes => (Launch.codecBytes bytes).run s
  | .codecColor color => (Launch.codecColor color).run s
  | .refuse why => (Launch.refuse why).run s

/-- An operation that a dead block answers `NOT_READY` (60_exceptions.md R216, 42_display_ops.md R170). -/
def unlessDead (s : State) (l : Launch) : Launch :=
  if s.status.dead then .stop .notReady else l

end Sys2Proof.Machine
end

