-- ==== Sys2Proof/Machine/Window.lean ====
section
/-! DEFINITION. The Windowed Block Accessor (41_window_accessor.md R150 to R158): its two micro-operations, as the events
they perform. -/

namespace Sys2Proof.Machine

/-- `ProgramWindow` (R152): CASET, then PASET. -/
def programWindow (columnSet pageSet : Byte) (r : Rect) : List BusEvent :=
  [.write (some columnSet) (encodePosition (toU16 r.x0) (toU16 r.x1)),
   .write (some pageSet) (encodePosition (toU16 r.y0) (toU16 r.y1))]

/-- The events of `set_window_and_write` (R153): CASET, PASET, RAMWR with the payload. -/
def writeWindowEvents (columnSet pageSet ramWrite : Byte) (r : Rect) (payload : List Byte) : List BusEvent :=
  programWindow columnSet pageSet r ++ [.write (some ramWrite) payload]

/-- The events of `set_window_and_read` (R154): CASET, PASET, RAMRD of three bytes a pixel. DESIGN CHOICE (log 22): where
the pixel count is not positive, which R154 gives no meaning, the count of bytes is 0; no operation passes such a
rectangle. -/
def readWindowEvents (columnSet pageSet ramRead : Byte) (r : Rect) : List BusEvent :=
  programWindow columnSet pageSet r ++ [.read (some ramRead) (r.pixels * 3).toNat]

/-- `set_window_and_write(rect, payload)` followed by the caller's raw writes: the configuration check first (R151),
then the events. -/
def windowWrite (cfg : Config) (r : Rect) (payload : List Byte) (raw : List BusEvent) : Launch :=
  match cfg.cmdColumnSet, cfg.cmdPageSet, cfg.cmdRamWrite with
  | some cs, some ps, some rw => .events (writeWindowEvents cs ps rw r payload ++ raw) .nothing
  | _, _, _ => .stop .configError

/-- `set_window_and_read(rect)` whose bytes go to `RESULT`: the configuration check first (R151), then the events. -/
def windowRead (cfg : Config) (r : Rect) : Launch :=
  match cfg.cmdColumnSet, cfg.cmdPageSet, cfg.cmdRamRead with
  | some cs, some ps, some rd => .events (readWindowEvents cs ps rd r) .decodeResult
  | _, _, _ => .stop .configError

end Sys2Proof.Machine
end

