-- ==== Sys2Proof/Machine/Blit.lean ====
section
/-! DEFINITION. `BLIT` (42_display_ops.md R179). -/

namespace Sys2Proof.Machine

/-- A `BLIT` whose buffer overlaps the block's own registers is refused whatever else holds: it is no launch
(20_memory.md R75, log 13). -/
def refuseOverlap (cfg : Config) (addr len : Nat) (l : Launch) : Launch :=
  if overlapsRegisters cfg addr len then .refuse .blitOverlapsRegisters else l

/-- The rule of `BLIT addr, len, x, y, w, h` (R179): the address range, then the strict bounds, then the accessor with
the bytes of the buffer as they lie in memory (20_memory.md R71). -/
def launchBlit (addr len : Nat) (x y w h : Int) (s : State) : Launch :=
  refuseOverlap s.cfg addr len (
    unlessDead s (
      if bufferInSpace addr len then
        if blitFits s.cfg x y w h then
          windowWrite s.cfg (sizedRect x y w h) (s.mem.readBytes addr len) []
        else .stop .outOfBounds
      else .stop .illegalOp))

/-- `BLIT addr, len, x, y, w, h`. -/
def execBlit (addr len : Nat) (x y w h : Int) (s : State) : Host.Outcome State Fault Refusal :=
  (launchBlit addr len x y w h s).run s

end Sys2Proof.Machine
end

