-- ==== Sys2Proof/Machine/Color.lean ====
section
/-! DEFINITION. The pixel codec as instructions: the operation `COLOR565` (40_pixel_codec.md R136), and the three wire
functions `encode_position`, `encode_pixel`, `decode_pixel` (R132 to R134), whose value stands on the model's codec port
(log 8). -/

namespace Sys2Proof.Machine

/-- The rule of `COLOR565 r, g, b` (R136); it runs in a dead block too. -/
def launchColor565 (r g b : Byte) : Launch := .value (packColor r g b)

/-- `COLOR565 r, g, b`. -/
def execColor565 (r g b : Byte) (s : State) : Host.Outcome State Fault Refusal :=
  (launchColor565 r g b).run s

/-- The rule of `encode_position(a, b)` (R134). -/
def launchEncodePosition (a b : U16) : Launch := .codecBytes (encodePosition a b)

/-- `encode_position(a, b)`. -/
def execEncodePosition (a b : U16) (s : State) : Host.Outcome State Fault Refusal :=
  (launchEncodePosition a b).run s

/-- The rule of `encode_pixel(c)` (R132). -/
def launchEncodePixel (c : U16) : Launch := .codecBytes (encodePixel c)

/-- `encode_pixel(c)`. -/
def execEncodePixel (c : U16) (s : State) : Host.Outcome State Fault Refusal :=
  (launchEncodePixel c).run s

/-- The rule of `decode_pixel([b0, b1, b2])` (R133). -/
def launchDecodePixel (b0 b1 b2 : Byte) : Launch := .codecColor (decodePixel b0 b1 b2)

/-- `decode_pixel([b0, b1, b2])`. -/
def execDecodePixel (b0 b1 b2 : Byte) (s : State) : Host.Outcome State Fault Refusal :=
  (launchDecodePixel b0 b1 b2).run s

end Sys2Proof.Machine
end

