-- ==== Sys2Proof/Machine/Fill.lean ====
section
/-! DEFINITION. Fills: `FILL_RECT`, `FILL`, `HLINE`, `VLINE` (42_display_ops.md R174 to R178). -/

namespace Sys2Proof.Machine

/-- The raw writes that stream `total` pixels (R175): the full chunks, then the rest, which is a null transaction and no
event when it is empty (20_memory.md R66). -/
def chunkEvents (cfg : Config) (total : Nat) (color : U16) : List BusEvent :=
  (List.replicate (fullChunks cfg total) (busWrite none (rep (encodePixel color) cfg.chunkPixels))).flatten
    ++ busWrite none (rep (encodePixel color) (restPixels cfg total))

/-- The rule of `FILL_RECT x, y, w, h, color`: clamp (R174), program the window once, stream the chunks (R175). -/
def launchFillRect (x y w h : Int) (color : U16) (s : State) : Launch :=
  unlessDead s (
    windowWrite s.cfg (clampedRect s.cfg x y w h) [] (chunkEvents s.cfg (fillTotal s.cfg x y w h) color))

/-- `FILL_RECT x, y, w, h, color`. -/
def execFillRect (x y w h : Int) (color : U16) (s : State) : Host.Outcome State Fault Refusal :=
  (launchFillRect x y w h color s).run s

/-- The rule of `FILL color` (R176): the whole canvas. -/
def launchFill (color : U16) (s : State) : Launch :=
  launchFillRect 0 0 s.cfg.width s.cfg.height color s

/-- `FILL color`. -/
def execFill (color : U16) (s : State) : Host.Outcome State Fault Refusal :=
  (launchFill color s).run s

/-- The rule of `HLINE x, y, w, color` (R177): height 1. -/
def launchHline (x y w : Int) (color : U16) (s : State) : Launch :=
  launchFillRect x y w 1 color s

/-- `HLINE x, y, w, color`. -/
def execHline (x y w : Int) (color : U16) (s : State) : Host.Outcome State Fault Refusal :=
  (launchHline x y w color s).run s

/-- The rule of `VLINE x, y, h, color` (R178): width 1. -/
def launchVline (x y h : Int) (color : U16) (s : State) : Launch :=
  launchFillRect x y 1 h color s

/-- `VLINE x, y, h, color`. -/
def execVline (x y h : Int) (color : U16) (s : State) : Host.Outcome State Fault Refusal :=
  (launchVline x y h color s).run s

end Sys2Proof.Machine
end

