-- ==== Sys2Proof/Machine/Pixel.lean ====
section
/-! DEFINITION. Pixel access: `PIXEL_GET` and `PIXEL_SET` (42_display_ops.md R172, R173). -/

namespace Sys2Proof.Machine

/-- The rule of `PIXEL_GET x, y` (R172): no canvas check; a coordinate that is no `u16` is `ENCODE_RANGE`. -/
def launchPixelGet (x y : Int) (s : State) : Launch :=
  unlessDead s (
    if FitsU16 x ∧ FitsU16 y then windowRead s.cfg (pixelRect x y) else .stop .encodeRange)

/-- `PIXEL_GET x, y`. -/
def execPixelGet (x y : Int) (s : State) : Host.Outcome State Fault Refusal :=
  (launchPixelGet x y s).run s

/-- The rule of `PIXEL_SET x, y, color` (R173): off the canvas it is a silent no-op. -/
def launchPixelSet (x y : Int) (color : U16) (s : State) : Launch :=
  unlessDead s (
    if onCanvas s.cfg x y then windowWrite s.cfg (pixelRect x y) (encodePixel color) [] else .stop .ok)

/-- `PIXEL_SET x, y, color`. -/
def execPixelSet (x y : Int) (color : U16) (s : State) : Host.Outcome State Fault Refusal :=
  (launchPixelSet x y color s).run s

end Sys2Proof.Machine
end

