-- ==== Sys2Proof/Machine/Dispatch.lean ====
section
/-! DEFINITION. The meaning of every instruction: one arm a constructor. -/

namespace Sys2Proof.Machine

def exec (i : Instr) (s : State) : Host.Outcome State Fault Refusal :=
  match i with
  | .pixelGet x y => Sys2Proof.Machine.execPixelGet x y s
  | .pixelSet x y color => Sys2Proof.Machine.execPixelSet x y color s
  | .fillRect x y w h color => Sys2Proof.Machine.execFillRect x y w h color s
  | .fill color => Sys2Proof.Machine.execFill color s
  | .hline x y w color => Sys2Proof.Machine.execHline x y w color s
  | .vline x y h color => Sys2Proof.Machine.execVline x y h color s
  | .blit addr len x y w h => Sys2Proof.Machine.execBlit addr len x y w h s
  | .color565 r g b => Sys2Proof.Machine.execColor565 r g b s
  | .encodePosition a b => Sys2Proof.Machine.execEncodePosition a b s
  | .encodePixel c => Sys2Proof.Machine.execEncodePixel c s
  | .decodePixel b0 b1 b2 => Sys2Proof.Machine.execDecodePixel b0 b1 b2 s

end Sys2Proof.Machine
end

