-- ==== Sys2Proof/Machine/Registers.lean ====
section
/-! DEFINITION. The host's side of the register space (10_state.md R22 to R34) and of its own memory (20_memory.md R61,
R62). -/

namespace Sys2Proof.Machine

/-- The value a read of the register at a byte offset returns (10_state.md R22 to R32): unimplemented bits and reserved
offsets read 0. -/
def State.readReg (s : State) (offset : Nat) : Word :=
  match offset with
  | 0x00 => s.regs.cmd
  | 0x04 => s.regs.x
  | 0x08 => s.regs.y
  | 0x0C => s.regs.w
  | 0x10 => s.regs.h
  | 0x14 => s.regs.color.setWidth 32
  | 0x18 => s.regs.rgb.setWidth 32
  | 0x1C => s.regs.addr
  | 0x20 => s.regs.len
  | 0x24 => s.status.word
  | 0x28 => s.result.setWidth 32
  | 0x2C => s.faultLog
  | 0x30 => BitVec.ofNat 32 s.cfg.width
  | 0x34 => BitVec.ofNat 32 s.cfg.height
  | _ => 0

/-- A write of `CMD` (10_state.md R23): dropped and logged while `BUSY`; otherwise stored, the operands latched (R34),
`BUSY` set and the operation started, as one step. -/
def State.doorbell (s : State) (v : Word) : State :=
  if s.status.busy then { s with faultLog := s.faultLog ||| busyViolation }
  else
    { s with
      regs := { s.regs with cmd := v }
      latch := { s.regs with cmd := v }
      status := { s.status with busy := true }
      phase := .runEntry }

/-- A write to the register at a byte offset (10_state.md R22 to R32): unimplemented bits are dropped, read-only and
reserved offsets ignore it. -/
def State.writeReg (s : State) (offset : Nat) (v : Word) : State :=
  match offset with
  | 0x00 => s.doorbell v
  | 0x04 => { s with regs := { s.regs with x := v } }
  | 0x08 => { s with regs := { s.regs with y := v } }
  | 0x0C => { s with regs := { s.regs with w := v } }
  | 0x10 => { s with regs := { s.regs with h := v } }
  | 0x14 => { s with regs := { s.regs with color := v.setWidth 16 } }
  | 0x18 => { s with regs := { s.regs with rgb := v.setWidth 24 } }
  | 0x1C => { s with regs := { s.regs with addr := v } }
  | 0x20 => { s with regs := { s.regs with len := v } }
  | _ => s

/-- Why a register access is refused, if it is (10_state.md R32, R33). -/
def accessProblem (offset size : Nat) : Option Refusal :=
  if size ≠ 4 ∨ offset % 4 ≠ 0 then some .narrowOrMisaligned
  else if 64 ≤ offset then some .beyondRegisterSpace
  else none

/-- The host writes a register. -/
def hostWrite (offset size : Nat) (v : Word) (s : State) : Host.Outcome State Fault Refusal :=
  match accessProblem offset size with
  | some why => .refused why
  | none => .next (s.writeReg offset v)

/-- The host reads a register; the read has no side effect on the block (10_state.md R33). -/
def hostRead (offset size : Nat) (s : State) : Host.Outcome State Fault Refusal :=
  match accessProblem offset size with
  | some why => .refused why
  | none => .next { s with hostReads := s.hostReads ++ [{ offset := offset, value := s.readReg offset }] }

/-- The block is between the doorbell and the completion of an operation (10_state.md R35). -/
def Phase.running : Phase → Bool
  | .startup _ => false
  | .idle => false
  | .runEntry => true
  | .runEvents _ _ _ => true
  | .idleDead => false

/-- The address lies in the buffer of the `BLIT` that is running (70_reset_and_hazards.md R259). -/
def State.inRunningBuffer (s : State) (a : Nat) : Bool :=
  s.phase.running &&
    match decodeCommand s.latch with
    | .instr (.blit addr len _ _ _ _) => decide (addr ≤ a ∧ a < addr + len)
    | _ => false

/-- The host stores a byte in its memory: not into the buffer of a running `BLIT` (93_implementation_defined.md U6), and
where host memory contains the register space, a byte stored there is a narrow register access (10_state.md R33). -/
def hostStore (a : Nat) (b : Byte) (s : State) : Host.Outcome State Fault Refusal :=
  if a < Memory.size then
    if overlapsRegisters s.cfg a 1 then .refused .narrowOrMisaligned
    else if s.inRunningBuffer a then .refused .blitBufferWritten
    else .next { s with mem := s.mem.write a b }
  else .fault .noSuchAddress

/-- The register writes that 30_encoding.md R111 makes of a line: the operand registers the operation reads, in ascending
order of offset, as (offset, value) pairs. -/
def operandWrites : Instr → List (Nat × Word)
  | .pixelGet x y => [(0x04, geometryWord x), (0x08, geometryWord y)]
  | .pixelSet x y color => [(0x04, geometryWord x), (0x08, geometryWord y), (0x14, color.setWidth 32)]
  | .fillRect x y w h color =>
    [(0x04, geometryWord x), (0x08, geometryWord y), (0x0C, geometryWord w), (0x10, geometryWord h),
     (0x14, color.setWidth 32)]
  | .fill color => [(0x14, color.setWidth 32)]
  | .hline x y w color =>
    [(0x04, geometryWord x), (0x08, geometryWord y), (0x0C, geometryWord w), (0x14, color.setWidth 32)]
  | .vline x y h color =>
    [(0x04, geometryWord x), (0x08, geometryWord y), (0x10, geometryWord h), (0x14, color.setWidth 32)]
  | .blit addr len x y w h =>
    [(0x04, geometryWord x), (0x08, geometryWord y), (0x0C, geometryWord w), (0x10, geometryWord h),
     (0x1C, unsignedWord addr), (0x20, unsignedWord len)]
  | .color565 r g b => [(0x18, (r ++ g ++ b).setWidth 32)]
  | .encodePosition _ _ => []
  | .encodePixel _ => []
  | .decodePixel _ _ _ => []

/-- The operation code of an instruction (30_encoding.md R102); the wire functions have none (41_window_accessor.md
R157). -/
def opcodeOf : Instr → Option Word
  | .pixelGet _ _ => some 1
  | .pixelSet _ _ _ => some 2
  | .fillRect _ _ _ _ _ => some 3
  | .fill _ => some 4
  | .hline _ _ _ _ => some 5
  | .vline _ _ _ _ => some 6
  | .blit _ _ _ _ _ _ => some 7
  | .color565 _ _ _ => some 8
  | .encodePosition _ _ => none
  | .encodePixel _ => none
  | .decodePixel _ _ _ => none

/-- Does the host read `RESULT` after the operation (30_encoding.md R103, R111). -/
def readsResult : Instr → Bool
  | .pixelGet _ _ => true
  | .pixelSet _ _ _ => false
  | .fillRect _ _ _ _ _ => false
  | .fill _ => false
  | .hline _ _ _ _ => false
  | .vline _ _ _ _ => false
  | .blit _ _ _ _ _ _ => false
  | .color565 _ _ _ => true
  | .encodePosition _ _ => false
  | .encodePixel _ => false
  | .decodePixel _ _ _ => false

/-- The host actions a line of assembler stands for (30_encoding.md R111): wait, write the operands, write `CMD`, wait,
read `STATUS` and, where the operation returns a value, `RESULT`. A wire function is no line (R157). -/
def lineInputs (i : Instr) : List Input :=
  match opcodeOf i with
  | none => []
  | some op =>
    [.await] ++ (operandWrites i).map (fun w => .write w.1 4 w.2) ++ [.write 0x00 4 op, .await, .read 0x24 4]
      ++ (if readsResult i then [.read 0x28 4] else [])

end Sys2Proof.Machine
end

