-- ==== Sys2Proof/Machine/Sequencer.lean ====
section
/-! DEFINITION. What the block and the outside do in one step: the sequencer (10_state.md R35, R36), the fetch of the
latched operation (42_display_ops.md R170), and the inputs (20_memory.md R76, R77). -/

namespace Sys2Proof.Machine

/-- What the rule of an instruction decides before its first event. -/
def launchOf (i : Instr) (s : State) : Launch :=
  match i with
  | .pixelGet x y => launchPixelGet x y s
  | .pixelSet x y color => launchPixelSet x y color s
  | .fillRect x y w h color => launchFillRect x y w h color s
  | .fill color => launchFill color s
  | .hline x y w color => launchHline x y w color s
  | .vline x y h color => launchVline x y h color s
  | .blit addr len x y w h => launchBlit addr len x y w h s
  | .color565 r g b => launchColor565 r g b
  | .encodePosition a b => launchEncodePosition a b
  | .encodePixel c => launchEncodePixel c
  | .decodePixel b0 b1 b2 => launchDecodePixel b0 b1 b2

/-- The latched operation is executed whole (42_display_ops.md R170); an illegal command word completes `ILLEGAL_OP`
(30_encoding.md R105). -/
def runLatched (s : State) : Host.Outcome State Fault Refusal :=
  match decodeCommand s.latch with
  | .instr i => exec i s
  | .reject _ => .next (s.complete .illegalOp)

/-- The first move of the latched operation: its checks, no event yet. -/
def enterLatched (s : State) : Host.Outcome State Fault Refusal :=
  match decodeCommand s.latch with
  | .instr i => (launchOf i s).enter s
  | .reject _ => .next (s.complete .illegalOp)

/-- One move of the start-up sequence (70_reset_and_hazards.md R251, R254, R255). -/
def startupMove (todo : List BusEvent) (s : State) : State :=
  match todo with
  | [] => s.startupDone
  | e :: rest =>
    match s.perform e with
    | (.ok _, s') => { s' with phase := .startup rest }
    | (.fail, s') => s'.startupFailed

/-- One move among the events of an operation (20_memory.md R76, 60_exceptions.md R212). -/
def eventMove (todo : List BusEvent) (onOk : OnOk) (received : List Byte) (s : State) : State :=
  match todo with
  | [] => s.finish onOk received
  | e :: rest =>
    match s.perform e with
    | (.ok bytes, s') => { s' with phase := .runEvents rest onOk bytes }
    | (.fail, s') => s'.complete .transportError

/-- One move of the block: at most one event (92_eei_decisions.md D29). An idle block waits for a doorbell. -/
def advance (s : State) : Host.Outcome State Fault Refusal :=
  match s.phase with
  | .startup todo => .next (startupMove todo s)
  | .idle => .next s
  | .runEntry => enterLatched s
  | .runEvents todo onOk received => .next (eventMove todo onOk received s)
  | .idleDead => .next s

/-- The block moves while nobody looks at it: a latched operation runs to its completion (20_memory.md R69, R77). -/
def proceed (s : State) : Host.Outcome State Fault Refusal :=
  match s.phase with
  | .runEntry => runLatched s
  | _ => advance s

/-- A codec function presented on the model's port runs (log 8). -/
def runWire (bytes : List Byte) (s : State) : Host.Outcome State Fault Refusal :=
  match decodeWire bytes with
  | .instr i => exec i s
  | .reject _ => .refused .noWireFormat

/-- One input, already taken from the list. -/
def takeInput (i : Input) (s : State) : Host.Outcome State Fault Refusal :=
  match i with
  | .write offset size v => hostWrite offset size v s
  | .read offset size => hostRead offset size s
  | .memWrite a b => hostStore a b s
  | .await => .next s
  | .turn => advance s
  | .hardReset => .next s.hardReset

/-- A step that the inputs decide: the next input is taken, but a host that polls `STATUS` lets the block go on until
`BUSY` is 0 (30_encoding.md R111); with no input the block goes on alone. -/
def inputStep (s : State) : Host.Outcome State Fault Refusal :=
  match s.inputs with
  | [] => proceed s
  | .await :: rest => if s.status.busy then proceed s else takeInput .await { s with inputs := rest }
  | i :: rest => takeInput i { s with inputs := rest }

/-- One step of a machine whose configuration is well formed. -/
def admittedStep (s : State) : Host.Outcome State Fault Refusal :=
  match s.codec.request with
  | some bytes => runWire bytes s
  | none => inputStep s

/-- The state in which the block is about to execute the operation that these nine words present: start-up over, the
words latched, nobody else acting (log 10). -/
def State.withCommand (s : State) (c : CommandWords) : State :=
  { s with
    latch := c
    status := { s.status with busy := true, ready := !s.status.dead }
    phase := .runEntry
    inputs := []
    codec := { s.codec with request := none } }

/-- The state with these bytes presented on the codec port (log 8, log 10). -/
def State.withWire (s : State) (bytes : List Byte) : State :=
  { s with codec := { s.codec with request := some bytes } }

/-- The state with an instruction's frame presented where the next step takes it. -/
def State.withFrame (s : State) (f : Frame) : State :=
  match f with
  | .command c => s.withCommand c
  | .wire bytes => s.withWire bytes

end Sys2Proof.Machine
end

