-- ==== Sys2Proof/Machine/Step.lean ====
section
/-! DEFINITION. One step of the machine. -/

namespace Sys2Proof.Machine

/-- One step. An instance is built from a well-formed configuration only (00_scope.md R8). -/
def step (s : State) : Host.Outcome State Fault Refusal :=
  if s.cfg.wf then admittedStep s else .refused .illFormedConfig

/-- The state `s` with the instruction of an opcode-table row stored where `step` takes its next one (log 10). -/
def State.withFetchWord (s : State) (nbits w : Nat) : State :=
  match tableFrame nbits w with
  | some f => s.withFrame f
  | none => s

end Sys2Proof.Machine
end

