-- ==== Sys2Proof/Machine/Env.lean ====
section
/-! DEFINITION. `ENV`, the informative reference controller on the far side of the Bus Transport (20_memory.md R81 to R88).
It is an assumption about the environment, no part of the block and of its state: a relation between the controller before
and after each entry of the trace, which constrains nothing where the rules leave a thing unspecified (log 19). -/

namespace Sys2Proof

/-- The profile sets the three identifiers of a window write, and they differ: the rules of `ENV` tell commands apart by
their bytes (R83, R84). -/
def Config.distinctWriteIds (cfg : Config) : Bool :=
  match cfg.cmdColumnSet, cfg.cmdPageSet, cfg.cmdRamWrite with
  | some cs, some ps, some rw => decide (cs ≠ ps ∧ cs ≠ rw ∧ ps ≠ rw)
  | _, _, _ => false

namespace Machine

/-- The mode of the controller (R82). -/
inductive EnvMode where
  | none
  | write
  | read
  deriving DecidableEq, Repr

/-- The state of `ENV` (R82): window, mode, cursor, pending first byte of a pixel, and the canvas, which has the pixels
`[0, WIDTH) x [0, HEIGHT)` and no others. -/
structure Env (cfg : Config) where
  cx0 : U16
  cx1 : U16
  py0 : U16
  py1 : U16
  mode : EnvMode
  px : Nat
  py : Nat
  pending : Option Byte
  gram : Fin cfg.width → Fin cfg.height → U16

variable {cfg : Config}

/-- The pixel lies in the controller's window. -/
abbrev Env.inWindow (e : Env cfg) (x y : Nat) : Prop :=
  e.cx0.toNat ≤ x ∧ x ≤ e.cx1.toNat ∧ e.py0.toNat ≤ y ∧ y ≤ e.py1.toNat

/-- The pixel lies in the window at the cursor or after it: nothing has been sent for it yet. -/
abbrev Env.unsent (e : Env cfg) (x y : Nat) : Prop :=
  e.inWindow x y ∧ (e.py < y ∨ (y = e.py ∧ e.px ≤ x))

/-- A pixel stored at the cursor when that is on the canvas (R85). -/
def Env.store (e : Env cfg) (c : U16) : Env cfg :=
  { e with gram := fun x y => if x.val = e.px ∧ y.val = e.py then c else e.gram x y }

/-- The cursor moves on, columns first (R85). -/
def Env.moveOn (e : Env cfg) : Env cfg :=
  if e.cx1.toNat < e.px + 1 then { e with px := e.cx0.toNat, py := e.py + 1 } else { e with px := e.px + 1 }

/-- One pixel in write mode (R85); what a pixel beyond the window's end does is unspecified. -/
def Env.pixel (e : Env cfg) (c : U16) (e' : Env cfg) : Prop :=
  if e.py1.toNat < e.py then True else e' = (e.store c).moveOn

/-- Data bytes in write mode, two to a pixel, most significant first (R85). -/
def Env.consume : List Byte → Env cfg → Env cfg → Prop
  | [], e, e' => e' = e
  | b :: rest, e, e' =>
    match e.pending with
    | .none => Env.consume rest { e with pending := some b } e'
    | some hi => ∃ m, Env.pixel { e with pending := .none } (hi ++ b) m ∧ Env.consume rest m e'

/-- After the data of an event (R85; 93_implementation_defined.md U4, U16): what a trailing odd byte does is unspecified,
and so are the pixels of the window for which nothing has been sent. -/
def Env.settle (e e' : Env cfg) : Prop :=
  e.pending = .none →
    (∃ g, e' = { e with gram := g }) ∧ ∀ x y, ¬ e.unsent x.val y.val → e'.gram x y = e.gram x y

/-- The data of a whole event in write mode (R85). -/
def Env.stream (data : List Byte) (e e' : Env cfg) : Prop :=
  ∃ m, Env.consume data e m ∧ m.settle e'

/-- A successful write with a command byte (R83, R84). Any command but RAM-write leaves write mode. -/
def Env.command (c : Byte) (data : List Byte) (e e' : Env cfg) : Prop :=
  if some c = cfg.cmdRamWrite then
    Env.stream data { e with mode := .write, px := e.cx0.toNat, py := e.py0.toNat, pending := .none } e'
  else if some c = cfg.cmdColumnSet then
    match data with
    | [a1, a0, b1, b0] => e' = { e with cx0 := a1 ++ a0, cx1 := b1 ++ b0, mode := .none }
    | _ => e'.mode ≠ .write
  else if some c = cfg.cmdPageSet then
    match data with
    | [a1, a0, b1, b0] => e' = { e with py0 := a1 ++ a0, py1 := b1 ++ b0, mode := .none }
    | _ => e'.mode ≠ .write
  else e'.mode ≠ .write

/-- A failed event carried pixel data (R87, U1). -/
def Env.carriedPixels (e : Env cfg) (ev : BusEvent) : Prop :=
  match ev with
  | .write (some c) data => data ≠ [] ∧ some c = cfg.cmdRamWrite
  | .write .none data => data ≠ [] ∧ e.mode = .write
  | _ => False

/-- A failed event (R87): window, mode and cursor become unspecified, and so do the pixels of the current window if the
event carried pixel data; every other pixel keeps its value. -/
def Env.failed (ev : BusEvent) (e e' : Env cfg) : Prop :=
  ∀ x y, ¬(e.carriedPixels ev ∧ e.inWindow x.val y.val) → e'.gram x y = e.gram x y

/-- One entry of the trace (R83 to R87). R82 leaves window, mode, cursor and canvas unspecified after start-up: a claim
about an operation starts from any `Env`. DESIGN CHOICE (log 19): R83 and R84 are applied to every successful write, a write
of `INIT_SEQ` included, should the entries of start-up be followed; `RST` and `WAIT` constrain nothing. -/
def Env.event (entry : TraceEntry) (e e' : Env cfg) : Prop :=
  match entry.answer, entry.event with
  | .fail, ev => Env.failed ev e e'
  | .ok _, .write (some c) data => Env.command c data e e'
  | .ok _, .write .none data => if e.mode = .write then Env.stream data e e' else True
  | .ok _, .read (some c) _ => if some c = cfg.cmdRamRead then e' = { e with mode := .read } else e'.mode ≠ .write
  | .ok _, .read .none _ => True
  | .ok _, .rst _ => True
  | .ok _, .wait _ => True

/-- The controller after a list of trace entries. -/
def Env.follows : List TraceEntry → Env cfg → Env cfg → Prop
  | [], e, e' => e' = e
  | entry :: rest, e, e' => ∃ m, Env.event entry e m ∧ Env.follows rest m e'

/-- `ENV_READBACK` (R86), an optional assumption: the samples of a one-pixel window inside the canvas pack to the stored
pixel. -/
def Env.readback (e : Env cfg) (bytes : List Byte) : Prop :=
  e.cx0 = e.cx1 → e.py0 = e.py1 →
    ∀ (x : Fin cfg.width) (y : Fin cfg.height), x.val = e.cx0.toNat → y.val = e.py0.toNat →
      match bytes with
      | [r, g, b] => packColor r g b = e.gram x y
      | _ => False

end Machine

end Sys2Proof
end

