-- ==== Sys2Proof/Safety.lean ====
section
/-! DEFINITION. What a legal state and a legal run are, in the terms the statements use. -/

namespace Sys2Proof

/-- The three identifiers of a window write are set (41_window_accessor.md R151). -/
def Config.writeIds (cfg : Config) (cs ps rw : Byte) : Prop :=
  cfg.cmdColumnSet = some cs ∧ cfg.cmdPageSet = some ps ∧ cfg.cmdRamWrite = some rw

/-- The three identifiers of a window read are set (41_window_accessor.md R151). -/
def Config.readIds (cfg : Config) (cs ps rd : Byte) : Prop :=
  cfg.cmdColumnSet = some cs ∧ cfg.cmdPageSet = some ps ∧ cfg.cmdRamRead = some rd

namespace Machine

/-- `STATUS` agrees with the phase as the table of 10_state.md R35 says. -/
def State.statusAgrees (s : State) : Bool :=
  match s.phase with
  | .startup _ => s.status.busy && !s.status.ready && !s.status.dead
  | .idle => !s.status.busy && s.status.ready && !s.status.dead
  | .runEntry => s.status.busy && (s.status.ready != s.status.dead)
  | .runEvents _ _ _ => s.status.busy && (s.status.ready != s.status.dead)
  | .idleDead => !s.status.busy && !s.status.ready && s.status.dead

/-- The events still to perform. -/
def Phase.todo : Phase → List BusEvent
  | .startup todo => todo
  | .idle => []
  | .runEntry => []
  | .runEvents todo _ _ => todo
  | .idleDead => []

/-- An operation that will decode a pixel ends with, or has just had, a read of three bytes (40_pixel_codec.md R133). -/
def Phase.decodesThree : Phase → Bool
  | .runEvents todo .decodeResult received =>
    match todo.getLast? with
    | none => received.length == 3
    | some (.read _ n) => n == 3
    | some _ => false
  | _ => true

/-- The invariant every step keeps: the configuration is well formed (00_scope.md R8), host memory is in canonical form,
`STATUS` agrees with the phase (10_state.md R28, R35), the reserved bits of `FAULT_LOG` are 0 (10_state.md R30), and no
event performed or to come is one that 20_memory.md R63, R65, R66 exclude. -/
structure State.Inv (s : State) : Prop where
  cfg_wf : s.cfg.wf = true
  mem_wf : s.mem.wf = true
  status_agrees : s.statusAgrees = true
  fault_reserved : s.faultLog &&& ~~~faultBits = 0#32
  trace_proper : ∀ entry ∈ s.trace, entry.event.proper = true
  todo_proper : ∀ e ∈ s.phase.todo, e.proper = true
  decodes_three : s.phase.decodesThree = true

/-- The next step takes hardware reset. -/
def State.resetsNext (s : State) : Bool :=
  match s.codec.request, s.inputs with
  | none, .hardReset :: _ => true
  | _, _ => false

/-- The block carries out the latched operation in the next step: no codec function is presented, and the host is not
acting (it has no further input, or polls `STATUS`). -/
def State.runsNext (s : State) : Prop :=
  s.cfg.wf = true ∧ s.codec.request = none ∧ s.phase = .runEntry ∧
    (s.inputs = [] ∨ (s.status.busy = true ∧ ∃ rest, s.inputs = .await :: rest))

/-- The block makes its next move in the next step, and `after` is what the host still has to do then: the host has no
further input or polls `STATUS`, or it gives the block one turn. -/
def State.blockMoves (s : State) (after : List Input) : Prop :=
  s.cfg.wf = true ∧ s.codec.request = none ∧
    ((s.inputs = after ∧ (after = [] ∨ (s.status.busy = true ∧ ∃ rest, after = .await :: rest))) ∨
      s.inputs = .turn :: after)

/-- The trace entries of events that all returned `ok` with no bytes. -/
def okEntries (es : List BusEvent) : List TraceEntry :=
  es.map (fun e => { event := e, answer := .ok [] })

/-- The answers of a transport to `n` events that all return `ok` with no bytes. -/
def okAnswers (n : Nat) : List Answer := List.replicate n (.ok [])

/-- What an operation leaves alone: the configuration, the registers the host writes, the latch, host memory, the inputs,
what the host has read, the codec port. -/
structure State.sameButBlock (s t : State) : Prop where
  cfg : t.cfg = s.cfg
  regs : t.regs = s.regs
  latch : t.latch = s.latch
  mem : t.mem = s.mem
  inputs : t.inputs = s.inputs
  hostReads : t.hostReads = s.hostReads
  codec : t.codec = s.codec

/-- From `s` to `t` an operation completed with code `c` (60_exceptions.md R220, 10_state.md R35): `BUSY` is 0, `CODE` is
`c`, `FAULT_LOG` has bit `c` set in addition if `c` is not `OK`, `READY` and `DEAD` are as before. -/
structure State.Completed (s t : State) (c : Code) : Prop where
  busy : t.status.busy = false
  ready : t.status.ready = s.status.ready
  dead : t.status.dead = s.status.dead
  code : t.status.code = c
  faultLog : t.faultLog = if c = .ok then s.faultLog else s.faultLog ||| 1#32 <<< c.number
  phase : t.phase = if s.status.dead then .idleDead else .idle

/-- An operation stopped with code `c` and no effect besides (60_exceptions.md R221): no event was performed, no answer of
the transport used, `RESULT` is unchanged. -/
structure State.StoppedWith (s t : State) (c : Code) : Prop where
  completed : s.Completed t c
  same : s.sameButBlock t
  trace : t.trace = s.trace
  result : t.result = s.result
  answers : t.answers = s.answers
  draws : t.draws = s.draws

/-- An operation performed the events `es`, each of which returned `ok`, and completed `OK`, using up one answer of the
transport an event and leaving `rest`; `RESULT` is unchanged. -/
structure State.StreamedOk (s t : State) (es : List BusEvent) (rest : List Answer) : Prop where
  completed : s.Completed t .ok
  same : s.sameButBlock t
  trace : t.trace = s.trace ++ okEntries es
  result : t.result = s.result
  answers : t.answers = rest
  draws : t.draws = s.draws

/-- `s` after an operation that completed with code `c`, performed the events `new`, wrote `value` to `RESULT` if it has
one, and left these answers and this count of the transport's free answers (60_exceptions.md R220). -/
def State.afterOperation (s : State) (c : Code) (new : List TraceEntry) (value : Option U16) (answers : List Answer)
    (draws : Nat) : State :=
  { s with
    status := { s.status with busy := false, code := c }
    faultLog := if c = .ok then s.faultLog else s.faultLog ||| 1#32 <<< c.number
    phase := if s.status.dead then .idleDead else .idle
    trace := s.trace ++ new
    result := value.getD s.result
    answers := answers
    draws := draws }

/-- A number of 16 bits as two bytes, most significant first (20_memory.md R70), written with division, not with the
model's codec. -/
def bigEndian (v : Int) : List Byte := [BitVec.ofInt 8 (v / 256), BitVec.ofInt 8 (v % 256)]

/-- The two bytes of a colour on the wire (30_encoding.md R107). -/
def pixelBytes (c : U16) : List Byte := bigEndian c.toNat

/-- CASET, PASET and RAMWR for the rectangle from column `x0` to `x1` and row `y0` to `y1` (41_window_accessor.md R152,
R153). -/
def windowTrace (cs ps rw : Byte) (x0 x1 y0 y1 : Int) (payload : List Byte) : List BusEvent :=
  [.write (some cs) (bigEndian x0 ++ bigEndian x1), .write (some ps) (bigEndian y0 ++ bigEndian y1),
   .write (some rw) payload]

/-- The events of a fill of the `cw` by `ch` pixels from `(cx, cy)` (42_display_ops.md R175): the window, the full chunks,
and the rest where there is one. -/
def fillTrace (cs ps rw : Byte) (chunk : Nat) (cx cy cw ch : Int) (color : U16) : List BusEvent :=
  windowTrace cs ps rw cx (cx + cw - 1) cy (cy + ch - 1) []
    ++ List.replicate ((cw * ch).toNat / chunk) (.write none (rep (pixelBytes color) chunk))
    ++ (if (cw * ch).toNat % chunk = 0 then []
        else [.write none (rep (pixelBytes color) ((cw * ch).toNat % chunk))])

/-- The host's next action is `i`, nothing stands on the codec port, and the configuration is well formed. -/
def State.nextInput (s : State) (i : Input) (rest : List Input) : Prop :=
  s.cfg.wf = true ∧ s.codec.request = none ∧ s.inputs = i :: rest

/-- The host state after it has made the register writes of a line (30_encoding.md R111), up to and with the doorbell. -/
def State.afterLine (s : State) (i : Instr) (op : Word) : State :=
  ((operandWrites i).foldl (fun u w => u.writeReg w.1 w.2) s).doorbell op

/-- The reads a line ends with (30_encoding.md R111). -/
def lineReads (i : Instr) (t : State) : List HostRead :=
  { offset := 0x24, value := t.readReg 0x24 } ::
    (if readsResult i then [{ offset := 0x28, value := t.readReg 0x28 }] else [])

end Machine

end Sys2Proof
end

