-- ==== Sys2Proof/Certificates/Slice0/Obligations.lean ====
section
/-! DEFINITION. The statements for the provers. Each docstring names the rules of spec/ it formalises. -/

open Sys2Proof Sys2Proof.Machine

/-! ## Reset, start-up, configuration -/

/-- 10_state.md R41: the registers, the phase and the trace after hardware reset, for every configuration. The latch,
which R41 leaves unspecified, is not mentioned. -/
def Obligations.PowerOnGivesTheStatedResetValues : Prop :=
  ∀ cfg : Config, let s := State.powerOn cfg
    (∀ offset ∈ [0x00, 0x04, 0x08, 0x0C, 0x10, 0x14, 0x18, 0x1C, 0x20, 0x28, 0x2C], s.readReg offset = 0#32) ∧
    s.readReg 0x24 = 0x00000001#32 ∧
    s.status = { busy := true, ready := false, dead := false, code := .ok } ∧
    s.readReg 0x30 = BitVec.ofNat 32 cfg.width ∧ s.readReg 0x34 = BitVec.ofNat 32 cfg.height ∧
    s.phase = .startup (startupEvents cfg) ∧ s.trace = [] ∧ s.cfg = cfg

/-- 70_reset_and_hazards.md R250: hardware reset from any state, an operation in progress included. Host memory and the
model's own lists are not the block's (log 14). -/
def Obligations.HardResetRestoresResetValues : Prop :=
  ∀ (s : State) (rest : List Input), s.nextInput .hardReset rest →
    ∃ t, step s = .next t ∧ t.cfg = s.cfg ∧ t.trace = [] ∧ t.phase = .startup (startupEvents s.cfg) ∧
      t.status = { busy := true, ready := false, dead := false, code := .ok } ∧
      (∀ offset ∈ [0x00, 0x04, 0x08, 0x0C, 0x10, 0x14, 0x18, 0x1C, 0x20, 0x28, 0x2C], t.readReg offset = 0#32) ∧
      t.readReg 0x30 = s.readReg 0x30 ∧ t.readReg 0x34 = s.readReg 0x34 ∧
      t.mem = s.mem ∧ t.inputs = rest ∧ t.answers = s.answers ∧ t.hostReads = s.hostReads

/-- The invariant holds right after reset, in every well-formed configuration. -/
def Obligations.ResetSatisfiesTheStateInvariant : Prop :=
  State.reset.Inv ∧ ∀ cfg : Config, cfg.wf = true → (State.powerOn cfg).Inv

/-- Every step keeps the invariant: 00_scope.md R8, 10_state.md R28, R30, R35, 20_memory.md R63, R65, R66. -/
def Obligations.StepKeepsTheStateInvariant : Prop :=
  ∀ s t : State, s.Inv → step s = .next t → t.Inv

/-- 10_state.md R20: no step changes the configuration, hardware reset included. -/
def Obligations.ConfigurationNeverChanges : Prop :=
  ∀ s t : State, step s = .next t → t.cfg = s.cfg

/-- 00_scope.md R7, R8: which configurations are well formed, and that no other gives the machine any behaviour: `step`
refuses it (the model's choice of place, log 15). -/
def Obligations.OnlyWellFormedConfigurationsRun : Prop :=
  (∀ c : Config, c.wf = true ↔
    (1 ≤ c.width ∧ c.width ≤ 65536) ∧ (1 ≤ c.height ∧ c.height ≤ 65536) ∧ 1 ≤ c.chunkPixels ∧
      c.pixelWrBytes = 2 ∧ c.posBytes = 4 ∧ c.pixelRdBytes = 3 ∧ c.argBits = 32 ∧ c.addrBits = 32) ∧
  (∀ s : State, s.cfg.wf = false → step s = .refused .illFormedConfig)

/-- 70_reset_and_hazards.md R251, R252, R253: the events of start-up, in order; an entry of `INIT_SEQ` without command
and data leaves none. -/
def Obligations.StartupPerformsPulseThenInitSequence : Prop :=
  ∀ cfg : Config,
    startupEvents cfg =
      (if cfg.hasReset then
        [.rst .deassert, .wait cfg.tRst, .rst .assert, .wait cfg.tRst] else []) ++
      (cfg.initSeq.map (fun entry => BusEvent.write entry.1 (entry.2.getD []))).filter
        (fun e => e != .write none [])

/-- 70_reset_and_hazards.md R254: when every event of start-up returns `ok` the block is ready, having performed exactly
those events. The steps are one for each event and one for the completion (log 6). -/
def Obligations.StartupWithoutFailureMakesTheBlockReady : Prop :=
  ∀ (cfg : Config) (rest : List Answer), cfg.wf = true →
    let es := startupEvents cfg
    let s := { State.powerOn cfg with answers := okAnswers (es.filter BusEvent.drawsAnswer).length ++ rest }
    ∃ t, Host.Core.run Sys2Proof.core (es.length + 1) s = .next t ∧
      t.status = { busy := false, ready := true, dead := false, code := .ok } ∧ t.phase = .idle ∧
      t.trace = okEntries es ∧ t.answers = rest ∧ t.faultLog = 0#32 ∧ t.regs = s.regs ∧ t.result = s.result ∧
      t.mem = s.mem

/-- 70_reset_and_hazards.md R255: an event of start-up that fails leaves the block dead, at once; the event is the last
of the trace. The block may move alone, while the host polls, or by a turn. -/
def Obligations.StartupFailureMakesTheBlockDead : Prop :=
  ∀ (s : State) (e : BusEvent) (todo : List BusEvent) (rest : List Answer) (after : List Input),
    s.blockMoves after → s.phase = .startup (e :: todo) →
    e.drawsAnswer = true → s.answers = .fail :: rest →
    ∃ t, step s = .next t ∧
      t.status = { busy := false, ready := s.status.ready, dead := true, code := .transportError } ∧
      t.faultLog = s.faultLog ||| 0x00000004#32 ∧ t.phase = .idleDead ∧
      t.trace = s.trace ++ [{ event := e, answer := .fail }] ∧ t.answers = rest ∧ t.draws = s.draws ∧
      t.result = s.result ∧ ({ s with inputs := after } : State).sameButBlock t

/-! ## Registers and the doorbell -/

/-- 10_state.md R28 to R32, 60_exceptions.md R210: what the read-only registers and the reserved offsets read as, field by
field, and the numbers of the completion codes. -/
def Obligations.ReadOnlyRegistersShowTheirFields : Prop :=
  ∀ s : State,
    (s.readReg 0x24).getLsbD 0 = s.status.busy ∧ (s.readReg 0x24).getLsbD 1 = s.status.ready ∧
    (s.readReg 0x24).getLsbD 2 = s.status.dead ∧ (s.readReg 0x24).getLsbD 3 = false ∧
    ((s.readReg 0x24).extractLsb' 4 4).toNat = s.status.code.number ∧ (s.readReg 0x24).extractLsb' 8 24 = 0#24 ∧
    [Code.ok, .outOfBounds, .transportError, .configError, .encodeRange, .illegalOp, .notReady].map Code.number =
      [0, 1, 2, 3, 4, 5, 6] ∧
    (s.readReg 0x28).extractLsb' 0 16 = s.result ∧ (s.readReg 0x28).extractLsb' 16 16 = 0#16 ∧
    s.readReg 0x2C = s.faultLog ∧
    (s.Inv → (s.readReg 0x2C).getLsbD 0 = false ∧ (s.readReg 0x2C).getLsbD 7 = false ∧
      (s.readReg 0x2C).extractLsb' 9 23 = 0#23) ∧
    (s.cfg.wf = true → (s.readReg 0x30).toNat = s.cfg.width ∧ (s.readReg 0x34).toNat = s.cfg.height) ∧
    s.readReg 0x38 = 0#32 ∧ s.readReg 0x3C = 0#32

/-- 10_state.md R22, R24 to R27, R34: a write of an operand register stores its implemented bits, at any time, `BUSY` or
not, and changes nothing else: no other register, no latched operand, no event. -/
def Obligations.OperandRegisterWriteStoresImplementedBits : Prop :=
  ∀ (s : State) (offset : Nat) (mask v : Word) (rest : List Input),
    (offset, mask) ∈ [(0x04, 0xFFFFFFFF#32), (0x08, 0xFFFFFFFF#32), (0x0C, 0xFFFFFFFF#32), (0x10, 0xFFFFFFFF#32),
      (0x14, 0x0000FFFF#32), (0x18, 0x00FFFFFF#32), (0x1C, 0xFFFFFFFF#32), (0x20, 0xFFFFFFFF#32)] →
    s.nextInput (.write offset 4 v) rest →
    ∃ t, step s = .next t ∧ t.readReg offset = v &&& mask ∧
      (∀ other, other ≠ offset → t.readReg other = s.readReg other) ∧
      t = { s with regs := t.regs, inputs := rest }

/-- 10_state.md R28 to R32: the read-only registers and the reserved offsets ignore writes. -/
def Obligations.ReadOnlyAndReservedOffsetsIgnoreWrites : Prop :=
  ∀ (s : State) (offset : Nat) (v : Word) (rest : List Input),
    offset ∈ [0x24, 0x28, 0x2C, 0x30, 0x34, 0x38, 0x3C] → s.nextInput (.write offset 4 v) rest →
    step s = .next { s with inputs := rest }

/-- 10_state.md R33, 20_memory.md R74: a read of any register returns its value and has no side effect. -/
def Obligations.RegisterReadsHaveNoSideEffect : Prop :=
  ∀ (s : State) (offset : Nat) (rest : List Input),
    offset % 4 = 0 → offset < 64 → s.nextInput (.read offset 4) rest →
    step s = .next { s with
      inputs := rest, hostReads := s.hostReads ++ [{ offset := offset, value := s.readReg offset }] }

/-- 10_state.md R32, R33: accesses that are narrow, misaligned or beyond the register space are refused. -/
def Obligations.OtherRegisterAccessesAreRefused : Prop :=
  ∀ (s : State) (offset size : Nat) (v : Word) (rest : List Input),
    (s.nextInput (.write offset size v) rest ∨ s.nextInput (.read offset size) rest) →
    ((size ≠ 4 ∨ offset % 4 ≠ 0) → step s = .refused .narrowOrMisaligned) ∧
    (size = 4 → offset % 4 = 0 → 64 ≤ offset → step s = .refused .beyondRegisterSpace)

/-- 10_state.md R23, R34: a `CMD` write to a block that is not busy is stored whole, latches the nine values, sets `BUSY`
and starts the operation, as one step. -/
def Obligations.DoorbellLatchesAndStarts : Prop :=
  ∀ (s : State) (v : Word) (rest : List Input),
    s.nextInput (.write 0x00 4 v) rest → s.status.busy = false →
    ∃ t, step s = .next t ∧ t.readReg 0x00 = v ∧ (∀ other, other ≠ 0x00 → other ≠ 0x24 → t.readReg other = s.readReg other) ∧
      t.latch.cmd = v ∧ t.latch.x = s.regs.x ∧ t.latch.y = s.regs.y ∧ t.latch.w = s.regs.w ∧ t.latch.h = s.regs.h ∧
      t.latch.color = s.regs.color ∧ t.latch.rgb = s.regs.rgb ∧ t.latch.addr = s.regs.addr ∧
      t.latch.len = s.regs.len ∧
      t.status = { busy := true, ready := s.status.ready, dead := s.status.dead, code := s.status.code } ∧
      t.phase = .runEntry ∧ t.trace = s.trace ∧ t.result = s.result ∧ t.faultLog = s.faultLog ∧ t.mem = s.mem ∧
      t.inputs = rest

/-- 10_state.md R23, 60_exceptions.md R224: a `CMD` write to a busy block is dropped and sets `FAULT_LOG[8]`; nothing of
the running activity changes. -/
def Obligations.DoorbellWhileBusyIsDroppedAndLogged : Prop :=
  ∀ (s : State) (v : Word) (rest : List Input),
    s.nextInput (.write 0x00 4 v) rest → s.status.busy = true →
    step s = .next { s with inputs := rest, faultLog := s.faultLog ||| 0x00000100#32 }

/-- 10_state.md R35: an idle block that nobody addresses stays as it is. -/
def Obligations.IdleBlockWaitsForADoorbell : Prop :=
  ∀ s : State, s.cfg.wf = true → s.codec.request = none → s.inputs = [] →
    (s.phase = .idle ∨ s.phase = .idleDead) → step s = .next s

/-- 10_state.md R28, R29, R30, R37: what no step but hardware reset undoes (`READY`, `DEAD`, the bits of `FAULT_LOG`),
that the bits of `FAULT_LOG` that stand for nothing never change, and that `CODE` and `RESULT` change only when `BUSY` goes
from 1 to 0. -/
def Obligations.StatusIsStickyAndCodeChangesAtCompletion : Prop :=
  ∀ s t : State, s.Inv → step s = .next t → s.resetsNext = false →
    s.faultLog &&& t.faultLog = s.faultLog ∧ t.faultLog &&& ~~~0x17E#32 = s.faultLog &&& ~~~0x17E#32 ∧
    (s.status.ready = true → t.status.ready = true) ∧ (s.status.dead = true → t.status.dead = true) ∧
    (t.status.code ≠ s.status.code → s.status.busy = true ∧ t.status.busy = false) ∧
    (t.result ≠ s.result → s.status.busy = true ∧ t.status.busy = false ∧ t.status.code = .ok)

/-! ## Completion, priority, errors -/

/-- 60_exceptions.md R220: completion as one step, before which `RESULT` of a `PIXEL_GET` or `COLOR565` is written (in the
model's same step, log 6). -/
def Obligations.CompletionWritesCodeLogAndBusy : Prop :=
  ∀ (s : State) (c : Code),
    s.Completed (s.complete c) c ∧ s.sameButBlock (s.complete c) ∧ (s.complete c).trace = s.trace ∧
    (s.complete c).result = s.result ∧ (s.complete c).answers = s.answers ∧ (s.complete c).draws = s.draws ∧
    ∀ r g b : Byte,
      s.finish .decodeResult [r, g, b] = { s with result := packColor r g b }.complete .ok ∧
      exec (.color565 r g b) s = .next ({ s with result := packColor r g b }.complete .ok)

/-- 42_display_ops.md R170, R181: every operation completes, whatever the transport answers, and what it leaves alone.
The one exception is a `BLIT` that would read the block's own registers (20_memory.md R75). -/
def Obligations.EveryOperationCompletes : Prop :=
  ∀ (i : Instr) (s : State), i.isOperation = true →
    (∀ addr len x y w h, i = .blit addr len x y w h → overlapsRegisters s.cfg addr len = false) →
    ∃ t, exec i s = .next t ∧ (∃ c, s.Completed t c) ∧ s.sameButBlock t ∧
      (∃ new, t.trace = s.trace ++ new) ∧ ∃ used, s.answers = used ++ t.answers

/-- 60_exceptions.md R216, R219: a dead block answers `NOT_READY` to every operation but `COLOR565`, whatever the
operands, with no effect besides; but for a `BLIT` whose buffer overlaps the register space, which is refused
(20_memory.md R75). -/
def Obligations.DeadBlockAnswersNotReady : Prop :=
  ∀ (i : Instr) (s : State), i.isOperation = true → (∀ r g b, i ≠ .color565 r g b) → s.status.dead = true →
    (∀ addr len x y w h, i = .blit addr len x y w h → overlapsRegisters s.cfg addr len = false) →
    ∃ t, exec i s = .next t ∧ s.StoppedWith t .notReady

/-- 30_encoding.md R105, 60_exceptions.md R215, R219: an illegal command word completes `ILLEGAL_OP` with no effect
besides, in a dead block too, whether the block carries it out alone, while the host polls, or by a turn. -/
def Obligations.IllegalCommandWordCompletesIllegalOp : Prop :=
  ∀ (s : State) (after : List Input), s.blockMoves after → s.phase = .runEntry →
    (s.latch.cmd.extractLsb' 8 24 ≠ 0#24 ∨ (s.latch.cmd.extractLsb' 0 8).toNat = 0 ∨
      9 ≤ (s.latch.cmd.extractLsb' 0 8).toNat) →
    ∃ t, step s = .next t ∧ ({ s with inputs := after } : State).StoppedWith t .illegalOp

/-- 41_window_accessor.md R151, 60_exceptions.md R213, R219: an operation that reaches the accessor with an identifier it
needs unset completes `CONFIG_ERROR` with no effect besides. A `BLIT` over the register space does not reach it
(20_memory.md R75). -/
def Obligations.UnsetIdentifierCompletesConfigError : Prop :=
  ∀ (s : State), s.status.dead = false →
    ((s.cfg.cmdColumnSet = none ∨ s.cfg.cmdPageSet = none ∨ s.cfg.cmdRamWrite = none) →
      (∀ x y w h color, ∃ t, exec (.fillRect x y w h color) s = .next t ∧ s.StoppedWith t .configError) ∧
      (∀ color, ∃ t, exec (.fill color) s = .next t ∧ s.StoppedWith t .configError) ∧
      (∀ x y w color, ∃ t, exec (.hline x y w color) s = .next t ∧ s.StoppedWith t .configError) ∧
      (∀ x y h color, ∃ t, exec (.vline x y h color) s = .next t ∧ s.StoppedWith t .configError) ∧
      (∀ x y color, onCanvas s.cfg x y →
        ∃ t, exec (.pixelSet x y color) s = .next t ∧ s.StoppedWith t .configError) ∧
      (∀ addr len x y w h, overlapsRegisters s.cfg addr len = false → bufferInSpace addr len →
        blitFits s.cfg x y w h →
        ∃ t, exec (.blit addr len x y w h) s = .next t ∧ s.StoppedWith t .configError)) ∧
    ((s.cfg.cmdColumnSet = none ∨ s.cfg.cmdPageSet = none ∨ s.cfg.cmdRamRead = none) →
      ∀ x y, FitsU16 x → FitsU16 y → ∃ t, exec (.pixelGet x y) s = .next t ∧ s.StoppedWith t .configError)

/-- 60_exceptions.md R212, 41_window_accessor.md R155: an operation that only writes stops at the first event that fails;
that event is the last it performs, and nothing after it is sent. -/
def Obligations.FirstFailedWriteStopsTheOperation : Prop :=
  ∀ (i : Instr) (s : State) (before after : List BusEvent) (e : BusEvent) (rest : List Answer),
    launchOf i s = .events (before ++ e :: after) .nothing → s.answers = okAnswers before.length ++ .fail :: rest →
    ∃ t, exec i s = .next t ∧ s.Completed t .transportError ∧ s.sameButBlock t ∧
      t.trace = s.trace ++ okEntries before ++ [{ event := e, answer := .fail }] ∧
      t.result = s.result ∧ t.answers = rest ∧ t.draws = s.draws

/-- 60_exceptions.md R221: a completion with any code but `OK` and `TRANSPORT_ERROR` is precise. -/
def Obligations.FailuresBeforeTheFirstEventArePrecise : Prop :=
  ∀ (i : Instr) (s t : State), i.isOperation = true → exec i s = .next t →
    t.status.code ≠ .ok → t.status.code ≠ .transportError → s.StoppedWith t t.status.code

/-- 60_exceptions.md R211, R214, R215, R217: which operations can complete with which of the codes of the argument checks:
fills, lines and pixel writes with none of them. -/
def Obligations.ArgumentErrorsComeOnlyFromTheirOperations : Prop :=
  ∀ (i : Instr) (s t : State), i.isOperation = true → exec i s = .next t →
    (t.status.code = .outOfBounds → ∃ addr len x y w h, i = .blit addr len x y w h) ∧
    (t.status.code = .illegalOp → ∃ addr len x y w h, i = .blit addr len x y w h) ∧
    (t.status.code = .encodeRange → ∃ x y, i = .pixelGet x y)

/-! ## Events of the operations -/

/-- 41_window_accessor.md R152, R158, 60_exceptions.md R222: an operation that performs any event starts with CASET and,
unless that failed, goes on with PASET. -/
def Obligations.EveryOperationProgramsAFreshWindowFirst : Prop :=
  ∀ (i : Instr) (s t : State) (first : TraceEntry) (more : List TraceEntry), i.isOperation = true →
    exec i s = .next t → t.trace = s.trace ++ first :: more →
    ∃ cs ps, s.cfg.cmdColumnSet = some cs ∧ s.cfg.cmdPageSet = some ps ∧
      (∃ data, first.event = .write (some cs) data ∧ data.length = 4) ∧
      ((first.answer = .fail ∧ more = []) ∨
        ∃ second others data, more = second :: others ∧ second.event = .write (some ps) data ∧ data.length = 4)

/-- 30_encoding.md R110: every event of an operation is a CASET, PASET, RAMWR, RAMRD of one pixel, or DATA of at least one
pixel and at most a chunk. -/
def Obligations.EventsAreOfTheFiveTransactionKinds : Prop :=
  ∀ (i : Instr) (s t : State) (new : List TraceEntry), s.cfg.wf = true → i.isOperation = true →
    exec i s = .next t → t.trace = s.trace ++ new →
    ∀ entry ∈ new,
      (∃ c data, s.cfg.cmdColumnSet = some c ∧ entry.event = .write (some c) data ∧ data.length = 4) ∨
      (∃ c data, s.cfg.cmdPageSet = some c ∧ entry.event = .write (some c) data ∧ data.length = 4) ∨
      (∃ c data, s.cfg.cmdRamWrite = some c ∧ entry.event = .write (some c) data) ∨
      (∃ c, s.cfg.cmdRamRead = some c ∧ entry.event = .read (some c) 3) ∨
      (∃ color k, 1 ≤ k ∧ k ≤ s.cfg.chunkPixels ∧ entry.event = .write none (rep (pixelBytes color) k))

/-- 42_display_ops.md R172: a pixel is read back through a one-pixel window and decoded into `RESULT`, on any canvas. -/
def Obligations.PixelGetReturnsTheDecodedSamples : Prop :=
  ∀ (s : State) (x y : Int) (cs ps rd r g b : Byte) (rest : List Answer),
    s.status.dead = false → s.cfg.readIds cs ps rd → FitsU16 x → FitsU16 y →
    s.answers = .ok [] :: .ok [] :: .ok [r, g, b] :: rest →
    ∃ t, exec (.pixelGet x y) s = .next t ∧ s.Completed t .ok ∧ s.sameButBlock t ∧
      t.result = packColor r g b ∧ t.answers = rest ∧ t.draws = s.draws ∧
      t.trace = s.trace ++
        [{ event := .write (some cs) (bigEndian x ++ bigEndian x), answer := .ok [] },
         { event := .write (some ps) (bigEndian y ++ bigEndian y), answer := .ok [] },
         { event := .read (some rd) 3, answer := .ok [r, g, b] }]

/-- 42_display_ops.md R172, 60_exceptions.md R214: a coordinate that is no `u16` is `ENCODE_RANGE`, with no event. -/
def Obligations.PixelGetOutOfRangeIsEncodeRange : Prop :=
  ∀ (s : State) (x y : Int), s.status.dead = false →
    (x < 0 ∨ 65535 < x ∨ y < 0 ∨ 65535 < y) →
    ∃ t, exec (.pixelGet x y) s = .next t ∧ s.StoppedWith t .encodeRange

/-- 20_memory.md R67, 42_display_ops.md R172, 60_exceptions.md R212: a `PIXEL_GET` whose window cannot be programmed, or
whose read fails or returns other than three bytes, completes `TRANSPORT_ERROR` and leaves `RESULT`. -/
def Obligations.PixelGetFailureLeavesResult : Prop :=
  ∀ (s : State) (x y : Int) (cs ps rd : Byte) (rest : List Answer),
    s.status.dead = false → s.cfg.readIds cs ps rd → FitsU16 x → FitsU16 y →
    let caset := BusEvent.write (some cs) (bigEndian x ++ bigEndian x)
    let paset := BusEvent.write (some ps) (bigEndian y ++ bigEndian y)
    let ramrd := BusEvent.read (some rd) 3
    ∀ new : List TraceEntry,
      ((s.answers = .fail :: rest ∧ new = [{ event := caset, answer := .fail }]) ∨
       (s.answers = .ok [] :: .fail :: rest ∧
          new = [{ event := caset, answer := .ok [] }, { event := paset, answer := .fail }]) ∨
       ((s.answers = .ok [] :: .ok [] :: .fail :: rest ∨
          ∃ bytes, bytes.length ≠ 3 ∧ s.answers = .ok [] :: .ok [] :: .ok bytes :: rest) ∧
          new = [{ event := caset, answer := .ok [] }, { event := paset, answer := .ok [] },
            { event := ramrd, answer := .fail }])) →
      ∃ t, exec (.pixelGet x y) s = .next t ∧ s.Completed t .transportError ∧ s.sameButBlock t ∧
        t.result = s.result ∧ t.answers = rest ∧ t.draws = s.draws ∧ t.trace = s.trace ++ new

/-- 42_display_ops.md R173: a pixel on the canvas is written with three transactions. -/
def Obligations.PixelSetWritesOnePixel : Prop :=
  ∀ (s : State) (x y : Int) (color : U16) (cs ps rw : Byte) (rest : List Answer),
    s.cfg.wf = true → s.status.dead = false → s.cfg.writeIds cs ps rw →
    0 ≤ x → x < s.cfg.width → 0 ≤ y → y < s.cfg.height → s.answers = okAnswers 3 ++ rest →
    ∃ t, exec (.pixelSet x y color) s = .next t ∧
      s.StreamedOk t (windowTrace cs ps rw x x y y (pixelBytes color)) rest

/-- 42_display_ops.md R173: off the canvas `PIXEL_SET` completes `OK` with no event, also with identifiers unset. -/
def Obligations.PixelSetOffCanvasDoesNothing : Prop :=
  ∀ (s : State) (x y : Int) (color : U16), s.status.dead = false →
    (x < 0 ∨ (s.cfg.width : Int) ≤ x ∨ y < 0 ∨ (s.cfg.height : Int) ≤ y) →
    ∃ t, exec (.pixelSet x y color) s = .next t ∧ s.StoppedWith t .ok

/-- 42_display_ops.md R174: the clamped rectangle of any request lies inside the canvas and has at least one pixel; the
size is clamped against the clamped origin, each dimension by itself. -/
def Obligations.FillClampsOntoTheCanvas : Prop :=
  ∀ (cfg : Config) (x y w h : Int), cfg.wf = true →
    let cx := min ((cfg.width : Int) - 1) (max 0 x)
    let cy := min ((cfg.height : Int) - 1) (max 0 y)
    let cw := min ((cfg.width : Int) - cx) (max 1 w)
    let ch := min ((cfg.height : Int) - cy) (max 1 h)
    clampedRect cfg x y w h = { x0 := cx, y0 := cy, x1 := cx + cw - 1, y1 := cy + ch - 1 } ∧
    (clampedRect cfg x y w h).inside cfg ∧ (clampedRect cfg x y w h).pixels = cw * ch ∧ 1 ≤ cw * ch ∧
    FitsU16 (clampedRect cfg x y w h).x1 ∧ FitsU16 (clampedRect cfg x y w h).y1

/-- 42_display_ops.md R174, R175: `FILL_RECT` programs the clamped window once and streams the pixels in chunks. -/
def Obligations.FillRectStreamsTheClampedRectangle : Prop :=
  ∀ (s : State) (x y w h : Int) (color : U16) (cs ps rw : Byte) (rest : List Answer),
    s.cfg.wf = true → s.status.dead = false → s.cfg.writeIds cs ps rw →
    let cx := min ((s.cfg.width : Int) - 1) (max 0 x)
    let cy := min ((s.cfg.height : Int) - 1) (max 0 y)
    let cw := min ((s.cfg.width : Int) - cx) (max 1 w)
    let ch := min ((s.cfg.height : Int) - cy) (max 1 h)
    let es := fillTrace cs ps rw s.cfg.chunkPixels cx cy cw ch color
    s.answers = okAnswers es.length ++ rest →
    ∃ t, exec (.fillRect x y w h color) s = .next t ∧ s.StreamedOk t es rest

/-- 42_display_ops.md R176, R177, R178: `FILL`, `HLINE` and `VLINE` stream the whole canvas, one row, one column. -/
def Obligations.FillAndLinesStreamTheirRectangles : Prop :=
  ∀ (s : State) (x y w h : Int) (color : U16) (cs ps rw : Byte) (rest : List Answer),
    s.cfg.wf = true → s.status.dead = false → s.cfg.writeIds cs ps rw →
    let cx := min ((s.cfg.width : Int) - 1) (max 0 x)
    let cy := min ((s.cfg.height : Int) - 1) (max 0 y)
    let cw := min ((s.cfg.width : Int) - cx) (max 1 w)
    let ch := min ((s.cfg.height : Int) - cy) (max 1 h)
    let whole := fillTrace cs ps rw s.cfg.chunkPixels 0 0 s.cfg.width s.cfg.height color
    let row := fillTrace cs ps rw s.cfg.chunkPixels cx cy cw 1 color
    let column := fillTrace cs ps rw s.cfg.chunkPixels cx cy 1 ch color
    (s.answers = okAnswers whole.length ++ rest →
      ∃ t, exec (.fill color) s = .next t ∧ s.StreamedOk t whole rest) ∧
    (s.answers = okAnswers row.length ++ rest →
      ∃ t, exec (.hline x y w color) s = .next t ∧ s.StreamedOk t row rest) ∧
    (s.answers = okAnswers column.length ++ rest →
      ∃ t, exec (.vline x y h color) s = .next t ∧ s.StreamedOk t column rest)

/-- 30_encoding.md R112, 42_display_ops.md R176 to R178: `FILL`, `HLINE`, `VLINE` behave exactly as the `FILL_RECT` they
expand to, whatever the transport answers and in a dead block too. -/
def Obligations.FillAndLinesExpandToFillRect : Prop :=
  ∀ (s : State) (x y w h : Int) (color : U16),
    exec (.fill color) s = exec (.fillRect 0 0 s.cfg.width s.cfg.height color) s ∧
    exec (.hline x y w color) s = exec (.fillRect x y w 1 color) s ∧
    exec (.vline x y h color) s = exec (.fillRect x y 1 h color) s

/-- 42_display_ops.md R175, R182, 20_memory.md R66: the raw writes of a fill carry exactly the pixel, `total` times; their
number is the floor of `total / CHUNK_PIXELS`, and one more where a rest is left; none is empty, none longer than a chunk. -/
def Obligations.ChunksCarryEveryPixelOnce : Prop :=
  ∀ (cfg : Config) (total : Nat) (color : U16), cfg.wf = true →
    (chunkEvents cfg total color).flatMap BusEvent.rawData = rep (pixelBytes color) total ∧
    ((chunkEvents cfg total color).flatMap BusEvent.rawData).length = 2 * total ∧
    (chunkEvents cfg total color).length =
      total / cfg.chunkPixels + (if total % cfg.chunkPixels = 0 then 0 else 1) ∧
    ∀ e ∈ chunkEvents cfg total color, ∃ k, 1 ≤ k ∧ k ≤ cfg.chunkPixels ∧ e = .write none (rep (pixelBytes color) k)

/-- 42_display_ops.md R179: `BLIT` sends the bytes of the buffer, as they lie in memory, in one RAMWR; with an empty
buffer the RAMWR carries none. -/
def Obligations.BlitSendsTheBufferAsItLies : Prop :=
  ∀ (s : State) (addr len : Nat) (x y w h : Int) (cs ps rw : Byte) (rest : List Answer),
    s.cfg.wf = true → s.status.dead = false → s.cfg.writeIds cs ps rw → addr + len ≤ 4294967296 →
    overlapsRegisters s.cfg addr len = false →
    0 ≤ x → 0 ≤ y → 1 ≤ w → 1 ≤ h → x + w ≤ s.cfg.width → y + h ≤ s.cfg.height →
    s.answers = okAnswers 3 ++ rest →
    ∃ t, exec (.blit addr len x y w h) s = .next t ∧
      s.StreamedOk t
        (windowTrace cs ps rw x (x + w - 1) y (y + h - 1) ((List.range len).map (fun k => s.mem.read (addr + k))))
        rest

/-- 42_display_ops.md R179, 60_exceptions.md R211, R215, R219: `BLIT` past the top of the address space is `ILLEGAL_OP`,
whatever the rectangle; otherwise a rectangle that is degenerate or not inside the canvas is `OUT_OF_BOUNDS`. The buffer
is clear of the register space (20_memory.md R75). -/
def Obligations.BlitChecksRangeThenBounds : Prop :=
  ∀ (s : State) (addr len : Nat) (x y w h : Int), s.status.dead = false →
    overlapsRegisters s.cfg addr len = false →
    (4294967296 < addr + len → ∃ t, exec (.blit addr len x y w h) s = .next t ∧ s.StoppedWith t .illegalOp) ∧
    (addr + len ≤ 4294967296 →
      (x < 0 ∨ y < 0 ∨ w < 1 ∨ h < 1 ∨ (s.cfg.width : Int) < x + w ∨ (s.cfg.height : Int) < y + h) →
      ∃ t, exec (.blit addr len x y w h) s = .next t ∧ s.StoppedWith t .outOfBounds)

/-- 20_memory.md R75, 93_implementation_defined.md U11: a `BLIT` whose buffer shares an address with the block's own
register space is refused, in every state and whatever its rectangle. -/
def Obligations.BlitFromTheRegisterSpaceIsRefused : Prop :=
  ∀ (s : State) (addr len base : Nat) (x y w h : Int), s.cfg.regBase = some base →
    (∃ a, addr ≤ a ∧ a < addr + len ∧ base ≤ a ∧ a < base + 64) →
    exec (.blit addr len x y w h) s = .refused .blitOverlapsRegisters

/-- 40_pixel_codec.md R136: `COLOR565` computes its colour with no event, in a dead block too. -/
def Obligations.Color565WritesResultWithoutEvents : Prop :=
  ∀ (s : State) (r g b : Byte),
    ∃ t, exec (.color565 r g b) s = .next t ∧ s.Completed t .ok ∧ s.sameButBlock t ∧
      t.result.toNat = r.toNat / 8 * 2048 + g.toNat / 4 * 32 + b.toNat / 8 ∧
      t.trace = s.trace ∧ t.answers = s.answers ∧ t.draws = s.draws

/-! ## The codec -/

/-- 40_pixel_codec.md R130: the formula of `color565`, and its fields bit for bit. -/
def Obligations.ColorPacksRedGreenBlue : Prop :=
  ∀ r g b : Byte,
    (packColor r g b).toNat =
      ((r.toNat &&& 0xF8) <<< 8) ||| ((g.toNat &&& 0xFC) <<< 3) ||| (b.toNat >>> 3) ∧
    (packColor r g b).extractLsb' 11 5 = r.extractLsb' 3 5 ∧
    (packColor r g b).extractLsb' 5 6 = g.extractLsb' 2 6 ∧
    (packColor r g b).extractLsb' 0 5 = b.extractLsb' 3 5

/-- 40_pixel_codec.md R131, R133, R137: the components of `unpack565`; packing loses exactly the low bits; packing the
unpacked colour gives it back, and so does `decode_pixel`, which is `color565` of its three bytes. -/
def Obligations.UnpackingInvertsPackingUpToTruncation : Prop :=
  (∀ c : U16, (unpackColor c).1.toNat = c.toNat / 2048 * 8 ∧ (unpackColor c).2.1.toNat = c.toNat / 32 % 64 * 4 ∧
    (unpackColor c).2.2.toNat = c.toNat % 32 * 8) ∧
  (∀ r g b : Byte, unpackColor (packColor r g b) = (r &&& 0xF8#8, g &&& 0xFC#8, b &&& 0xF8#8)) ∧
  (∀ c : U16, packColor (unpackColor c).1 (unpackColor c).2.1 (unpackColor c).2.2 = c) ∧
  (∀ c : U16, decodePixel (unpackColor c).1 (unpackColor c).2.1 (unpackColor c).2.2 = c) ∧
  (∀ r g b : Byte, decodePixel r g b = packColor r g b)

/-- 40_pixel_codec.md R132, R134, R137: the bytes of a pixel and of a position, most significant first, and that the two
functions lose nothing. -/
def Obligations.WireFunctionsAreBigEndianAndInjective : Prop :=
  (∀ c : U16, encodePixel c = [BitVec.ofNat 8 (c.toNat / 256), BitVec.ofNat 8 (c.toNat % 256)]) ∧
  (∀ a b : U16, encodePosition a b =
    [BitVec.ofNat 8 (a.toNat / 256), BitVec.ofNat 8 (a.toNat % 256),
     BitVec.ofNat 8 (b.toNat / 256), BitVec.ofNat 8 (b.toNat % 256)]) ∧
  (∀ c d : U16, encodePixel c = encodePixel d → c = d) ∧
  (∀ a b c d : U16, encodePosition a b = encodePosition c d → a = c ∧ b = d)

/-- 40_pixel_codec.md R132 to R135: the three wire functions as instructions: the value stands on the model's codec port
(log 8), and nothing of the machine changes. -/
def Obligations.WireFunctionsReturnTheirValueAndChangeNothing : Prop :=
  ∀ (s : State) (a b c : U16) (b0 b1 b2 : Byte),
    (exec (.encodePosition a b) s = .next { s with codec := { s.codec with
        request := none
        bytes := [BitVec.ofNat 8 (a.toNat / 256), BitVec.ofNat 8 (a.toNat % 256),
          BitVec.ofNat 8 (b.toNat / 256), BitVec.ofNat 8 (b.toNat % 256)] } }) ∧
    (exec (.encodePixel c) s = .next { s with codec := { s.codec with
        request := none
        bytes := [BitVec.ofNat 8 (c.toNat / 256), BitVec.ofNat 8 (c.toNat % 256)] } }) ∧
    (exec (.decodePixel b0 b1 b2) s = .next { s with codec := { s.codec with
        request := none
        color := packColor b0 b1 b2 } })

/-! ## Encoding -/

/-- 30_encoding.md R100 to R104, R107 to R109: decoding the encoding of any well-formed instruction gives it back. -/
def Obligations.DecodeInvertsEncode : Prop :=
  ∀ i : Instr, i.wf = true → decode (encode i) = .instr i

/-- 30_encoding.md R102, R104, R107 to R109: a few words written out from the encodings decode to what they stand for. -/
def Obligations.WrittenOutWordsDecode : Prop :=
  decode (.command { CommandWords.ofCmd 0x00000003#32 with
    x := 0xFFFFFFFB#32, y := 0x00000002#32, w := 0x80000000#32, h := 0x7FFFFFFF#32, color := 0xF81F#16 }) =
    .instr (.fillRect (-5) 2 (-2147483648) 2147483647 0xF81F#16) ∧
  decode (.command { CommandWords.ofCmd 0x00000007#32 with
    x := 0x0000000A#32, y := 0x00000014#32, w := 2#32, h := 3#32, addr := 0xFFFFFFF8#32, len := 8#32 }) =
    .instr (.blit 0xFFFFFFF8 8 10 20 2 3) ∧
  decode (.command { CommandWords.ofCmd 0x00000008#32 with rgb := 0x123456#24 }) =
    .instr (.color565 0x12#8 0x34#8 0x56#8) ∧
  decode (.wire [0x00#8, 0x78#8, 0x00#8, 0x7F#8]) = .instr (.encodePosition 0x0078#16 0x007F#16) ∧
  decode (.wire [0xF8#8, 0x00#8]) = .instr (.encodePixel 0xF800#16) ∧
  decode (.wire [0x12#8, 0x34#8, 0x56#8]) = .instr (.decodePixel 0x12#8 0x34#8 0x56#8)

/-- 30_encoding.md R102, R103, R105: a command word is an operation exactly when its reserved bits are zero and its
operation code is 1 to 8; then the operation is the one of that code, and it does not depend on the operand words it does
not read. -/
def Obligations.CommandWordsAreLegalExactlyAsMapped : Prop :=
  (∀ c : CommandWords, (∃ i, decodeCommand c = .instr i) ↔
    c.cmd.extractLsb' 8 24 = 0#24 ∧ 1 ≤ (c.cmd.extractLsb' 0 8).toNat ∧ (c.cmd.extractLsb' 0 8).toNat ≤ 8) ∧
  (∀ (c : CommandWords) (i : Instr), decodeCommand c = .instr i → opcodeOf i = some c.cmd) ∧
  (∀ (c d : CommandWords), c.cmd = d.cmd →
    (c.cmd = 1#32 → c.x = d.x → c.y = d.y → decodeCommand c = decodeCommand d) ∧
    (c.cmd = 2#32 → c.x = d.x → c.y = d.y → c.color = d.color → decodeCommand c = decodeCommand d) ∧
    (c.cmd = 3#32 → c.x = d.x → c.y = d.y → c.w = d.w → c.h = d.h → c.color = d.color →
      decodeCommand c = decodeCommand d) ∧
    (c.cmd = 4#32 → c.color = d.color → decodeCommand c = decodeCommand d) ∧
    (c.cmd = 5#32 → c.x = d.x → c.y = d.y → c.w = d.w → c.color = d.color → decodeCommand c = decodeCommand d) ∧
    (c.cmd = 6#32 → c.x = d.x → c.y = d.y → c.h = d.h → c.color = d.color → decodeCommand c = decodeCommand d) ∧
    (c.cmd = 7#32 → c.x = d.x → c.y = d.y → c.w = d.w → c.h = d.h → c.addr = d.addr → c.len = d.len →
      decodeCommand c = decodeCommand d) ∧
    (c.cmd = 8#32 → c.rgb = d.rgb → decodeCommand c = decodeCommand d))

/-! ## The step -/

/-- 10_state.md R34, 42_display_ops.md R170: when the block carries out the latched operation, the step is `exec` of the
instruction the latch decodes to; and a codec function presented on the port is `exec` of it (log 8). -/
def Obligations.StepExecutesTheDecodedInstruction : Prop :=
  (∀ (s : State) (i : Instr), s.runsNext → decodeCommand s.latch = .instr i → step s = exec i s) ∧
  (∀ (s : State) (bytes : List Byte) (i : Instr), s.cfg.wf = true → s.codec.request = some bytes →
    decodeWire bytes = .instr i → step s = exec i s)

/-- 20_memory.md R69, R76, 92_eei_decisions.md D29: performing an operation one event at a time ends exactly where
executing it whole does. `exec` is thus what the host sees between the doorbell and `BUSY = 0`. -/
def Obligations.OneEventAtATimeEndsWhereExecuteEnds : Prop :=
  ∀ (s : State) (i : Instr), s.cfg.wf = true → s.codec.request = none → s.phase = .runEntry →
    decodeCommand s.latch = .instr i →
    ∃ bound, ∀ n, bound ≤ n →
      Host.Core.run Sys2Proof.core n { s with inputs := List.replicate n .turn } = exec i { s with inputs := [] }

/-- 30_encoding.md R111, 20_memory.md R77: the host actions of an assembler line, run through the register interface of an
idle block, execute exactly that operation, and the host reads the status and the result it left. The list of inputs, the
operation in one step and the record of the reads are the model's forms (log 5, log 6, log 7). -/
def Obligations.AssemblerLineExecutesItsOperation : Prop :=
  ∀ (s t : State) (i : Instr) (op : Word) (rest : List Input),
    s.cfg.wf = true → s.codec.request = none → s.status.busy = false → i.wf = true → opcodeOf i = some op →
    s.inputs = lineInputs i ++ rest →
    exec i (({ s with inputs := [] } : State).afterLine i op) = .next t →
    decodeCommand (({ s with inputs := [] } : State).afterLine i op).latch = .instr i ∧
    Host.Core.run Sys2Proof.core ((lineInputs i).length + 1) s =
      .next { t with inputs := rest, hostReads := s.hostReads ++ lineReads i t }

/-- 10_state.md R34, R37, 42_display_ops.md R170: an operation reads only its operands, the configuration, `DEAD`, the
outcomes of its events and, for `BLIT`, host memory. Two states that agree in these do the same: whatever else they hold
(the operand registers, the latch, `RESULT`, `BUSY`, `READY`, `CODE`, `FAULT_LOG`, the phase, the trace, the inputs to come,
what was read, the codec port, host memory for the other operations), the code, the events, the value and the use of the
transport are equal, and each state keeps the rest of its own. -/
def Obligations.OperationsIgnoreRegistersAndHistory : Prop :=
  ∀ (i : Instr) (s u : State), i.isOperation = true →
    u.cfg = s.cfg → u.status.dead = s.status.dead → u.answers = s.answers → u.draws = s.draws →
    ((∃ addr len x y w h, i = .blit addr len x y w h) → u.mem = s.mem) →
    (∃ why, exec i s = .refused why ∧ exec i u = .refused why) ∨
    ∃ c new value answers draws,
      exec i s = .next (s.afterOperation c new value answers draws) ∧
      exec i u = .next (u.afterOperation c new value answers draws)

/-- 70_reset_and_hazards.md R256: nothing but hardware reset brings the block back into start-up. -/
def Obligations.StartupRunsOnlyAfterReset : Prop :=
  ∀ (s t : State) (todo : List BusEvent), step s = .next t → t.phase = .startup todo → s.resetsNext = false →
    ∃ before, s.phase = .startup before ∧ todo.length ≤ before.length

/-! ## Host memory -/

/-- 20_memory.md R61: no step writes host memory but the host's own store. -/
def Obligations.BlockNeverWritesHostMemory : Prop :=
  ∀ s t : State, step s = .next t →
    (∀ a b rest, s.codec.request = none → s.inputs ≠ .memWrite a b :: rest) → t.mem = s.mem

/-- 00_scope.md R14, 20_memory.md R61: `MemRead` returns the bytes in address order. -/
def Obligations.MemReadReturnsBytesInAddressOrder : Prop :=
  ∀ (m : Memory) (addr n : Nat), m.readBytes addr n = (List.range n).map (fun k => m.read (addr + k))

/-- 20_memory.md R60, R62, 70_reset_and_hazards.md R259, 93_implementation_defined.md U6: the host's store of a byte is
read back, leaves every other byte, and keeps the canonical form; outside the address space it faults (log 21), into the
buffer of a running `BLIT` it is refused (log 12), and into the register space it is a narrow access and refused
(10_state.md R33, log 13). -/
def Obligations.HostStoresOneByte : Prop :=
  ∀ (s : State) (a : Nat) (v : Byte) (rest : List Input), s.nextInput (.memWrite a v) rest →
    (a < 4294967296 → overlapsRegisters s.cfg a 1 = false → s.inRunningBuffer a = false → s.mem.wf = true →
      ∃ t, step s = .next t ∧ t.mem.read a = v ∧ (∀ other, other ≠ a → t.mem.read other = s.mem.read other) ∧
        t.mem.wf = true ∧ t = { s with mem := t.mem, inputs := rest }) ∧
    (4294967296 ≤ a → step s = .fault .noSuchAddress) ∧
    (a < 4294967296 → overlapsRegisters s.cfg a 1 = false →
      (∃ addr len x y w h, decodeCommand s.latch = .instr (.blit addr len x y w h) ∧ addr ≤ a ∧ a < addr + len) →
      (s.phase = .runEntry ∨ ∃ todo onOk received, s.phase = .runEvents todo onOk received) →
      step s = .refused .blitBufferWritten) ∧
    (a < 4294967296 → (∃ base, s.cfg.regBase = some base ∧ base ≤ a ∧ a < base + 64) →
      step s = .refused .narrowOrMisaligned)

/-! ## The canvas, under the named assumption `ENV` (20_memory.md R81 to R88) -/

/-- 20_memory.md R88 with 42_display_ops.md R173, under `ENV`: `PIXEL_SET` on the canvas sets that pixel and changes
nothing else; off the canvas it leaves the canvas unchanged. -/
def Obligations.EnvPixelSetSetsOnePixel : Prop :=
  ∀ (s t : State) (x y : Int) (color : U16) (new : List TraceEntry) (e e' : Env s.cfg),
    s.cfg.wf = true → s.cfg.distinctWriteIds = true → s.status.dead = false →
    exec (.pixelSet x y color) s = .next t → t.trace = s.trace ++ new → (∀ entry ∈ new, entry.answer ≠ .fail) →
    Env.follows new e e' →
    (onCanvas s.cfg x y →
      ∀ (i : Fin s.cfg.width) (j : Fin s.cfg.height),
        e'.gram i j = if (i.val : Int) = x ∧ (j.val : Int) = y then color else e.gram i j) ∧
    (¬ onCanvas s.cfg x y → e'.gram = e.gram)

/-- 20_memory.md R88 with 42_display_ops.md R174, R175, under `ENV`: `FILL_RECT` sets every pixel of the clamped rectangle
and changes nothing else, so filling twice is filling once. -/
def Obligations.EnvFillRectPaintsTheClampedRectangle : Prop :=
  ∀ (s t : State) (x y w h : Int) (color : U16) (new : List TraceEntry) (e e' : Env s.cfg),
    s.cfg.wf = true → s.cfg.distinctWriteIds = true → s.status.dead = false →
    exec (.fillRect x y w h color) s = .next t → t.trace = s.trace ++ new →
    (∀ entry ∈ new, entry.answer ≠ .fail) → Env.follows new e e' →
    (∀ (i : Fin s.cfg.width) (j : Fin s.cfg.height), e'.gram i j =
      if (clampedRect s.cfg x y w h).x0 ≤ i.val ∧ (i.val : Int) ≤ (clampedRect s.cfg x y w h).x1 ∧
          (clampedRect s.cfg x y w h).y0 ≤ j.val ∧ (j.val : Int) ≤ (clampedRect s.cfg x y w h).y1
      then color else e.gram i j) ∧
    ∀ e'', Env.follows new e' e'' → e''.gram = e'.gram

/-- 20_memory.md R88 with 42_display_ops.md R179, under `ENV`: a `BLIT` whose length matches copies pixel `k` of the
buffer to column `k mod w` and row `k div w` of the rectangle and changes nothing else. -/
def Obligations.EnvBlitCopiesTheBuffer : Prop :=
  ∀ (s t : State) (addr : Nat) (x y : Int) (w h : Nat) (new : List TraceEntry) (e e' : Env s.cfg),
    s.cfg.wf = true → s.cfg.distinctWriteIds = true → s.status.dead = false →
    addr + 2 * w * h ≤ 4294967296 → blitFits s.cfg x y w h →
    exec (.blit addr (2 * w * h) x y w h) s = .next t → t.trace = s.trace ++ new →
    (∀ entry ∈ new, entry.answer ≠ .fail) → Env.follows new e e' →
    (∀ k, k < w * h → ∃ (i : Fin s.cfg.width) (j : Fin s.cfg.height),
      (i.val : Int) = x + (k % w : Nat) ∧ (j.val : Int) = y + (k / w : Nat) ∧
      e'.gram i j = s.mem.read (addr + 2 * k) ++ s.mem.read (addr + 2 * k + 1)) ∧
    (∀ (i : Fin s.cfg.width) (j : Fin s.cfg.height),
      ¬(x ≤ i.val ∧ (i.val : Int) < x + w ∧ y ≤ j.val ∧ (j.val : Int) < y + h) → e'.gram i j = e.gram i j)
end

