-- ==== Sys2Proof/Laws/Env.lean ====
section
/-! SUPPORT. `ENV`: it answers every trace, and what streaming whole pixels into its window does. -/

namespace Sys2Proof.Machine

variable {cfg : Config}

/-- Leaving everything as it is, is one way to settle. -/
theorem Env.settle_self (e : Env cfg) : e.settle e := fun _ => ⟨⟨e.gram, rfl⟩, fun _ _ _ => rfl⟩

theorem Env.consume_exists (data : List Byte) : ∀ e : Env cfg, ∃ e', Env.consume data e e' := by
  induction data with
  | nil => exact fun e => ⟨e, rfl⟩
  | cons b rest ih =>
    intro e
    cases hp : e.pending with
    | none => simpa only [Env.consume, hp] using ih _
    | some hi =>
      obtain ⟨m, hm⟩ : ∃ m, Env.pixel { e with pending := none } (hi ++ b) m := by
        unfold Env.pixel
        split
        · exact ⟨e, trivial⟩
        · exact ⟨_, rfl⟩
      obtain ⟨e', h⟩ := ih m
      exact ⟨e', by simpa only [Env.consume, hp] using ⟨m, hm, h⟩⟩

theorem Env.stream_exists (data : List Byte) (e : Env cfg) : ∃ e', Env.stream data e e' :=
  let ⟨m, h⟩ := Env.consume_exists data e
  ⟨m, m, h, m.settle_self⟩

theorem Env.notWriting_exists (e : Env cfg) : ∃ e' : Env cfg, e'.mode ≠ .write :=
  ⟨{ e with mode := .none }, by simp⟩

/-- `ENV` answers every entry of a trace. -/
theorem Env.event_exists (entry : TraceEntry) (e : Env cfg) : ∃ e', Env.event entry e e' := by
  unfold Env.event
  split
  · exact ⟨e, fun _ _ _ => rfl⟩
  · unfold Env.command
    split
    · exact Env.stream_exists _ _
    · split
      · split
        · exact ⟨_, rfl⟩
        · exact e.notWriting_exists
      · split
        · split
          · exact ⟨_, rfl⟩
          · exact e.notWriting_exists
        · exact e.notWriting_exists
  · split
    · exact Env.stream_exists _ _
    · exact ⟨e, trivial⟩
  · split
    · exact ⟨_, rfl⟩
    · exact e.notWriting_exists
  all_goals exact ⟨e, trivial⟩

/-- `ENV` answers every trace from every state. -/
theorem Env.follows_exists (trace : List TraceEntry) : ∀ e : Env cfg, ∃ e', Env.follows trace e e' := by
  induction trace with
  | nil => exact fun e => ⟨e, rfl⟩
  | cons entry rest ih =>
    intro e
    obtain ⟨m, hm⟩ := Env.event_exists entry e
    obtain ⟨e', h⟩ := ih m
    exact ⟨e', m, hm, h⟩

/-- Columns of the window. -/
def Env.columns (e : Env cfg) : Nat := e.cx1.toNat - e.cx0.toNat + 1

/-- Rows of the window. -/
def Env.rows (e : Env cfg) : Nat := e.py1.toNat - e.py0.toNat + 1

/-- The cursor stands where `n` pixels of the window have been sent, and no byte is pending. -/
structure Env.sent (e : Env cfg) (n : Nat) : Prop where
  bounds_x : e.cx0.toNat ≤ e.cx1.toNat
  bounds_y : e.py0.toNat ≤ e.py1.toNat
  px : e.px = e.cx0.toNat + n % e.columns
  py : e.py = e.py0.toNat + n / e.columns
  pending : e.pending = none

/-- The place of a pixel in the order of the window. -/
def Env.index (e : Env cfg) (x y : Nat) : Nat := (y - e.py0.toNat) * e.columns + (x - e.cx0.toNat)

/-- `e'` has the window and the mode of `e`. -/
structure Env.sameWindow (e e' : Env cfg) : Prop where
  cx0 : e'.cx0 = e.cx0
  cx1 : e'.cx1 = e.cx1
  py0 : e'.py0 = e.py0
  py1 : e'.py1 = e.py1
  mode : e'.mode = e.mode

/-- A pixel of the window stands at the cursor exactly when its place is the number of pixels sent. -/
theorem Env.index_eq_iff {e : Env cfg} {n x y : Nat} (h : e.sent n) (hw : e.inWindow x y) :
    (x = e.px ∧ y = e.py) ↔ e.index x y = n := by
  obtain ⟨h1, h2, h3, h4⟩ := hw
  have hx : x - e.cx0.toNat < e.columns := by unfold Env.columns; omega
  have hc : 0 < e.columns := by unfold Env.columns; omega
  rw [h.px, h.py]
  unfold Env.index
  constructor
  · rintro ⟨rfl, rfl⟩
    rw [Nat.add_sub_cancel_left, Nat.add_sub_cancel_left, Nat.mul_comm]
    exact Nat.div_add_mod n e.columns
  · intro hn
    have hm : n % e.columns = x - e.cx0.toNat := by
      rw [← hn, Nat.mul_comm, Nat.mul_add_mod, Nat.mod_eq_of_lt hx]
    have hd : n / e.columns = y - e.py0.toNat := by
      rw [← hn, Nat.mul_comm, Nat.mul_add_div hc, Nat.div_eq_of_lt hx, Nat.add_zero]
    omega

/-- A pixel of the window is unsent exactly when its place is not before the number of pixels sent. -/
theorem Env.unsent_iff {e : Env cfg} {n x y : Nat} (h : e.sent n) (hw : e.inWindow x y) :
    e.unsent x y ↔ n ≤ e.index x y := by
  obtain ⟨h1, h2, h3, h4⟩ := hw
  have hx : x - e.cx0.toNat < e.columns := by unfold Env.columns; omega
  have hc : 0 < e.columns := by unfold Env.columns; omega
  have hn := Nat.div_add_mod n e.columns
  have hr := Nat.mod_lt n hc
  have : e.unsent x y ↔ (e.py < y ∨ (y = e.py ∧ e.px ≤ x)) := ⟨And.right, fun g => ⟨⟨h1, h2, h3, h4⟩, g⟩⟩
  rw [this, h.px, h.py]
  unfold Env.index
  generalize n / e.columns = q at *
  generalize n % e.columns = r at *
  obtain ⟨d, rfl⟩ := Nat.exists_eq_add_of_le h3
  obtain ⟨c, rfl⟩ := Nat.exists_eq_add_of_le h1
  rw [Nat.add_sub_cancel_left, Nat.add_sub_cancel_left] at *
  generalize e.columns = k at *
  rw [Nat.mul_comm] at hn
  rcases Nat.lt_trichotomy q d with hq | hq | hq
  · have := Nat.mul_le_mul_right k hq
    rw [Nat.succ_mul] at this
    constructor <;> intro <;> omega
  · subst hq
    constructor <;> intro <;> omega
  · have := Nat.mul_le_mul_right k hq
    rw [Nat.succ_mul] at this
    constructor <;> intro <;> omega

/-- One pixel sent into a window that is not full: it is stored at its place, and the cursor moves on. -/
theorem Env.pixel_sent {e e' : Env cfg} {n : Nat} {c : U16} (h : e.sent n) (hn : n < e.columns * e.rows)
    (hp : Env.pixel e c e') :
    e.sameWindow e' ∧ e'.sent (n + 1) ∧
    ∀ (x : Fin cfg.width) (y : Fin cfg.height),
      e'.gram x y = if e.inWindow x.val y.val ∧ e.index x.val y.val = n then c else e.gram x y := by
  have hc : 0 < e.columns := by unfold Env.columns; omega
  have hq : n / e.columns < e.rows := (Nat.div_lt_iff_lt_mul hc).2 (by rwa [Nat.mul_comm])
  have hr := Nat.mod_lt n hc
  have hb := h.bounds_x
  have hb' := h.bounds_y
  have hpx := h.px
  have hpy := h.py
  have hcol : e.columns = e.cx1.toNat - e.cx0.toNat + 1 := rfl
  have hrows : e.rows = e.py1.toNat - e.py0.toNat + 1 := rfl
  have hrow : ¬ e.py1.toNat < e.py := by omega
  rw [Env.pixel, if_neg hrow] at hp
  have hin : e.inWindow e.px e.py := by
    generalize n % e.columns = r at hr hpx
    generalize n / e.columns = q at hq hpy
    refine ⟨?_, ?_, ?_, ?_⟩ <;> omega
  have hgram : ∀ (x : Fin cfg.width) (y : Fin cfg.height),
      (e.store c).gram x y = if e.inWindow x.val y.val ∧ e.index x.val y.val = n then c else e.gram x y := by
    intro x y
    simp only [Env.store]
    refine if_congr ⟨?_, ?_⟩ rfl rfl
    · rintro ⟨h1, h2⟩
      have hw : e.inWindow x.val y.val := by rw [h1, h2]; exact hin
      exact ⟨hw, (Env.index_eq_iff h hw).1 ⟨h1, h2⟩⟩
    · rintro ⟨hw, h1⟩
      exact (Env.index_eq_iff h hw).2 h1
  have hdm := Nat.div_add_mod n e.columns
  subst hp
  unfold Env.moveOn
  split
  · rename_i hl
    have hl' : n % e.columns + 1 = e.columns := by
      simp only [Env.store] at hl
      omega
    have hd : n + 1 = e.columns * (n / e.columns + 1) := by rw [Nat.mul_add]; omega
    refine ⟨⟨rfl, rfl, rfl, rfl, rfl⟩, ⟨hb, hb', ?_, ?_, h.pending⟩, hgram⟩
    · show e.cx0.toNat = e.cx0.toNat + (n + 1) % e.columns
      rw [hd, Nat.mul_mod_right, Nat.add_zero]
    · show e.py + 1 = e.py0.toNat + (n + 1) / e.columns
      rw [hd, Nat.mul_div_cancel_left _ hc, hpy, Nat.add_assoc]
  · rename_i hl
    have hl' : n % e.columns + 1 < e.columns := by
      simp only [Env.store] at hl
      omega
    have hd : n + 1 = e.columns * (n / e.columns) + (n % e.columns + 1) := by omega
    refine ⟨⟨rfl, rfl, rfl, rfl, rfl⟩, ⟨hb, hb', ?_, ?_, h.pending⟩, hgram⟩
    · show e.px + 1 = e.cx0.toNat + (n + 1) % e.columns
      rw [hd, Nat.mul_add_mod, Nat.mod_eq_of_lt hl', hpx, Nat.add_assoc]
    · show e.py = e.py0.toNat + (n + 1) / e.columns
      rw [hd, Nat.mul_add_div hc, Nat.div_eq_of_lt hl', Nat.add_zero, hpy]

theorem Env.sameWindow_trans {a b c : Env cfg} (h : a.sameWindow b) (h' : b.sameWindow c) : a.sameWindow c :=
  ⟨h'.cx0.trans h.cx0, h'.cx1.trans h.cx1, h'.py0.trans h.py0, h'.py1.trans h.py1, h'.mode.trans h.mode⟩

theorem Env.sameWindow_columns {e e' : Env cfg} (h : e.sameWindow e') : e'.columns = e.columns := by
  simp only [Env.columns, h.cx0, h.cx1]

theorem Env.sameWindow_rows {e e' : Env cfg} (h : e.sameWindow e') : e'.rows = e.rows := by
  simp only [Env.rows, h.py0, h.py1]

theorem Env.sameWindow_inWindow {e e' : Env cfg} (h : e.sameWindow e') (x y : Nat) :
    e'.inWindow x y ↔ e.inWindow x y := by
  simp only [Env.inWindow, h.cx0, h.cx1, h.py0, h.py1]

theorem Env.sameWindow_index {e e' : Env cfg} (h : e.sameWindow e') (x y : Nat) : e'.index x y = e.index x y := by
  simp only [Env.index, Env.sameWindow_columns h, h.cx0, h.py0]

/-- The bytes of some pixels, each as its two bytes. -/
def pixelStream (ps : List (Byte × Byte)) : List Byte := ps.flatMap (fun p => [p.1, p.2])

/-- Whole pixels sent into a window that has room for them: each is stored at its place, nothing else changes. -/
theorem Env.consume_sent (ps : List (Byte × Byte)) :
    ∀ {e e' : Env cfg} {n : Nat}, e.sent n → n + ps.length ≤ e.columns * e.rows →
      Env.consume (pixelStream ps) e e' →
      e.sameWindow e' ∧ e'.sent (n + ps.length) ∧
      ∀ (x : Fin cfg.width) (y : Fin cfg.height),
        e'.gram x y =
          if e.inWindow x.val y.val ∧ n ≤ e.index x.val y.val then
            ((ps[e.index x.val y.val - n]?).map (fun p => p.1 ++ p.2)).getD (e.gram x y)
          else e.gram x y := by
  induction ps with
  | nil =>
    intro e e' n h _ hc
    simp only [pixelStream, List.flatMap_nil, Env.consume] at hc
    subst hc
    exact ⟨⟨rfl, rfl, rfl, rfl, rfl⟩, h, fun x y => by simp⟩
  | cons p ps ih =>
    intro e e' n h hn hc
    have hp := h.pending
    obtain ⟨m, hm, hc⟩ : ∃ m, Env.pixel e (p.1 ++ p.2) m ∧ Env.consume (pixelStream ps) m e' := by
      have he : ({ e with pending := none } : Env cfg) = e := by
        cases e; simp_all
      simp only [pixelStream, List.flatMap_cons, List.cons_append, List.nil_append, Env.consume, hp, he] at hc
      exact hc
    simp only [List.length_cons] at hn
    obtain ⟨hs, h1, hg⟩ := Env.pixel_sent h (by omega) hm
    obtain ⟨hs', h2, hg'⟩ := ih h1 (by rw [Env.sameWindow_columns hs, Env.sameWindow_rows hs]; omega) hc
    refine ⟨Env.sameWindow_trans hs hs', by rwa [List.length_cons, Nat.add_comm ps.length 1, ← Nat.add_assoc], ?_⟩
    intro x y
    have hin := Env.sameWindow_inWindow hs x.val y.val
    rw [hg', hg, Env.sameWindow_index hs]
    by_cases hw : e.inWindow x.val y.val
    · rcases Nat.lt_trichotomy (e.index x.val y.val) n with hlt | heq | hgt
      · rw [if_neg (fun h => absurd h.2 (by omega)), if_neg (fun h => absurd h.2 (by omega)),
          if_neg (fun h => absurd h.2 (by omega))]
      · rw [if_neg (fun h => absurd h.2 (by omega)), if_pos ⟨hw, heq⟩, if_pos ⟨hw, by omega⟩, heq, Nat.sub_self]
        rfl
      · rw [if_pos ⟨hin.2 hw, hgt⟩, if_neg (fun h => absurd h.2 (by omega)), if_pos ⟨hw, by omega⟩,
          show e.index x.val y.val - n = e.index x.val y.val - (n + 1) + 1 by omega, List.getElem?_cons_succ]
    · rw [if_neg (fun h => hw (hin.1 h.1)), if_neg (fun h => hw h.1), if_neg (fun h => hw h.1)]

/-- An event that carries whole pixels into a window that has room for them: the pixels sent before it and by it are
stored, and outside the window nothing changes. What the pixels still to come hold is open. -/
theorem Env.stream_sent {ps : List (Byte × Byte)} {e e' : Env cfg} {n : Nat} (h : e.sent n)
    (hn : n + ps.length ≤ e.columns * e.rows) (hc : Env.stream (pixelStream ps) e e') :
    e.sameWindow e' ∧ e'.sent (n + ps.length) ∧
    ∀ (x : Fin cfg.width) (y : Fin cfg.height),
      ¬(e.inWindow x.val y.val ∧ n + ps.length ≤ e.index x.val y.val) →
      e'.gram x y =
        if e.inWindow x.val y.val ∧ n ≤ e.index x.val y.val then
          ((ps[e.index x.val y.val - n]?).map (fun p => p.1 ++ p.2)).getD (e.gram x y)
        else e.gram x y := by
  obtain ⟨m, hm, hs⟩ := hc
  obtain ⟨h1, h2, h3⟩ := Env.consume_sent ps h hn hm
  obtain ⟨⟨g, hg⟩, hk⟩ := hs h2.pending
  have hw : m.sameWindow e' := by subst hg; exact ⟨rfl, rfl, rfl, rfl, rfl⟩
  refine ⟨Env.sameWindow_trans h1 hw, ?_, ?_⟩
  · subst hg
    exact ⟨h2.bounds_x, h2.bounds_y, h2.px, h2.py, h2.pending⟩
  · intro x y hxy
    rw [hk x y, h3]
    intro hu
    have hin := (Env.sameWindow_inWindow h1 _ _).1 hu.1
    refine hxy ⟨hin, ?_⟩
    rw [← Env.sameWindow_index h1]
    exact (Env.unsent_iff h2 hu.1).1 hu

end Sys2Proof.Machine
end

