-- ==== Sys2Proof/Laws/Memory.lean ====
section
/-! SUPPORT. Host memory: a read after a write, and that a write keeps the canonical form. -/

namespace Sys2Proof.Machine

theorem Memory.read_of_lt_of_wfFrom (m : Memory) :
    ∀ {lo a : Nat}, Memory.wfFrom lo m = true → a < lo → m.read a = Memory.unwritten := by
  induction m with
  | nil => intros; rfl
  | cons c m ih =>
    obtain ⟨k, v⟩ := c
    intro lo a h ha
    simp only [Memory.wfFrom, Bool.and_eq_true, decide_eq_true_eq] at h
    obtain ⟨⟨⟨h1, -⟩, -⟩, h4⟩ := h
    rw [Memory.read, if_neg (by omega)]
    exact ih h4 (by omega)

theorem Memory.wfFrom_mono {m : Memory} {lo lo' : Nat} (h : Memory.wfFrom lo m = true) (hl : lo' ≤ lo) :
    Memory.wfFrom lo' m = true := by
  cases m with
  | nil => rfl
  | cons c m =>
    simp only [Memory.wfFrom, Bool.and_eq_true, decide_eq_true_eq] at h ⊢
    exact ⟨⟨⟨by omega, h.1.1.2⟩, h.1.2⟩, h.2⟩

theorem Memory.wfFrom_cell_append {m : Memory} {lo a : Nat} {b : Byte} (hlo : lo ≤ a) (ha : a < Memory.size)
    (h : Memory.wfFrom (a + 1) m = true) : Memory.wfFrom lo (Memory.cell a b ++ m) = true := by
  unfold Memory.cell
  split
  · exact Memory.wfFrom_mono h (by omega)
  · simp_all [Memory.wfFrom]

/-- A write inside host memory keeps every lower bound of the canonical form that the address respects. -/
theorem Memory.write_wfFrom (m : Memory) :
    ∀ {lo a : Nat} {b : Byte}, Memory.wfFrom lo m = true → lo ≤ a → a < Memory.size →
      Memory.wfFrom lo (m.write a b) = true := by
  induction m with
  | nil =>
    intro lo a b _ hlo ha
    simpa [Memory.write] using Memory.wfFrom_cell_append (m := []) hlo ha rfl
  | cons c m ih =>
    obtain ⟨k, v⟩ := c
    intro lo a b h hlo ha
    simp only [Memory.wfFrom, Bool.and_eq_true, decide_eq_true_eq] at h
    obtain ⟨⟨⟨h1, h2⟩, h3⟩, h4⟩ := h
    simp only [Memory.write]
    split
    · simp only [Memory.wfFrom, Bool.and_eq_true, decide_eq_true_eq]
      exact ⟨⟨⟨h1, h2⟩, h3⟩, ih h4 (by omega) ha⟩
    · split
      · subst k
        exact Memory.wfFrom_cell_append hlo ha h4
      · refine Memory.wfFrom_cell_append hlo ha ?_
        simp only [Memory.wfFrom, Bool.and_eq_true, decide_eq_true_eq]
        exact ⟨⟨⟨by omega, h2⟩, h3⟩, h4⟩

/-- Every memory operation keeps the canonical form. -/
theorem Memory.write_keeps_wf {m : Memory} {a : Nat} (b : Byte) (h : m.wf = true) (ha : a < Memory.size) :
    (m.write a b).wf = true :=
  Memory.write_wfFrom m h (Nat.zero_le a) ha

theorem Memory.read_cell_append_of_ne {m : Memory} {a a' : Nat} {b : Byte} (hne : a ≠ a') :
    Memory.read (Memory.cell a b ++ m) a' = m.read a' := by
  unfold Memory.cell
  split
  · rfl
  · simp [Memory.read, hne]

theorem Memory.read_cell_append_self {m : Memory} {a : Nat} {b : Byte} (h : m.read a = Memory.unwritten) :
    Memory.read (Memory.cell a b ++ m) a = b := by
  unfold Memory.cell
  split
  · simp_all
  · simp [Memory.read]

/-- A write leaves every other address alone. -/
theorem Memory.read_write_of_ne (m : Memory) {a a' : Nat} (b : Byte) (hne : a ≠ a') :
    (m.write a b).read a' = m.read a' := by
  induction m with
  | nil => simpa [Memory.write] using Memory.read_cell_append_of_ne (m := []) hne
  | cons c m ih =>
    obtain ⟨k, v⟩ := c
    simp only [Memory.write]
    split
    · simp [Memory.read, ih]
    · split
      · subst k
        rw [Memory.read_cell_append_of_ne hne, Memory.read, if_neg hne]
      · exact Memory.read_cell_append_of_ne hne

theorem Memory.read_write_self_of_wfFrom (m : Memory) :
    ∀ {lo a : Nat} (b : Byte), Memory.wfFrom lo m = true → (m.write a b).read a = b := by
  induction m with
  | nil => intro lo a b _; simpa [Memory.write] using Memory.read_cell_append_self (m := []) (a := a) rfl
  | cons c m ih =>
    obtain ⟨k, v⟩ := c
    intro lo a b h
    simp only [Memory.wfFrom, Bool.and_eq_true, decide_eq_true_eq] at h
    simp only [Memory.write]
    split
    · rw [Memory.read, if_neg (by omega)]
      exact ih b h.2
    · split
      · subst k
        exact Memory.read_cell_append_self (Memory.read_of_lt_of_wfFrom m h.2 (by omega))
      · refine Memory.read_cell_append_self ?_
        rw [Memory.read, if_neg (by omega)]
        exact Memory.read_of_lt_of_wfFrom m h.2 (by omega)

/-- A read after a write to the same address gives the byte written. -/
theorem Memory.read_write_self {m : Memory} {a : Nat} (b : Byte) (h : m.wf = true) : (m.write a b).read a = b :=
  Memory.read_write_self_of_wfFrom m b h

end Sys2Proof.Machine
end

