-- ==== Sys2Proof/Laws/State.lean ====
section
/-! SUPPORT. The small lemmas of the state: for each update, what it leaves in each field. -/

namespace Sys2Proof.Machine

section
variable (s : State)

@[simp] theorem State.complete_cfg (c : Code) : (s.complete c).cfg = s.cfg := rfl
@[simp] theorem State.complete_regs (c : Code) : (s.complete c).regs = s.regs := rfl
@[simp] theorem State.complete_latch (c : Code) : (s.complete c).latch = s.latch := rfl
@[simp] theorem State.complete_status (c : Code) : (s.complete c).status = { s.status with busy := false, code := c } := rfl
@[simp] theorem State.complete_result (c : Code) : (s.complete c).result = s.result := rfl
@[simp] theorem State.complete_faultLog (c : Code) : (s.complete c).faultLog = s.faultLog ||| c.faultBit := rfl
@[simp] theorem State.complete_phase (c : Code) : (s.complete c).phase = s.status.idlePhase := rfl
@[simp] theorem State.complete_trace (c : Code) : (s.complete c).trace = s.trace := rfl
@[simp] theorem State.complete_mem (c : Code) : (s.complete c).mem = s.mem := rfl
@[simp] theorem State.complete_answers (c : Code) : (s.complete c).answers = s.answers := rfl
@[simp] theorem State.complete_draws (c : Code) : (s.complete c).draws = s.draws := rfl
@[simp] theorem State.complete_inputs (c : Code) : (s.complete c).inputs = s.inputs := rfl
@[simp] theorem State.complete_hostReads (c : Code) : (s.complete c).hostReads = s.hostReads := rfl
@[simp] theorem State.complete_codec (c : Code) : (s.complete c).codec = s.codec := rfl

@[simp] theorem State.record_cfg (e : BusEvent) (a : Answer) : (s.record e a).cfg = s.cfg := rfl
@[simp] theorem State.record_regs (e : BusEvent) (a : Answer) : (s.record e a).regs = s.regs := rfl
@[simp] theorem State.record_latch (e : BusEvent) (a : Answer) : (s.record e a).latch = s.latch := rfl
@[simp] theorem State.record_status (e : BusEvent) (a : Answer) : (s.record e a).status = s.status := rfl
@[simp] theorem State.record_result (e : BusEvent) (a : Answer) : (s.record e a).result = s.result := rfl
@[simp] theorem State.record_faultLog (e : BusEvent) (a : Answer) : (s.record e a).faultLog = s.faultLog := rfl
@[simp] theorem State.record_phase (e : BusEvent) (a : Answer) : (s.record e a).phase = s.phase := rfl
@[simp] theorem State.record_trace (e : BusEvent) (a : Answer) : (s.record e a).trace = s.trace ++ [{ event := e, answer := a }] := rfl
@[simp] theorem State.record_mem (e : BusEvent) (a : Answer) : (s.record e a).mem = s.mem := rfl
@[simp] theorem State.record_answers (e : BusEvent) (a : Answer) : (s.record e a).answers = s.answers := rfl
@[simp] theorem State.record_draws (e : BusEvent) (a : Answer) : (s.record e a).draws = s.draws := rfl
@[simp] theorem State.record_inputs (e : BusEvent) (a : Answer) : (s.record e a).inputs = s.inputs := rfl
@[simp] theorem State.record_hostReads (e : BusEvent) (a : Answer) : (s.record e a).hostReads = s.hostReads := rfl
@[simp] theorem State.record_codec (e : BusEvent) (a : Answer) : (s.record e a).codec = s.codec := rfl

@[simp] theorem State.setResult_cfg (v : U16) : (s.setResult v).cfg = s.cfg := rfl
@[simp] theorem State.setResult_regs (v : U16) : (s.setResult v).regs = s.regs := rfl
@[simp] theorem State.setResult_latch (v : U16) : (s.setResult v).latch = s.latch := rfl
@[simp] theorem State.setResult_status (v : U16) : (s.setResult v).status = s.status := rfl
@[simp] theorem State.setResult_result (v : U16) : (s.setResult v).result = v := rfl
@[simp] theorem State.setResult_faultLog (v : U16) : (s.setResult v).faultLog = s.faultLog := rfl
@[simp] theorem State.setResult_phase (v : U16) : (s.setResult v).phase = s.phase := rfl
@[simp] theorem State.setResult_trace (v : U16) : (s.setResult v).trace = s.trace := rfl
@[simp] theorem State.setResult_mem (v : U16) : (s.setResult v).mem = s.mem := rfl
@[simp] theorem State.setResult_answers (v : U16) : (s.setResult v).answers = s.answers := rfl
@[simp] theorem State.setResult_draws (v : U16) : (s.setResult v).draws = s.draws := rfl
@[simp] theorem State.setResult_inputs (v : U16) : (s.setResult v).inputs = s.inputs := rfl
@[simp] theorem State.setResult_hostReads (v : U16) : (s.setResult v).hostReads = s.hostReads := rfl
@[simp] theorem State.setResult_codec (v : U16) : (s.setResult v).codec = s.codec := rfl

@[simp] theorem State.codecReturnBytes_cfg (b : List Byte) : (s.codecReturnBytes b).cfg = s.cfg := rfl
@[simp] theorem State.codecReturnBytes_regs (b : List Byte) : (s.codecReturnBytes b).regs = s.regs := rfl
@[simp] theorem State.codecReturnBytes_latch (b : List Byte) : (s.codecReturnBytes b).latch = s.latch := rfl
@[simp] theorem State.codecReturnBytes_status (b : List Byte) : (s.codecReturnBytes b).status = s.status := rfl
@[simp] theorem State.codecReturnBytes_result (b : List Byte) : (s.codecReturnBytes b).result = s.result := rfl
@[simp] theorem State.codecReturnBytes_faultLog (b : List Byte) : (s.codecReturnBytes b).faultLog = s.faultLog := rfl
@[simp] theorem State.codecReturnBytes_phase (b : List Byte) : (s.codecReturnBytes b).phase = s.phase := rfl
@[simp] theorem State.codecReturnBytes_trace (b : List Byte) : (s.codecReturnBytes b).trace = s.trace := rfl
@[simp] theorem State.codecReturnBytes_mem (b : List Byte) : (s.codecReturnBytes b).mem = s.mem := rfl
@[simp] theorem State.codecReturnBytes_answers (b : List Byte) : (s.codecReturnBytes b).answers = s.answers := rfl
@[simp] theorem State.codecReturnBytes_draws (b : List Byte) : (s.codecReturnBytes b).draws = s.draws := rfl
@[simp] theorem State.codecReturnBytes_inputs (b : List Byte) : (s.codecReturnBytes b).inputs = s.inputs := rfl
@[simp] theorem State.codecReturnBytes_hostReads (b : List Byte) : (s.codecReturnBytes b).hostReads = s.hostReads := rfl
@[simp] theorem State.codecReturnBytes_codec (b : List Byte) : (s.codecReturnBytes b).codec = { s.codec with request := none, bytes := b } := rfl

@[simp] theorem State.codecReturnColor_cfg (c : U16) : (s.codecReturnColor c).cfg = s.cfg := rfl
@[simp] theorem State.codecReturnColor_regs (c : U16) : (s.codecReturnColor c).regs = s.regs := rfl
@[simp] theorem State.codecReturnColor_latch (c : U16) : (s.codecReturnColor c).latch = s.latch := rfl
@[simp] theorem State.codecReturnColor_status (c : U16) : (s.codecReturnColor c).status = s.status := rfl
@[simp] theorem State.codecReturnColor_result (c : U16) : (s.codecReturnColor c).result = s.result := rfl
@[simp] theorem State.codecReturnColor_faultLog (c : U16) : (s.codecReturnColor c).faultLog = s.faultLog := rfl
@[simp] theorem State.codecReturnColor_phase (c : U16) : (s.codecReturnColor c).phase = s.phase := rfl
@[simp] theorem State.codecReturnColor_trace (c : U16) : (s.codecReturnColor c).trace = s.trace := rfl
@[simp] theorem State.codecReturnColor_mem (c : U16) : (s.codecReturnColor c).mem = s.mem := rfl
@[simp] theorem State.codecReturnColor_answers (c : U16) : (s.codecReturnColor c).answers = s.answers := rfl
@[simp] theorem State.codecReturnColor_draws (c : U16) : (s.codecReturnColor c).draws = s.draws := rfl
@[simp] theorem State.codecReturnColor_inputs (c : U16) : (s.codecReturnColor c).inputs = s.inputs := rfl
@[simp] theorem State.codecReturnColor_hostReads (c : U16) : (s.codecReturnColor c).hostReads = s.hostReads := rfl
@[simp] theorem State.codecReturnColor_codec (c : U16) : (s.codecReturnColor c).codec = { s.codec with request := none, color := c } := rfl

@[simp] theorem State.startupDone_cfg : (s.startupDone).cfg = s.cfg := rfl
@[simp] theorem State.startupDone_regs : (s.startupDone).regs = s.regs := rfl
@[simp] theorem State.startupDone_latch : (s.startupDone).latch = s.latch := rfl
@[simp] theorem State.startupDone_status : (s.startupDone).status = { s.status with busy := false, ready := true, code := .ok } := rfl
@[simp] theorem State.startupDone_result : (s.startupDone).result = s.result := rfl
@[simp] theorem State.startupDone_faultLog : (s.startupDone).faultLog = s.faultLog ||| Code.ok.faultBit := rfl
@[simp] theorem State.startupDone_phase : (s.startupDone).phase = s.status.idlePhase := rfl
@[simp] theorem State.startupDone_trace : (s.startupDone).trace = s.trace := rfl
@[simp] theorem State.startupDone_mem : (s.startupDone).mem = s.mem := rfl
@[simp] theorem State.startupDone_answers : (s.startupDone).answers = s.answers := rfl
@[simp] theorem State.startupDone_draws : (s.startupDone).draws = s.draws := rfl
@[simp] theorem State.startupDone_inputs : (s.startupDone).inputs = s.inputs := rfl
@[simp] theorem State.startupDone_hostReads : (s.startupDone).hostReads = s.hostReads := rfl
@[simp] theorem State.startupDone_codec : (s.startupDone).codec = s.codec := rfl

@[simp] theorem State.startupFailed_cfg : (s.startupFailed).cfg = s.cfg := rfl
@[simp] theorem State.startupFailed_regs : (s.startupFailed).regs = s.regs := rfl
@[simp] theorem State.startupFailed_latch : (s.startupFailed).latch = s.latch := rfl
@[simp] theorem State.startupFailed_status : (s.startupFailed).status = { s.status with busy := false, dead := true, code := .transportError } := rfl
@[simp] theorem State.startupFailed_result : (s.startupFailed).result = s.result := rfl
@[simp] theorem State.startupFailed_faultLog : (s.startupFailed).faultLog = s.faultLog ||| Code.transportError.faultBit := rfl
@[simp] theorem State.startupFailed_phase : (s.startupFailed).phase = .idleDead := rfl
@[simp] theorem State.startupFailed_trace : (s.startupFailed).trace = s.trace := rfl
@[simp] theorem State.startupFailed_mem : (s.startupFailed).mem = s.mem := rfl
@[simp] theorem State.startupFailed_answers : (s.startupFailed).answers = s.answers := rfl
@[simp] theorem State.startupFailed_draws : (s.startupFailed).draws = s.draws := rfl
@[simp] theorem State.startupFailed_inputs : (s.startupFailed).inputs = s.inputs := rfl
@[simp] theorem State.startupFailed_hostReads : (s.startupFailed).hostReads = s.hostReads := rfl
@[simp] theorem State.startupFailed_codec : (s.startupFailed).codec = s.codec := rfl

@[simp] theorem State.hardReset_cfg : (s.hardReset).cfg = s.cfg := rfl
@[simp] theorem State.hardReset_regs : (s.hardReset).regs = CommandWords.ofCmd 0 := rfl
@[simp] theorem State.hardReset_latch : (s.hardReset).latch = CommandWords.ofCmd 0 := rfl
@[simp] theorem State.hardReset_status : (s.hardReset).status = { busy := true, ready := false, dead := false, code := .ok } := rfl
@[simp] theorem State.hardReset_result : (s.hardReset).result = 0 := rfl
@[simp] theorem State.hardReset_faultLog : (s.hardReset).faultLog = 0 := rfl
@[simp] theorem State.hardReset_phase : (s.hardReset).phase = .startup (startupEvents s.cfg) := rfl
@[simp] theorem State.hardReset_trace : (s.hardReset).trace = [] := rfl
@[simp] theorem State.hardReset_mem : (s.hardReset).mem = s.mem := rfl
@[simp] theorem State.hardReset_answers : (s.hardReset).answers = s.answers := rfl
@[simp] theorem State.hardReset_draws : (s.hardReset).draws = s.draws := rfl
@[simp] theorem State.hardReset_inputs : (s.hardReset).inputs = s.inputs := rfl
@[simp] theorem State.hardReset_hostReads : (s.hardReset).hostReads = s.hostReads := rfl
@[simp] theorem State.hardReset_codec : (s.hardReset).codec = Codec.atReset := rfl

end

end Sys2Proof.Machine
end

