-- ==== Sys2Proof/Laws/Ops.lean ====
section
/-! SUPPORT. What each shared operation can do, said once: drawing an outcome, performing an event, performing the events
of an operation, carrying out a launch. -/

namespace Sys2Proof.Machine

/-- `s'` is `s` after some events: only the trace and the transport's answers moved on. -/
def State.eventful (s s' : State) : Prop :=
  s' = { s with trace := s'.trace, answers := s'.answers, draws := s'.draws }

theorem State.eventful_refl (s : State) : s.eventful s := rfl

theorem State.eventful_trans {s s' s'' : State} (h : s.eventful s') (h' : s'.eventful s'') : s.eventful s'' := by
  unfold State.eventful at *
  rw [h', h]

/-- Drawing an outcome moves the transport's answers on and nothing else. -/
theorem State.draw_eventful (s : State) (e : BusEvent) : s.eventful (s.draw e).2 := by
  unfold State.draw State.eventful
  split <;> rfl

/-- Performing an event moves the transport's answers on and appends exactly that event to the trace. -/
theorem State.perform_cases {s s' : State} {e : BusEvent} {a : Answer} (h : s.perform e = (a, s')) :
    s.eventful s' ∧ s'.trace = s.trace ++ [{ event := e, answer := a }] := by
  have hd := State.draw_eventful s e
  simp only [State.perform, Prod.mk.injEq] at h
  obtain ⟨rfl, rfl⟩ := h
  refine ⟨?_, ?_⟩
  · unfold State.eventful State.record at *
    rw [hd]
  · unfold State.eventful at hd
    rw [State.record_trace, hd]
    simp only [State.draw]
    split <;> rfl

/-- A successful read returned exactly the bytes asked for (20_memory.md R67). -/
theorem State.draw_read_length {s : State} {c : Option Byte} {n : Nat} {bytes : List Byte}
    (h : (s.draw (.read c n)).1 = .ok bytes) : bytes.length = n := by
  unfold State.draw at h
  simp only [BusEvent.drawsAnswer] at h
  split at h
  · simp_all
  · rename_i a _ _ _
    cases a with
    | ok b =>
      simp only [Answer.fit] at h
      split at h
      · rename_i hl
        rw [Answer.ok.injEq] at h
        rw [← h]; exact hl
      · exact absurd h (by simp)
    | fail => exact absurd h (by simp [Answer.fit])
  · simp only [freeAnswer] at h
    split at h
    · rw [Answer.ok.injEq] at h
      simp [← h]
    · exact absurd h (by simp)

/-- What performing the events of an operation can do: all of them succeed and the operation finishes, or it stops with
`TRANSPORT_ERROR` after the first that fails. -/
theorem State.runEvents_cases (todo : List BusEvent) (onOk : OnOk) :
    ∀ (received : List Byte) (s : State),
      (∃ s' bytes answers, s.eventful s' ∧ answers.length = todo.length ∧
        (∀ a ∈ answers, a ≠ .fail) ∧
        s'.trace = s.trace ++ List.zipWith TraceEntry.mk todo answers ∧
        State.runEvents todo onOk received s = s'.finish onOk bytes) ∨
      (∃ done e rest s' answers, todo = done ++ e :: rest ∧ s.eventful s' ∧ answers.length = done.length ∧
        (∀ a ∈ answers, a ≠ .fail) ∧
        s'.trace = s.trace ++ List.zipWith TraceEntry.mk done answers ++ [{ event := e, answer := .fail }] ∧
        State.runEvents todo onOk received s = s'.complete .transportError) := by
  induction todo with
  | nil =>
    intro received s
    exact .inl ⟨s, received, [], s.eventful_refl, rfl, by simp, by simp, rfl⟩
  | cons e todo ih =>
    intro received s
    rcases hp : s.perform e with ⟨a, s1⟩
    obtain ⟨hm, ht⟩ := State.perform_cases hp
    cases a with
    | fail =>
      refine .inr ⟨[], e, todo, s1, [], rfl, hm, rfl, by simp, by simp [ht], ?_⟩
      simp [State.runEvents, hp]
    | ok bytes =>
      have hr : State.runEvents (e :: todo) onOk received s = State.runEvents todo onOk bytes s1 := by
        simp [State.runEvents, hp]
      rw [hr]
      rcases ih bytes s1 with ⟨s', b, as, h1, h2, h3, h4, h5⟩ | ⟨dn, e', rest, s', as, h0, h1, h2, h3, h4, h5⟩
      · refine .inl ⟨s', b, .ok bytes :: as, State.eventful_trans hm h1, by simp [h2], by simpa using h3, ?_, h5⟩
        simp [h4, ht]
      · refine .inr ⟨e :: dn, e', rest, s', .ok bytes :: as, by simp [h0], State.eventful_trans hm h1, by simp [h2],
          by simpa using h3, ?_, h5⟩
        simp [h4, ht]

/-- What carrying out a launch can do. -/
theorem Launch.run_cases {l : Launch} {s t : State} (h : l.run s = .next t) :
    (∃ c, l = .stop c ∧ t = s.complete c) ∨
    (∃ v, l = .value v ∧ t = (s.setResult v).complete .ok) ∨
    (∃ todo onOk, l = .events todo onOk ∧ t = s.runEvents todo onOk []) ∨
    (∃ b, l = .codecBytes b ∧ t = s.codecReturnBytes b) ∨
    (∃ c, l = .codecColor c ∧ t = s.codecReturnColor c) := by
  cases l <;> simp_all [Launch.run]

/-- Executing an instruction carries out its launch. -/
theorem exec_eq_run (i : Instr) (s : State) : exec i s = (launchOf i s).run s := by
  cases i <;> rfl

/-- The event is a write transaction. -/
def BusEvent.isWrite : BusEvent → Bool
  | .write _ _ => true
  | .read _ _ => false
  | .rst _ => false
  | .wait _ => false

/-- A write transaction that the transport's next answer accepts. -/
theorem State.perform_write_ok {s : State} {e : BusEvent} {rest : List Answer} (he : e.isWrite = true)
    (h : s.answers = .ok [] :: rest) :
    s.perform e =
      (.ok [], { s with answers := rest, trace := s.trace ++ [{ event := e, answer := .ok [] }] }) := by
  cases e <;> simp_all [BusEvent.isWrite, State.perform, State.draw, BusEvent.drawsAnswer, Answer.fit, State.record]

/-- An event other than `WAIT` that the transport's next answer fails. -/
theorem State.perform_fail {s : State} {e : BusEvent} {rest : List Answer} (he : e.drawsAnswer = true)
    (h : s.answers = .fail :: rest) :
    s.perform e =
      (.fail, { s with answers := rest, trace := s.trace ++ [{ event := e, answer := .fail }] }) := by
  cases e <;> simp_all [State.perform, State.draw, BusEvent.drawsAnswer, Answer.fit, State.record]

/-- Writes that the transport accepts one after another are performed and left behind. -/
theorem State.runEvents_append_ok (es after : List BusEvent) (onOk : OnOk) :
    ∀ (s : State) (received : List Byte) (rest : List Answer),
      (∀ e ∈ es, e.isWrite = true) → s.answers = okAnswers es.length ++ rest →
      State.runEvents (es ++ after) onOk received s =
        State.runEvents after onOk (if es = [] then received else [])
          { s with answers := rest, trace := s.trace ++ okEntries es } := by
  induction es with
  | nil =>
    intro s received rest _ h
    simp only [okAnswers, List.length_nil, List.replicate_zero, List.nil_append] at h
    simp [okEntries, ← h]
  | cons e es ih =>
    intro s received rest he h
    have h' : s.answers = .ok [] :: (okAnswers es.length ++ rest) := by
      rw [h]; rfl
    rw [List.cons_append, State.runEvents, State.perform_write_ok (he e (by simp)) h']
    simp only
    rw [ih _ [] rest (fun e' h' => he e' (by simp [h'])) rfl]
    simp [okEntries]

/-- An operation that only writes, all of it accepted. -/
theorem State.runEvents_ok {es : List BusEvent} {s : State} {rest : List Answer} (he : ∀ e ∈ es, e.isWrite = true)
    (h : s.answers = okAnswers es.length ++ rest) :
    State.runEvents es .nothing [] s =
      ({ s with answers := rest, trace := s.trace ++ okEntries es } : State).complete .ok := by
  have := State.runEvents_append_ok es [] .nothing s [] rest he h
  rw [List.append_nil] at this
  rw [this]
  rfl

/-- Every event of a window write is a write. -/
theorem windowWrite_events {cfg : Config} {r : Rect} {p : List Byte} {raw todo : List BusEvent} {k : OnOk}
    (h : windowWrite cfg r p raw = .events todo k) :
    ∃ cs ps rw, cfg.cmdColumnSet = some cs ∧ cfg.cmdPageSet = some ps ∧ cfg.cmdRamWrite = some rw ∧
      todo = writeWindowEvents cs ps rw r p ++ raw ∧ k = .nothing := by
  unfold windowWrite at h
  split at h
  · rename_i cs ps rw h1 h2 h3
    simp only [Launch.events.injEq] at h
    exact ⟨cs, ps, rw, h1, h2, h3, h.1.symm, h.2.symm⟩
  · simp at h

/-- Every event of a window read, and what comes of it. -/
theorem windowRead_events {cfg : Config} {r : Rect} {todo : List BusEvent} {k : OnOk}
    (h : windowRead cfg r = .events todo k) :
    ∃ cs ps rd, cfg.cmdColumnSet = some cs ∧ cfg.cmdPageSet = some ps ∧ cfg.cmdRamRead = some rd ∧
      todo = readWindowEvents cs ps rd r ∧ k = .decodeResult := by
  unfold windowRead at h
  split at h
  · rename_i cs ps rd h1 h2 h3
    simp only [Launch.events.injEq] at h
    exact ⟨cs, ps, rd, h1, h2, h3, h.1.symm, h.2.symm⟩
  · simp at h

/-- The raw writes of a fill are data-only writes. -/
theorem chunkEvents_raw {cfg : Config} {total : Nat} {color : U16} {e : BusEvent}
    (h : e ∈ chunkEvents cfg total color) : ∃ data, e = .write none data := by
  have hb : ∀ d : List Byte, e ∈ busWrite none d → ∃ data, e = .write none data := by
    intro d hd
    cases d with
    | nil => simp [busWrite] at hd
    | cons b d => simp [busWrite] at hd; exact ⟨_, hd⟩
  simp only [chunkEvents, List.mem_append, List.mem_flatten, List.mem_replicate] at h
  rcases h with ⟨l, ⟨-, rfl⟩, h⟩ | h
  · exact hb _ h
  · exact hb _ h

/-- What an operation's rule can decide: a stop, `COLOR565`'s value, the window and raw writes of a writing operation, or
the one-pixel window read of `PIXEL_GET`; only `BLIT` can be refused. -/
theorem launchOf_cases {i : Instr} {s : State} (hi : i.isOperation = true) :
    (∃ c, launchOf i s = .stop c) ∨ (∃ v, launchOf i s = .value v) ∨ (∃ why, launchOf i s = .refuse why) ∨
    (∃ cs ps rw r p raw, s.cfg.cmdColumnSet = some cs ∧ s.cfg.cmdPageSet = some ps ∧ s.cfg.cmdRamWrite = some rw ∧
      launchOf i s = .events (writeWindowEvents cs ps rw r p ++ raw) .nothing ∧
      (raw = [] ∨ ∃ total color, raw = chunkEvents s.cfg total color)) ∨
    (∃ cs ps rd x y, s.cfg.cmdColumnSet = some cs ∧ s.cfg.cmdPageSet = some ps ∧ s.cfg.cmdRamRead = some rd ∧
      launchOf i s = .events (readWindowEvents cs ps rd (pixelRect x y)) .decodeResult) := by
  have hw : ∀ (r : Rect) (p : List Byte) (raw : List BusEvent),
      (∃ c, windowWrite s.cfg r p raw = .stop c) ∨
      (∃ cs ps rw, s.cfg.cmdColumnSet = some cs ∧ s.cfg.cmdPageSet = some ps ∧ s.cfg.cmdRamWrite = some rw ∧
        windowWrite s.cfg r p raw = .events (writeWindowEvents cs ps rw r p ++ raw) .nothing) := by
    intro r p raw
    unfold windowWrite
    split
    · rename_i cs ps rw h1 h2 h3
      exact .inr ⟨cs, ps, rw, h1, h2, h3, rfl⟩
    · exact .inl ⟨_, rfl⟩
  have hr : ∀ r : Rect,
      (∃ c, windowRead s.cfg r = .stop c) ∨
      (∃ cs ps rd, s.cfg.cmdColumnSet = some cs ∧ s.cfg.cmdPageSet = some ps ∧ s.cfg.cmdRamRead = some rd ∧
        windowRead s.cfg r = .events (readWindowEvents cs ps rd r) .decodeResult) := by
    intro r
    unfold windowRead
    split
    · rename_i cs ps rd h1 h2 h3
      exact .inr ⟨cs, ps, rd, h1, h2, h3, rfl⟩
    · exact .inl ⟨_, rfl⟩
  have hfill : ∀ (x y w h : Int) (color : U16), launchOf i s = launchFillRect x y w h color s →
      (∃ c, launchOf i s = .stop c) ∨
      (∃ cs ps rw r p raw, s.cfg.cmdColumnSet = some cs ∧ s.cfg.cmdPageSet = some ps ∧ s.cfg.cmdRamWrite = some rw ∧
        launchOf i s = .events (writeWindowEvents cs ps rw r p ++ raw) .nothing ∧
        (raw = [] ∨ ∃ total color, raw = chunkEvents s.cfg total color)) := by
    intro x y w h color he
    rw [he]
    unfold launchFillRect unlessDead
    split
    · exact .inl ⟨_, rfl⟩
    · rcases hw (clampedRect s.cfg x y w h) [] (chunkEvents s.cfg (fillTotal s.cfg x y w h) color) with
        h1 | ⟨cs, ps, rw, h1, h2, h3, h4⟩
      · exact .inl h1
      · exact .inr ⟨cs, ps, rw, _, _, _, h1, h2, h3, h4, .inr ⟨_, _, rfl⟩⟩
  cases i with
  | pixelGet x y =>
    simp only [launchOf, launchPixelGet, unlessDead]
    split
    · exact .inl ⟨_, rfl⟩
    · split
      · rcases hr (pixelRect x y) with h1 | ⟨cs, ps, rd, h1, h2, h3, h4⟩
        · exact .inl h1
        · exact .inr (.inr (.inr (.inr ⟨cs, ps, rd, x, y, h1, h2, h3, h4⟩)))
      · exact .inl ⟨_, rfl⟩
  | pixelSet x y color =>
    simp only [launchOf, launchPixelSet, unlessDead]
    split
    · exact .inl ⟨_, rfl⟩
    · split
      · rcases hw (pixelRect x y) (encodePixel color) [] with h1 | ⟨cs, ps, rw, h1, h2, h3, h4⟩
        · exact .inl h1
        · exact .inr (.inr (.inr (.inl ⟨cs, ps, rw, _, _, _, h1, h2, h3, h4, .inl rfl⟩)))
      · exact .inl ⟨_, rfl⟩
  | fillRect x y w h color => exact (hfill x y w h color rfl).imp_right (fun h => .inr (.inr (.inl h)))
  | fill color => exact (hfill 0 0 s.cfg.width s.cfg.height color rfl).imp_right (fun h => .inr (.inr (.inl h)))
  | hline x y w color => exact (hfill x y w 1 color rfl).imp_right (fun h => .inr (.inr (.inl h)))
  | vline x y h color => exact (hfill x y 1 h color rfl).imp_right (fun h => .inr (.inr (.inl h)))
  | blit addr len x y w h =>
    simp only [launchOf, launchBlit, refuseOverlap, unlessDead]
    split
    · exact .inr (.inr (.inl ⟨_, rfl⟩))
    · split
      · exact .inl ⟨_, rfl⟩
      · split
        · split
          · rcases hw (sizedRect x y w h) (s.mem.readBytes addr len) [] with h1 | ⟨cs, ps, rw, h1, h2, h3, h4⟩
            · exact .inl h1
            · exact .inr (.inr (.inr (.inl ⟨cs, ps, rw, _, _, _, h1, h2, h3, h4, .inl rfl⟩)))
          · exact .inl ⟨_, rfl⟩
        · exact .inl ⟨_, rfl⟩
  | color565 r g b => exact .inr (.inl ⟨_, rfl⟩)
  | encodePosition a b => simp [Instr.isOperation] at hi
  | encodePixel c => simp [Instr.isOperation] at hi
  | decodePixel b0 b1 b2 => simp [Instr.isOperation] at hi

end Sys2Proof.Machine
end

