-- ==== Sys2Proof/Laws/PerInstr.lean ====
section
/-! SUPPORT. A family of statements about every instruction as syntax: its frame carries its operation code. -/

namespace Sys2Proof.Laws

/-- The command word of an operation's frame is its operation code, with the reserved bits zero (30_encoding.md R101,
R102); a wire function has bytes and no operation code (41_window_accessor.md R157). -/
def CarriesOpcode.Statement (i : Instr) : Prop :=
  match encode i with
  | .command c => Machine.opcodeOf i = some c.cmd ∧ c.reserved = 0#24 ∧ i.isOperation = true
  | .wire bytes => Machine.opcodeOf i = none ∧ bytes.length ∈ [2, 3, 4] ∧ i.isOperation = false

theorem CarriesOpcode.pixelGet (x y : Int) : CarriesOpcode.Statement (.pixelGet x y) := ⟨rfl, by simp [CommandWords.reserved, CommandWords.ofCmd], rfl⟩

theorem CarriesOpcode.pixelSet (x y : Int) (color : U16) : CarriesOpcode.Statement (.pixelSet x y color) :=
  ⟨rfl, by simp [CommandWords.reserved, CommandWords.ofCmd], rfl⟩

theorem CarriesOpcode.fillRect (x y w h : Int) (color : U16) : CarriesOpcode.Statement (.fillRect x y w h color) :=
  ⟨rfl, by simp [CommandWords.reserved, CommandWords.ofCmd], rfl⟩

theorem CarriesOpcode.fill (color : U16) : CarriesOpcode.Statement (.fill color) := ⟨rfl, by simp [CommandWords.reserved, CommandWords.ofCmd], rfl⟩

theorem CarriesOpcode.hline (x y w : Int) (color : U16) : CarriesOpcode.Statement (.hline x y w color) :=
  ⟨rfl, by simp [CommandWords.reserved, CommandWords.ofCmd], rfl⟩

theorem CarriesOpcode.vline (x y h : Int) (color : U16) : CarriesOpcode.Statement (.vline x y h color) :=
  ⟨rfl, by simp [CommandWords.reserved, CommandWords.ofCmd], rfl⟩

theorem CarriesOpcode.blit (addr len : Nat) (x y w h : Int) : CarriesOpcode.Statement (.blit addr len x y w h) :=
  ⟨rfl, by simp [CommandWords.reserved, CommandWords.ofCmd], rfl⟩

theorem CarriesOpcode.color565 (r g b : Byte) : CarriesOpcode.Statement (.color565 r g b) := ⟨rfl, by simp [CommandWords.reserved, CommandWords.ofCmd], rfl⟩

theorem CarriesOpcode.encodePosition (a b : U16) : CarriesOpcode.Statement (.encodePosition a b) :=
  ⟨rfl, by simp, rfl⟩

theorem CarriesOpcode.encodePixel (c : U16) : CarriesOpcode.Statement (.encodePixel c) := ⟨rfl, by simp, rfl⟩

theorem CarriesOpcode.decodePixel (b0 b1 b2 : Byte) : CarriesOpcode.Statement (.decodePixel b0 b1 b2) :=
  ⟨rfl, by simp, rfl⟩

end Sys2Proof.Laws
end

