-- ==== Sys2Proof/Laws/Step.lean ====
section
/-! SUPPORT. What one step can do, said once: whose move it is, and what each move can do. -/

namespace Sys2Proof.Machine

/-- A legal command word is never one of the wire functions (30_encoding.md R102). -/
theorem decodeCommand_isOperation {c : CommandWords} {i : Instr} (h : decodeCommand c = .instr i) :
    i.isOperation = true := by
  unfold decodeCommand at h
  split at h
  · simp at h
  · split at h <;> simp only [Decoded.instr.injEq, reduceCtorEq] at h <;> subst h <;> rfl

/-- A codec function presented on the port returns its value there and does nothing else (log 8). -/
theorem runWire_cases {bytes : List Byte} {s t : State} (h : runWire bytes s = .next t) :
    t = { s with codec := t.codec } := by
  unfold runWire at h
  split at h
  · rename_i i hd
    unfold decodeWire at hd
    split at hd <;> simp only [Decoded.instr.injEq, reduceCtorEq] at hd <;> subst hd <;>
      simp only [exec, execEncodePixel, execDecodePixel, execEncodePosition, launchEncodePixel, launchDecodePixel,
        launchEncodePosition, Launch.run, Host.Outcome.next.injEq] at h <;> subst h <;> rfl
  · simp at h

/-- What executing an operation to a next state can do: stop with a code, write the value of `COLOR565`, or perform
events. -/
theorem exec_operation_cases {i : Instr} {s t : State} (hi : i.isOperation = true) (h : exec i s = .next t) :
    (∃ c, launchOf i s = .stop c ∧ t = s.complete c) ∨
    (∃ v, launchOf i s = .value v ∧ t = (s.setResult v).complete .ok) ∨
    (∃ todo onOk, launchOf i s = .events todo onOk ∧ t = s.runEvents todo onOk []) := by
  rw [exec_eq_run] at h
  rcases Launch.run_cases h with h1 | h1 | h1 | ⟨b, h1, -⟩ | ⟨c, h1, -⟩
  · exact .inl h1
  · exact .inr (.inl h1)
  · exact .inr (.inr h1)
  all_goals
    rcases launchOf_cases (s := s) hi with ⟨_, e⟩ | ⟨_, e⟩ | ⟨_, e⟩ | ⟨_, _, _, _, _, _, -, -, -, e, -⟩ |
      ⟨_, _, _, _, _, -, -, -, e⟩ <;> simp [h1] at e

/-- The events of an operation that decodes a pixel end with a read of three bytes (40_pixel_codec.md R133). -/
theorem readWindowEvents_pixel (cs ps rd : Byte) (x y : Int) :
    readWindowEvents cs ps rd (pixelRect x y) =
      [.write (some cs) (encodePosition (toU16 x) (toU16 x)), .write (some ps) (encodePosition (toU16 y) (toU16 y)),
       .read (some rd) 3] := by
  have : (pixelRect x y).pixels = 1 := by
    simp only [Rect.pixels, pixelRect]
    rw [show x - x + 1 = 1 by omega, show y - y + 1 = 1 by omega]
    rfl
  simp only [readWindowEvents, programWindow, this]
  rfl

/-- Whose move a step is, and what it does: a codec function on the port, the block going on alone or while the host
polls, or the host's next input. -/
theorem step_cases {s t : State} (h : step s = .next t) :
    s.cfg.wf = true ∧
    ((∃ bytes, s.codec.request = some bytes ∧ runWire bytes s = .next t) ∨
     (s.codec.request = none ∧ (s.inputs = [] ∨ (s.status.busy = true ∧ ∃ rest, s.inputs = .await :: rest)) ∧
        proceed s = .next t) ∨
     (s.codec.request = none ∧ ∃ i rest, s.inputs = i :: rest ∧ (i = .await → s.status.busy = false) ∧
        takeInput i { s with inputs := rest } = .next t)) := by
  unfold step at h
  split at h
  · rename_i hw
    refine ⟨hw, ?_⟩
    unfold admittedStep at h
    split at h
    · rename_i bytes hr
      exact .inl ⟨bytes, hr, h⟩
    · rename_i hr
      unfold inputStep at h
      split at h
      · rename_i hi
        exact .inr (.inl ⟨hr, .inl hi, h⟩)
      · rename_i rest hi
        split at h
        · rename_i hb
          exact .inr (.inl ⟨hr, .inr ⟨hb, rest, hi⟩, h⟩)
        · rename_i hb
          exact .inr (.inr ⟨hr, _, rest, hi, fun _ => by simpa using hb, h⟩)
      · rename_i i rest hne hi
        exact .inr (.inr ⟨hr, i, rest, hi, fun e => absurd e hne, h⟩)
  · simp at h

/-- What a move of the block by at most one event can do, by its phase. -/
theorem advance_cases {s t : State} (h : advance s = .next t) :
    (∃ todo, s.phase = .startup todo ∧ t = startupMove todo s) ∨
    ((s.phase = .idle ∨ s.phase = .idleDead) ∧ t = s) ∨
    (s.phase = .runEntry ∧ enterLatched s = .next t) ∨
    (∃ todo onOk received, s.phase = .runEvents todo onOk received ∧ t = eventMove todo onOk received s) := by
  unfold advance at h
  split at h <;> simp_all

/-- What the block does while nobody looks: a latched operation whole, else one move. -/
theorem proceed_cases {s t : State} (h : proceed s = .next t) :
    (s.phase = .runEntry ∧ runLatched s = .next t) ∨ (s.phase ≠ .runEntry ∧ advance s = .next t) := by
  unfold proceed at h
  split at h <;> simp_all

/-- What one input can do. -/
theorem takeInput_cases {i : Input} {s t : State} (h : takeInput i s = .next t) :
    (∃ offset size v, i = .write offset size v ∧ t = s.writeReg offset v) ∨
    (∃ offset size, i = .read offset size ∧
      t = { s with hostReads := s.hostReads ++ [{ offset := offset, value := s.readReg offset }] }) ∨
    (∃ a b, i = .memWrite a b ∧ a < Memory.size ∧ t = { s with mem := s.mem.write a b }) ∨
    (i = .await ∧ t = s) ∨ (i = .turn ∧ advance s = .next t) ∨ (i = .hardReset ∧ t = s.hardReset) := by
  cases i with
  | write offset size v =>
    simp only [takeInput, hostWrite] at h
    split at h
    · simp at h
    · simp_all
  | read offset size =>
    simp only [takeInput, hostRead] at h
    split at h
    · simp at h
    · simp_all
  | memWrite a b =>
    simp only [takeInput, hostStore] at h
    split at h
    · split at h
      · simp at h
      · split at h
        · simp at h
        · simp_all
    · simp at h
  | await => simp_all [takeInput]
  | turn => simp_all [takeInput]
  | hardReset => simp_all [takeInput]

/-- What a register write leaves: only a doorbell touches more than an operand register. -/
theorem State.writeReg_cases (s : State) (offset : Nat) (v : Word) :
    s.writeReg offset v = { s with regs := (s.writeReg offset v).regs } ∨ s.writeReg offset v = s.doorbell v := by
  unfold State.writeReg
  split <;> first | exact .inr rfl | exact .inl rfl

end Sys2Proof.Machine
end

