-- ==== Sys2Proof/Tests/Slice0.lean ====
section
/-! SUPPORT. The model's own tests: ill-formed terms refused, written-out words decoded, vectors of 95_test_vectors.md, and
for every statement with hypotheses a concrete state and operands that meet them. Expected values are the spec's. -/

namespace Sys2Proof.Tests

open Sys2Proof.Machine

/-! ## Ill-formed terms are refused, each check once -/

theorem test_wf_pixelGet_x : Instr.wf (.pixelGet 2147483648 0) = false := by decide
theorem test_wf_pixelGet_y : Instr.wf (.pixelGet 0 (-2147483649)) = false := by decide
theorem test_wf_pixelSet_x : Instr.wf (.pixelSet (-2147483649) 0 0) = false := by decide
theorem test_wf_pixelSet_y : Instr.wf (.pixelSet 0 2147483648 0) = false := by decide
theorem test_wf_fillRect_x : Instr.wf (.fillRect 2147483648 0 0 0 0) = false := by decide
theorem test_wf_fillRect_y : Instr.wf (.fillRect 0 2147483648 0 0 0) = false := by decide
theorem test_wf_fillRect_w : Instr.wf (.fillRect 0 0 2147483648 0 0) = false := by decide
theorem test_wf_fillRect_h : Instr.wf (.fillRect 0 0 0 (-2147483649) 0) = false := by decide
theorem test_wf_hline_x : Instr.wf (.hline 2147483648 0 0 0) = false := by decide
theorem test_wf_hline_y : Instr.wf (.hline 0 2147483648 0 0) = false := by decide
theorem test_wf_hline_w : Instr.wf (.hline 0 0 2147483648 0) = false := by decide
theorem test_wf_vline_x : Instr.wf (.vline 2147483648 0 0 0) = false := by decide
theorem test_wf_vline_y : Instr.wf (.vline 0 2147483648 0 0) = false := by decide
theorem test_wf_vline_h : Instr.wf (.vline 0 0 2147483648 0) = false := by decide
theorem test_wf_blit_addr : Instr.wf (.blit 4294967296 0 0 0 0 0) = false := by decide
theorem test_wf_blit_len : Instr.wf (.blit 0 4294967296 0 0 0 0) = false := by decide
theorem test_wf_blit_x : Instr.wf (.blit 0 0 2147483648 0 0 0) = false := by decide
theorem test_wf_blit_y : Instr.wf (.blit 0 0 0 2147483648 0 0) = false := by decide
theorem test_wf_blit_w : Instr.wf (.blit 0 0 0 0 2147483648 0) = false := by decide
theorem test_wf_blit_h : Instr.wf (.blit 0 0 0 0 0 2147483648) = false := by decide

/-- The example profile of 95_test_vectors.md section 0 (00_scope.md R8 admits it). -/
def profile : Config := Config.exampleProfile

theorem test_config_wf : profile.wf = true := by decide
theorem test_config_wf_width_low : ({ profile with width := 0 } : Config).wf = false := by decide
theorem test_config_wf_width_high : ({ profile with width := 65537 } : Config).wf = false := by decide
theorem test_config_wf_height_low : ({ profile with height := 0 } : Config).wf = false := by decide
theorem test_config_wf_height_high : ({ profile with height := 65537 } : Config).wf = false := by decide
theorem test_config_wf_chunk : ({ profile with chunkPixels := 0 } : Config).wf = false := by decide
theorem test_config_wf_pixel_write : ({ profile with pixelWrBytes := 3 } : Config).wf = false := by decide
theorem test_config_wf_position : ({ profile with posBytes := 2 } : Config).wf = false := by decide
theorem test_config_wf_pixel_read : ({ profile with pixelRdBytes := 2 } : Config).wf = false := by decide
theorem test_config_wf_arg_bits : ({ profile with argBits := 16 } : Config).wf = false := by decide
theorem test_config_wf_addr_bits : ({ profile with addrBits := 16 } : Config).wf = false := by decide

/-! ## Decoding: every constructor from a word written out from 30_encoding.md R101 to R109 -/

theorem test_decode_pixelGet :
    decodeCommand { CommandWords.ofCmd 0x00000001#32 with x := 0x00000005#32, y := 0xFFFFFFFF#32 } =
      .instr (.pixelGet 5 (-1)) := by decide
theorem test_decode_pixelSet :
    decodeCommand { CommandWords.ofCmd 0x00000002#32 with x := 0x80#32, y := 7#32, color := 0xF800#16 } =
      .instr (.pixelSet 128 7 0xF800#16) := by decide
theorem test_decode_fillRect :
    decodeCommand { CommandWords.ofCmd 0x00000003#32 with
      x := 0x78#32, y := 0#32, w := 0x14#32, h := 0x0A#32, color := 0xFFFF#16 } =
      .instr (.fillRect 120 0 20 10 0xFFFF#16) := by decide
theorem test_decode_fill :
    decodeCommand { CommandWords.ofCmd 0x00000004#32 with x := 0xFFFFFFFF#32, color := 0x1234#16 } =
      .instr (.fill 0x1234#16) := by decide
theorem test_decode_hline :
    decodeCommand { CommandWords.ofCmd 0x00000005#32 with
      x := 0x64#32, y := 5#32, w := 0x28#32, h := 77#32, color := 0x07E0#16 } =
      .instr (.hline 100 5 40 0x07E0#16) := by decide
theorem test_decode_vline :
    decodeCommand { CommandWords.ofCmd 0x00000006#32 with
      x := 3#32, y := 5#32, w := 0x28#32, h := 0xC8#32, color := 0x001F#16 } =
      .instr (.vline 3 5 200 0x001F#16) := by decide
theorem test_decode_blit :
    decodeCommand { CommandWords.ofCmd 0x00000007#32 with
      x := 0x0A#32, y := 0x14#32, w := 2#32, h := 0xFFFFFFFF#32, addr := 0xFFFFFFFC#32, len := 8#32 } =
      .instr (.blit 4294967292 8 10 20 2 (-1)) := by decide
theorem test_decode_color565 :
    decodeCommand { CommandWords.ofCmd 0x00000008#32 with rgb := 0x123456#24 } =
      .instr (.color565 0x12#8 0x34#8 0x56#8) := by decide
theorem test_decode_encodePosition :
    decodeWire [0x12#8, 0x34#8, 0xAB#8, 0xCD#8] = .instr (.encodePosition 0x1234#16 0xABCD#16) := by decide
theorem test_decode_encodePixel : decodeWire [0x07#8, 0xE0#8] = .instr (.encodePixel 0x07E0#16) := by decide
theorem test_decode_decodePixel : decodeWire [0xFC#8, 0x01#8, 0x02#8] = .instr (.decodePixel 0xFC#8 1#8 2#8) := by decide

theorem test_decode_reserved_bits :
    decodeCommand (CommandWords.ofCmd 0x00000109#32) = .reject .reservedBits := by decide
theorem test_decode_opcode_zero : decodeCommand (CommandWords.ofCmd 0#32) = .reject .reservedOpcode := by decide
theorem test_decode_opcode_nine : decodeCommand (CommandWords.ofCmd 9#32) = .reject .reservedOpcode := by decide
theorem test_decode_wire_length : decodeWire [1#8] = .reject .wireLength := by decide

theorem test_table_commands :
    decodeTableWord 32 1 = some (.pixelGet 0 0) ∧ decodeTableWord 32 2 = some (.pixelSet 0 0 0) ∧
    decodeTableWord 32 3 = some (.fillRect 0 0 0 0 0) ∧ decodeTableWord 32 4 = some (.fill 0) ∧
    decodeTableWord 32 5 = some (.hline 0 0 0 0) ∧ decodeTableWord 32 6 = some (.vline 0 0 0 0) ∧
    decodeTableWord 32 7 = some (.blit 0 0 0 0 0 0) ∧ decodeTableWord 32 8 = some (.color565 0 0 0) := by decide
theorem test_table_wire :
    decodeTableWord 32 0x1234ABCD = some (.encodePosition 0x1234#16 0xABCD#16) ∧
    decodeTableWord 16 0xF800 = some (.encodePixel 0xF800#16) ∧
    decodeTableWord 24 0x123456 = some (.decodePixel 0x12#8 0x34#8 0x56#8) := by decide

/-! ## One step on small states (95_test_vectors.md) -/

/-- An idle block that has started up. -/
def idle (cfg : Config) : State :=
  { State.powerOn cfg with status := { busy := false, ready := true, dead := false, code := .ok }, phase := .idle }

/-- A dead block (70_reset_and_hazards.md R255). -/
def deadBlock (cfg : Config) : State :=
  { State.powerOn cfg with
    status := { busy := false, ready := false, dead := true, code := .transportError }, phase := .idleDead }

/-- An idle block whose next events are answered so. -/
def answered (answers : List Answer) : State := { idle profile with answers := answers }

/-- The next state of a meaning, `s` itself where there is none. -/
def nextOf (o : Host.Outcome State Fault Refusal) (s : State) : State :=
  match o with
  | .next t => t
  | .fault _ => s
  | .refused _ => s

/-- The events in the trace. -/
def eventsOf (s : State) : List BusEvent := s.trace.map TraceEntry.event

/-- V-P6. -/
theorem test_pixelGet :
    (nextOf (exec (.pixelGet 5 7) (answered [.ok [], .ok [], .ok [0xFC, 0, 0]])) State.reset).result = 0xF800#16 := by
  decide
/-- V-P11. -/
theorem test_pixelGet_range :
    (nextOf (exec (.pixelGet 65536 0) (idle profile)) State.reset).status.code = .encodeRange := by decide
/-- V-P2. -/
theorem test_pixelSet :
    eventsOf (nextOf (exec (.pixelSet 127 159 1) (answered (okAnswers 3))) State.reset) =
      [.write (some 0x2A) [0, 0x7F, 0, 0x7F], .write (some 0x2B) [0, 0x9F, 0, 0x9F],
        .write (some 0x2C) [0, 1]] := by decide
/-- V-P3. -/
theorem test_pixelSet_off : eventsOf (nextOf (exec (.pixelSet 128 7 1) (idle profile)) State.reset) = [] := by decide
/-- V-F3. -/
theorem test_fillRect :
    eventsOf (nextOf (exec (.fillRect 228 0 5 5 0xABCD#16) (answered (okAnswers 4))) State.reset) =
      [.write (some 0x2A) [0, 0x7F, 0, 0x7F], .write (some 0x2B) [0, 0, 0, 4], .write (some 0x2C) [],
        .write none [0xAB, 0xCD, 0xAB, 0xCD, 0xAB, 0xCD, 0xAB, 0xCD, 0xAB, 0xCD]] := by decide
/-- V-F27, the chunk size 1. -/
theorem test_fillRect_chunks :
    eventsOf (nextOf (exec (.fillRect 1 1 2 2 0xAAAA#16)
        { idle { profile with width := 4, height := 4, chunkPixels := 1 } with answers := okAnswers 7 }) State.reset) =
      [.write (some 0x2A) [0, 1, 0, 2], .write (some 0x2B) [0, 1, 0, 2], .write (some 0x2C) [],
        .write none [0xAA, 0xAA], .write none [0xAA, 0xAA], .write none [0xAA, 0xAA],
        .write none [0xAA, 0xAA]] := by decide
/-- V-F28. -/
theorem test_fill :
    (eventsOf (nextOf (exec (.fill 0xBEEF#16)
        { idle { profile with width := 4, height := 4, chunkPixels := 3 } with answers := okAnswers 9 }) State.reset)).drop 6 =
      [.write none [0xBE, 0xEF, 0xBE, 0xEF, 0xBE, 0xEF], .write none [0xBE, 0xEF, 0xBE, 0xEF, 0xBE, 0xEF],
        .write none [0xBE, 0xEF]] := by decide
/-- V-F23. -/
theorem test_hline :
    eventsOf (nextOf (exec (.hline 3 (-9) 0 0x1234#16) (answered (okAnswers 4))) State.reset) =
      [.write (some 0x2A) [0, 3, 0, 3], .write (some 0x2B) [0, 0, 0, 0], .write (some 0x2C) [],
        .write none [0x12, 0x34]] := by decide
/-- V-F24. -/
theorem test_vline :
    eventsOf (nextOf (exec (.vline 500 500 1 0x1234#16) (answered (okAnswers 4))) State.reset) =
      [.write (some 0x2A) [0, 0x7F, 0, 0x7F], .write (some 0x2B) [0, 0x9F, 0, 0x9F], .write (some 0x2C) [],
        .write none [0x12, 0x34]] := by decide

/-- The host memory of 95_test_vectors.md section 2.5; the two bytes that are 0 are not listed. -/
def buffer : Memory :=
  [(0x1000, 0xF8#8), (0x1002, 0x07#8), (0x1003, 0xE0#8), (0x1005, 0x1F#8), (0x1006, 0xFF#8), (0x1007, 0xFF#8)]

/-- V-B1. -/
theorem test_blit :
    eventsOf (nextOf (exec (.blit 0x1000 8 10 20 2 2) { answered (okAnswers 3) with mem := buffer }) State.reset) =
      [.write (some 0x2A) [0, 0x0A, 0, 0x0B], .write (some 0x2B) [0, 0x14, 0, 0x15],
        .write (some 0x2C) [0xF8, 0, 0x07, 0xE0, 0, 0x1F, 0xFF, 0xFF]] := by decide
/-- V-B2 and V-B10 together: the code of the bounds, and of the range checked first. -/
theorem test_blit_codes :
    (nextOf (exec (.blit 0x1000 8 127 20 2 2) (idle profile)) State.reset).status.code = .outOfBounds ∧
    (nextOf (exec (.blit 0xFFFFFFFC 8 127 20 2 2) (idle profile)) State.reset).status.code = .illegalOp := by decide
/-- V-C9. -/
theorem test_color565 :
    (nextOf (exec (.color565 0xAB 0xCD 0xEF) (idle profile)) State.reset).result = 0xAE7D#16 := by decide
/-- V-S7. -/
theorem test_color565_dead :
    (nextOf (exec (.color565 255 0 0) (deadBlock profile)) State.reset).status.word = 0x00000004#32 := by decide
/-- V-C28. -/
theorem test_encodePosition :
    (nextOf (exec (.encodePosition 0x1234 0xABCD) State.reset) State.reset).codec.bytes =
      [0x12#8, 0x34#8, 0xAB#8, 0xCD#8] := by decide
/-- V-C18. -/
theorem test_encodePixel :
    (nextOf (exec (.encodePixel 0x00FF) State.reset) State.reset).codec.bytes = [0x00#8, 0xFF#8] := by decide
/-- V-C20. -/
theorem test_decodePixel :
    (nextOf (exec (.decodePixel 0x12 0x34 0x56) State.reset) State.reset).codec.color = 0x11AA#16 := by decide

/-- V-A5: the configuration check comes before every event. -/
theorem test_unset_ram_write :
    (nextOf (exec (.pixelSet 5 7 0xF800) (idle { profile with cmdRamWrite := none })) State.reset).status.word =
      0x00000032#32 := by decide
/-- V-A7: nothing after the event that failed. -/
theorem test_failed_paset :
    eventsOf (nextOf (exec (.pixelSet 5 7 0xF800) (answered [.ok [], .fail])) State.reset) =
      [.write (some 0x2A) [0, 5, 0, 5], .write (some 0x2B) [0, 7, 0, 7]] := by decide
/-- V-E15. -/
theorem test_dead_before_range :
    (nextOf (exec (.pixelGet (-1) 0) (deadBlock profile)) State.reset).status.word = 0x00000064#32 := by decide
/-- V-S3. -/
theorem test_startup_events :
    startupEvents { profile with
      hasReset := true
      initSeq := [(some 0x01, none), (some 0x11, none), (some 0x3A, some [5]), (none, some [0xAA, 0xBB]), (none, none),
        (some 0x29, some [])] } =
      [.rst .deassert, .wait 1, .rst .assert, .wait 1, .write (some 0x01) [], .write (some 0x11) [],
        .write (some 0x3A) [5], .write none [0xAA, 0xBB], .write (some 0x29) []] := by decide
/-- V-S1: after one step from reset the block is ready. -/
theorem test_reset_ready : (nextOf (step State.reset) State.reset).readReg 0x24 = 0x00000002#32 := by decide
/-- A read of three bytes that returns two has failed (20_memory.md R67). -/
theorem test_short_read :
    (nextOf (exec (.pixelGet 5 7) (answered [.ok [], .ok [], .ok [0xFC, 0]])) State.reset).status.code =
      .transportError := by decide
/-- V-R2 and V-R3. -/
theorem test_operand_bits :
    ((idle profile).writeReg 0x14 0x12345678#32).readReg 0x14 = 0x00005678#32 ∧
    ((idle profile).writeReg 0x18 0xFF123456#32).readReg 0x18 = 0x00123456#32 := by decide
/-- V-R5. -/
theorem test_width_register : (idle { profile with width := 65536 }).readReg 0x30 = 0x00010000#32 := by decide
/-- The first step after reset runs a row of the opcode table. -/
theorem test_fetch_command :
    step (State.reset.withFetchWord 32 1) = exec (.pixelGet 0 0) (State.reset.withFetchWord 32 1) := rfl
theorem test_fetch_wire :
    (nextOf (step (State.reset.withFetchWord 16 0xF800)) State.reset).codec.bytes = [0xF8#8, 0x00#8] := by decide

/-! ## Witnesses: a concrete state and operands that meet the hypotheses of each statement

Named after the statement; where a statement has several clauses, one for each, at the ends of the ranges. -/

/-- An idle block whose host acts so next. -/
def withInputs (inputs : List Input) : State := { idle profile with inputs := inputs }

/-- A block in the middle of the events of a `PIXEL_GET`. -/
def reading : State :=
  { idle profile with
    status := { busy := true, ready := true, dead := false, code := .ok }
    latch := { CommandWords.ofCmd 1 with x := 5 }
    phase := .runEvents [.read (some 0x2E) 3] .decodeResult []
    answers := [.ok [0xFC, 0, 0]] }

/-- A block about to execute these latched words. -/
def latched (c : CommandWords) : State :=
  { idle profile with
    status := { busy := true, ready := true, dead := false, code := .ok }, latch := c, phase := .runEntry }

/-- The words of `BLIT 0x1000, 8, 10, 20, 2, 2`. -/
def blitWords : CommandWords :=
  { CommandWords.ofCmd 7 with x := 10, y := 20, w := 2, h := 2, addr := 0x1000, len := 8 }

theorem witness_HardResetRestoresResetValues :
    State.nextInput { reading with inputs := [.hardReset, .turn] } .hardReset [.turn] := ⟨by decide, rfl, rfl⟩

theorem witness_ResetSatisfiesTheStateInvariant :
    ({ profile with width := 65536, height := 65536 } : Config).wf = true ∧
    ({ profile with width := 1, height := 1, chunkPixels := 1 } : Config).wf = true := by decide

theorem witness_StepKeepsTheStateInvariant :
    reading.Inv ∧ ∃ t, step reading = .next t ∧ t.phase = .runEvents [] .decodeResult [0xFC, 0, 0] :=
  ⟨⟨by decide, by decide, by decide, by decide, by decide, by decide, by decide⟩, _, rfl, by decide⟩

theorem witness_ConfigurationNeverChanges :
    ∃ t, step (withInputs [.hardReset]) = .next t ∧ t.phase = .startup [] := ⟨_, rfl, by decide⟩

theorem witness_OnlyWellFormedConfigurationsRun :
    (idle { profile with width := 0 }).cfg.wf = false ∧ (idle { profile with width := 65537 }).cfg.wf = false := by
  decide

theorem witness_StartupWithoutFailureMakesTheBlockReady :
    ({ profile with hasReset := true, initSeq := [(some 0x11, none)] } : Config).wf = true := by decide

/-- V-S5, alone, while the host polls, and by a turn. -/
theorem witness_StartupFailureMakesTheBlockDead :
    let s := { State.powerOn { profile with hasReset := true } with answers := [.fail] }
    s.blockMoves [] ∧ State.blockMoves { s with inputs := [.await, .turn] } [.await, .turn] ∧
      State.blockMoves { s with inputs := [.turn, .await] } [.await] ∧
      s.phase = .startup (.rst .deassert :: [.wait 1, .rst .assert, .wait 1]) ∧
      (BusEvent.rst .deassert).drawsAnswer = true ∧ s.answers = .fail :: [] :=
  ⟨⟨by decide, rfl, .inl ⟨rfl, .inl rfl⟩⟩, ⟨by decide, rfl, .inl ⟨rfl, .inr ⟨rfl, _, rfl⟩⟩⟩, ⟨by decide, rfl, .inr rfl⟩,
    by decide⟩

/-- The widest canvas, and a log with every bit set that can be. -/
theorem witness_ReadOnlyRegistersShowTheirFields :
    (idle { profile with width := 65536 }).cfg.wf = true ∧ State.Inv { idle profile with faultLog := 0x17E } :=
  ⟨by decide, by decide, by decide, by decide, by decide, by decide, by decide, by decide⟩

theorem witness_OperandRegisterWriteStoresImplementedBits :
    State.nextInput (withInputs [.write 0x04 4 0xFFFFFFFF#32]) (.write 0x04 4 0xFFFFFFFF#32) [] ∧
    State.nextInput { reading with inputs := [.write 0x20 4 9#32] } (.write 0x20 4 9#32) [] :=
  ⟨⟨by decide, rfl, rfl⟩, by decide, rfl, rfl⟩

theorem witness_ReadOnlyAndReservedOffsetsIgnoreWrites :
    State.nextInput (withInputs [.write 0x24 4 1#32]) (.write 0x24 4 1#32) [] ∧
    State.nextInput (withInputs [.write 0x3C 4 1#32]) (.write 0x3C 4 1#32) [] :=
  ⟨⟨by decide, rfl, rfl⟩, by decide, rfl, rfl⟩

theorem witness_RegisterReadsHaveNoSideEffect :
    State.nextInput (withInputs [.read 0x00 4]) (.read 0x00 4) [] ∧
    State.nextInput (withInputs [.read 0x3C 4]) (.read 0x3C 4) [] ∧ 0x3C % 4 = 0 ∧ 0x3C < 64 :=
  ⟨⟨by decide, rfl, rfl⟩, ⟨by decide, rfl, rfl⟩, by decide, by decide⟩

/-- Narrow, misaligned at the end of the space, and the first offset beyond it. -/
theorem witness_OtherRegisterAccessesAreRefused :
    State.nextInput (withInputs [.write 0x00 2 1#32]) (.write 0x00 2 1#32) [] ∧
    State.nextInput (withInputs [.read 0x3E 4]) (.read 0x3E 4) [] ∧
    State.nextInput (withInputs [.read 0x40 4]) (.read 0x40 4) [] :=
  ⟨⟨by decide, rfl, rfl⟩, ⟨by decide, rfl, rfl⟩, by decide, rfl, rfl⟩

theorem witness_DoorbellLatchesAndStarts :
    State.nextInput (withInputs [.write 0x00 4 7#32]) (.write 0x00 4 7#32) [] ∧
    (withInputs [.write 0x00 4 7#32]).status.busy = false := ⟨⟨by decide, rfl, rfl⟩, rfl⟩

/-- V-R6. -/
theorem witness_DoorbellWhileBusyIsDroppedAndLogged :
    State.nextInput { reading with inputs := [.write 0x00 4 4#32] } (.write 0x00 4 4#32) [] ∧
    reading.status.busy = true := ⟨⟨by decide, rfl, rfl⟩, rfl⟩

theorem witness_IdleBlockWaitsForADoorbell :
    ((idle profile).cfg.wf = true ∧ (idle profile).codec.request = none ∧ (idle profile).inputs = [] ∧
      (idle profile).phase = .idle) ∧
    ((deadBlock profile).cfg.wf = true ∧ (deadBlock profile).codec.request = none ∧ (deadBlock profile).inputs = [] ∧
      (deadBlock profile).phase = .idleDead) := by decide

/-- The step that completes a `PIXEL_GET`: every conclusion is about a change here. -/
theorem witness_StatusIsStickyAndCodeChangesAtCompletion :
    let s := { reading with phase := .runEvents [] .decodeResult [0xFC, 0, 0],
                            status := { reading.status with code := .illegalOp } }
    s.Inv ∧ s.resetsNext = false ∧ ∃ t, step s = .next t ∧ t.status.code ≠ s.status.code ∧ t.result ≠ s.result :=
  ⟨⟨by decide, by decide, by decide, by decide, by decide, by decide, by decide⟩, by decide, _, rfl, by decide, by decide⟩

theorem witness_EveryOperationCompletes :
    (Instr.blit 0x1000 8 10 20 2 2).isOperation = true ∧
    ∀ addr len x y w h, Instr.blit 0x1000 8 10 20 2 2 = .blit addr len x y w h →
      overlapsRegisters (idle profile).cfg addr len = false := ⟨rfl, fun _ _ _ _ _ _ _ => rfl⟩

theorem witness_DeadBlockAnswersNotReady :
    (Instr.pixelSet 500 500 1).isOperation = true ∧ (∀ r g b, Instr.pixelSet 500 500 1 ≠ .color565 r g b) ∧
    (deadBlock profile).status.dead = true ∧
    ∀ addr len x y w h, Instr.blit 0x1000 8 10 20 2 2 = .blit addr len x y w h →
      overlapsRegisters (deadBlock profile).cfg addr len = false :=
  ⟨rfl, fun _ _ _ => Instr.noConfusion, rfl, fun _ _ _ _ _ _ _ => rfl⟩

/-- A reserved bit, and the two ends of the reserved operation codes: alone, by a turn, and while the host polls. -/
theorem witness_IllegalCommandWordCompletesIllegalOp :
    ((latched (CommandWords.ofCmd 0x00000101#32)).blockMoves [] ∧ (0x00000101#32).extractLsb' 8 24 ≠ 0#24) ∧
    (State.blockMoves { latched (CommandWords.ofCmd 0#32) with inputs := [.turn, .turn] } [.turn] ∧
      ((0#32).extractLsb' 0 8).toNat = 0) ∧
    (State.blockMoves { latched (CommandWords.ofCmd 9#32) with inputs := [.await] } [.await] ∧
      9 ≤ ((9#32).extractLsb' 0 8).toNat) ∧
    ∀ c, (latched c).phase = .runEntry :=
  ⟨⟨⟨by decide, rfl, .inl ⟨rfl, .inl rfl⟩⟩, by decide⟩, ⟨⟨by decide, rfl, .inr rfl⟩, by decide⟩,
    ⟨⟨by decide, rfl, .inl ⟨rfl, .inr ⟨rfl, [], rfl⟩⟩⟩, by decide⟩, fun _ => rfl⟩

theorem witness_UnsetIdentifierCompletesConfigError :
    ((idle { profile with cmdPageSet := none }).status.dead = false ∧ onCanvas profile 127 159 ∧
      overlapsRegisters profile 4294967295 1 = false ∧ bufferInSpace 4294967295 1 ∧ blitFits profile 127 159 1 1) ∧
    ((idle { profile with cmdRamRead := none }).cfg.cmdRamRead = none ∧ FitsU16 0 ∧ FitsU16 65535) := by decide

theorem witness_FirstFailedWriteStopsTheOperation :
    let s := answered [.ok [], .fail]
    launchOf (.pixelSet 5 7 0xF800) s =
      .events ([.write (some 0x2A) [0, 5, 0, 5]] ++ .write (some 0x2B) [0, 7, 0, 7] :: [.write (some 0x2C) [0xF8, 0]])
        .nothing ∧
    s.answers = okAnswers 1 ++ .fail :: [] := by decide

theorem witness_FailuresBeforeTheFirstEventArePrecise :
    (Instr.pixelGet (-1) 0).isOperation = true ∧
    ∃ t, exec (.pixelGet (-1) 0) (idle profile) = .next t ∧ t.status.code ≠ .ok ∧ t.status.code ≠ .transportError :=
  ⟨rfl, _, rfl, by decide, by decide⟩

theorem witness_ArgumentErrorsComeOnlyFromTheirOperations :
    (∃ t, exec (.blit 0 0 127 0 2 1) (idle profile) = .next t ∧ t.status.code = .outOfBounds) ∧
    (∃ t, exec (.blit 4294967295 2 0 0 1 1) (idle profile) = .next t ∧ t.status.code = .illegalOp) ∧
    (∃ t, exec (.pixelGet 65536 0) (idle profile) = .next t ∧ t.status.code = .encodeRange) :=
  ⟨⟨_, rfl, by decide⟩, ⟨_, rfl, by decide⟩, _, rfl, by decide⟩

/-- The first event fails, and the first event succeeds. -/
theorem witness_EveryOperationProgramsAFreshWindowFirst :
    (∃ t, exec (.fill 1) (answered [.fail]) = .next t ∧
      t.trace = (answered [.fail]).trace ++ { event := .write (some 0x2A) [0, 0, 0, 0x7F], answer := .fail } :: []) ∧
    ∃ t, exec (.pixelSet 5 7 0xF800) (answered [.ok [], .fail]) = .next t ∧
      t.trace = (answered [.ok [], .fail]).trace ++ { event := .write (some 0x2A) [0, 5, 0, 5], answer := .ok [] } ::
        [{ event := .write (some 0x2B) [0, 7, 0, 7], answer := .fail }] :=
  ⟨⟨_, rfl, by decide⟩, _, rfl, by decide⟩

theorem witness_EventsAreOfTheFiveTransactionKinds :
    ∃ t, exec (.pixelGet 5 7) (answered [.ok [], .ok [], .ok [1, 2, 3]]) = .next t ∧
      t.trace = (answered []).trace ++
        [{ event := .write (some 0x2A) [0, 5, 0, 5], answer := .ok [] },
         { event := .write (some 0x2B) [0, 7, 0, 7], answer := .ok [] },
         { event := .read (some 0x2E) 3, answer := .ok [1, 2, 3] }] := ⟨_, rfl, by decide⟩

/-- Both ends of the range of a `u16`, off the canvas at the upper one. -/
theorem witness_PixelGetReturnsTheDecodedSamples :
    let s := answered (.ok [] :: .ok [] :: .ok [0xFC, 0, 0] :: [])
    s.status.dead = false ∧ s.cfg.readIds 0x2A 0x2B 0x2E ∧ FitsU16 0 ∧ FitsU16 65535 :=
  ⟨rfl, ⟨rfl, rfl, rfl⟩, by decide, by decide⟩

theorem witness_PixelGetOutOfRangeIsEncodeRange :
    (idle profile).status.dead = false ∧ (-1 : Int) < 0 ∧ (65535 : Int) < 65536 := by decide

/-- The four ways of failing. -/
theorem witness_PixelGetFailureLeavesResult :
    (idle profile).status.dead = false ∧ (idle profile).cfg.readIds 0x2A 0x2B 0x2E ∧ FitsU16 5 ∧ FitsU16 65535 ∧
    (answered [.fail]).answers = .fail :: [] ∧ (answered [.ok [], .fail]).answers = .ok [] :: .fail :: [] ∧
    (answered [.ok [], .ok [], .fail]).answers = .ok [] :: .ok [] :: .fail :: [] ∧
    ∃ bytes, bytes.length ≠ 3 ∧
      (answered [.ok [], .ok [], .ok [1, 2, 3, 4]]).answers = .ok [] :: .ok [] :: .ok bytes :: [] :=
  ⟨rfl, ⟨rfl, rfl, rfl⟩, by decide, by decide, rfl, rfl, rfl, [1, 2, 3, 4], by decide, rfl⟩

/-- The corners of the canvas. -/
theorem witness_PixelSetWritesOnePixel :
    let s := answered (okAnswers 3 ++ [.fail])
    s.cfg.wf = true ∧ s.status.dead = false ∧ s.cfg.writeIds 0x2A 0x2B 0x2C ∧ onCanvas s.cfg 0 0 ∧
      onCanvas s.cfg 127 159 ∧ s.answers = okAnswers 3 ++ [.fail] :=
  ⟨by decide, rfl, ⟨rfl, rfl, rfl⟩, by decide, by decide, rfl⟩

/-- The four sides of the canvas, one beyond. -/
theorem witness_PixelSetOffCanvasDoesNothing :
    (idle profile).status.dead = false ∧ (-1 : Int) < 0 ∧ ((idle profile).cfg.width : Int) ≤ 128 ∧
      ((idle profile).cfg.height : Int) ≤ 160 := by decide

theorem witness_FillClampsOntoTheCanvas :
    ({ profile with width := 1, height := 65536 } : Config).wf = true := by decide

/-- A canvas of 2 by 1 pixels with chunks of one pixel: the whole of it, and a line. -/
def small : Config := { profile with width := 2, height := 1, chunkPixels := 1 }

/-- `FILL_RECT 0, 0, 2, 1` on it, and a request clamped to one pixel. -/
theorem witness_FillRectStreamsTheClampedRectangle :
    let s := { idle small with answers := okAnswers 5 ++ [Answer.fail] }
    s.cfg.wf = true ∧ s.status.dead = false ∧ s.cfg.writeIds 0x2A 0x2B 0x2C ∧
      s.answers = okAnswers (fillTrace 0x2A 0x2B 0x2C s.cfg.chunkPixels 0 0 2 1 0xF81F).length ++ [Answer.fail] :=
  ⟨by decide, rfl, ⟨rfl, rfl, rfl⟩, by decide⟩

theorem witness_FillAndLinesStreamTheirRectangles :
    let s := { idle small with answers := okAnswers 5 ++ [Answer.fail] }
    s.cfg.wf = true ∧ s.status.dead = false ∧ s.cfg.writeIds 0x2A 0x2B 0x2C ∧
      s.answers = okAnswers (fillTrace 0x2A 0x2B 0x2C s.cfg.chunkPixels 0 0 2 1 7).length ++ [Answer.fail] ∧
      s.answers = okAnswers (fillTrace 0x2A 0x2B 0x2C s.cfg.chunkPixels 1 0 1 1 7).length ++ [.ok [], Answer.fail] :=
  ⟨by decide, rfl, ⟨rfl, rfl, rfl⟩, by decide, by decide⟩

theorem witness_ChunksCarryEveryPixelOnce : small.wf = true ∧ profile.wf = true := by decide

/-- The whole buffer space and the last corner of the canvas, and an empty buffer. -/
theorem witness_BlitSendsTheBufferAsItLies :
    let s := answered (okAnswers 3 ++ [])
    s.cfg.wf = true ∧ s.status.dead = false ∧ s.cfg.writeIds 0x2A 0x2B 0x2C ∧ 4294967288 + 8 ≤ 4294967296 ∧
      overlapsRegisters s.cfg 4294967288 8 = false ∧ overlapsRegisters s.cfg 0 0 = false ∧
      blitFits s.cfg 126 158 2 2 ∧ s.answers = okAnswers 3 ++ [] :=
  ⟨by decide, rfl, ⟨rfl, rfl, rfl⟩, by decide, by decide, by decide, by decide, rfl⟩

/-- One byte past the top, and each bound missed by one. -/
theorem witness_BlitChecksRangeThenBounds :
    (idle profile).status.dead = false ∧ overlapsRegisters profile 4294967289 8 = false ∧
      overlapsRegisters profile 4294967288 8 = false ∧ 4294967296 < 4294967289 + 8 ∧ 4294967288 + 8 ≤ 4294967296 ∧
      (-1 : Int) < 0 ∧ (0 : Int) < 1 ∧ ((idle profile).cfg.width : Int) < 127 + 2 ∧
      ((idle profile).cfg.height : Int) < 159 + 2 := by decide

/-- The last byte of the buffer is the first of the register space, and the first is the last; also in a dead block. -/
theorem witness_BlitFromTheRegisterSpaceIsRefused :
    (idle { profile with regBase := some 0x2000 }).cfg.regBase = some 0x2000 ∧
    (deadBlock { profile with regBase := some 0x2000 }).cfg.regBase = some 0x2000 ∧
    (∃ a, 0x1FF9 ≤ a ∧ a < 0x1FF9 + 8 ∧ 0x2000 ≤ a ∧ a < 0x2000 + 64) ∧
    ∃ a, 0x203F ≤ a ∧ a < 0x203F + 8 ∧ 0x2000 ≤ a ∧ a < 0x2000 + 64 :=
  ⟨rfl, rfl, ⟨0x2000, by decide⟩, 0x203F, by decide⟩

theorem witness_WireFunctionsAreBigEndianAndInjective :
    encodePixel 0x00FF = encodePixel 0x00FF ∧ encodePosition 0x1234 0xABCD = encodePosition 0x1234 0xABCD := ⟨rfl, rfl⟩

/-- The ends of every operand's range. -/
theorem witness_DecodeInvertsEncode :
    Instr.wf (.fillRect (-2147483648) 2147483647 (-1) 0 0xFFFF) = true ∧
    Instr.wf (.blit 4294967295 4294967295 0 0 (-2147483648) 2147483647) = true ∧
    Instr.wf (.encodePosition 0xFFFF 0) = true := by decide

/-- Two command words of each operation that differ in the operand words it does not read only. -/
theorem witness_CommandWordsAreLegalExactlyAsMapped :
    decodeCommand (CommandWords.ofCmd 1) = .instr (.pixelGet 0 0) ∧
    ∀ v ∈ [1#32, 2#32, 3#32, 4#32, 5#32, 6#32, 7#32],
      ({ CommandWords.ofCmd v with rgb := 5 } : CommandWords).cmd = (CommandWords.ofCmd v).cmd ∧
      ({ CommandWords.ofCmd 8 with x := 5 } : CommandWords).rgb = (CommandWords.ofCmd 8).rgb :=
  ⟨by decide, fun _ _ => ⟨rfl, rfl⟩⟩

/-- With no input, with a host that polls, and on the codec port. -/
theorem witness_StepExecutesTheDecodedInstruction :
    ((latched blitWords).runsNext ∧ decodeCommand (latched blitWords).latch = .instr (.blit 0x1000 8 10 20 2 2)) ∧
    (({ latched blitWords with inputs := [.await, .turn] } : State).runsNext) ∧
    (profile.wf = true ∧ (State.reset.withWire [0xF8, 0]).codec.request = some [0xF8, 0] ∧
      decodeWire [0xF8, 0] = .instr (.encodePixel 0xF800)) :=
  ⟨⟨⟨by decide, rfl, rfl, .inl rfl⟩, by decide⟩, ⟨by decide, rfl, rfl, .inr ⟨rfl, _, rfl⟩⟩, by decide, rfl, by decide⟩

theorem witness_OneEventAtATimeEndsWhereExecuteEnds :
    (latched blitWords).cfg.wf = true ∧ (latched blitWords).codec.request = none ∧
    (latched blitWords).phase = .runEntry ∧
    decodeCommand (latched blitWords).latch = .instr (.blit 0x1000 8 10 20 2 2) := by decide

/-- The line `PIXEL_GET 5, 7` on an idle block. -/
theorem witness_AssemblerLineExecutesItsOperation :
    let s := { answered [.ok [], .ok [], .ok [0xFC, 0, 0]] with
      inputs := lineInputs (.pixelGet 5 7) ++ [Input.turn] }
    s.cfg.wf = true ∧ s.codec.request = none ∧ s.status.busy = false ∧ Instr.wf (.pixelGet 5 7) = true ∧
      opcodeOf (.pixelGet 5 7) = some 1 ∧ s.inputs = lineInputs (.pixelGet 5 7) ++ [Input.turn] ∧
      ∃ t, exec (.pixelGet 5 7) (({ s with inputs := [] } : State).afterLine (.pixelGet 5 7) 1) = .next t :=
  ⟨by decide, rfl, rfl, by decide, rfl, rfl, _, rfl⟩

/-- Two blocks that differ in everything an operation does not read. -/
theorem witness_OperationsIgnoreRegistersAndHistory :
    let s := { idle profile with answers := [.fail] }
    let u := { reading with answers := [.fail], result := 9, faultLog := 2, mem := [(0, 7#8)], hostReads := [⟨0, 1⟩] }
    (Instr.fill 7).isOperation = true ∧ u.cfg = s.cfg ∧ u.status.dead = s.status.dead ∧ u.answers = s.answers ∧
      u.draws = s.draws ∧ ((∃ addr len x y w h, Instr.fill 7 = .blit addr len x y w h) → u.mem = s.mem) :=
  ⟨rfl, rfl, rfl, rfl, rfl, fun ⟨_, _, _, _, _, _, h⟩ => Instr.noConfusion h⟩

/-- Start-up that has one more event to go. -/
theorem witness_StartupRunsOnlyAfterReset :
    let s := { State.powerOn { profile with initSeq := [(some 0x11, none), (some 0x29, none)] } with
      answers := okAnswers 2 }
    s.resetsNext = false ∧ ∃ t, step s = .next t ∧ t.phase = .startup [.write (some 0x29) []] :=
  ⟨by decide, _, rfl, by decide⟩

theorem witness_BlockNeverWritesHostMemory :
    (∃ t, step reading = .next t) ∧
    ∀ a b rest, reading.codec.request = none → reading.inputs ≠ .memWrite a b :: rest :=
  ⟨⟨_, rfl⟩, by simp [reading, idle, State.powerOn]⟩

/-- The last address, the first beyond, the last byte of the buffer of a running `BLIT`, and the last of the registers. -/
theorem witness_HostStoresOneByte :
    (State.nextInput (withInputs [.memWrite 4294967295 7#8]) (.memWrite 4294967295 7#8) [] ∧
      overlapsRegisters profile 4294967295 1 = false ∧
      (withInputs [.memWrite 4294967295 7#8]).inRunningBuffer 4294967295 = false ∧ (idle profile).mem.wf = true) ∧
    State.nextInput (withInputs [.memWrite 4294967296 7#8]) (.memWrite 4294967296 7#8) [] ∧
    (State.nextInput { latched blitWords with inputs := [.memWrite 0x1007 7#8] } (.memWrite 0x1007 7#8) [] ∧
      decodeCommand blitWords = .instr (.blit 0x1000 8 10 20 2 2) ∧ 0x1000 ≤ 0x1007 ∧ 0x1007 < 0x1000 + 8) ∧
    (State.nextInput { idle { profile with regBase := some 0x2000 } with inputs := [.memWrite 0x203F 7#8] }
        (.memWrite 0x203F 7#8) [] ∧ 0x2000 ≤ 0x203F ∧ 0x203F < 0x2000 + 64) :=
  ⟨⟨⟨by decide, rfl, rfl⟩, by decide, by decide, by decide⟩, ⟨by decide, rfl, rfl⟩, ⟨⟨by decide, rfl, rfl⟩,
    by decide, by decide, by decide⟩, ⟨by decide, rfl, rfl⟩, by decide, by decide⟩

/-- A controller whose canvas is all zero. -/
def blank : Env small where
  cx0 := 0
  cx1 := 0
  py0 := 0
  py1 := 0
  mode := .none
  px := 0
  py := 0
  pending := none
  gram := fun _ _ => 0

theorem okEntries_succeed (es : List BusEvent) : ∀ entry ∈ okEntries es, entry.answer ≠ .fail := by simp [okEntries]

/-- On the canvas, with the controller after the three events; and off it, with no event. -/
theorem witness_EnvPixelSetSetsOnePixel :
    let s := { idle small with answers := okAnswers 3 }
    s.cfg.wf = true ∧ s.cfg.distinctWriteIds = true ∧ s.status.dead = false ∧
    (∃ t new e', exec (.pixelSet 1 0 7) s = .next t ∧ t.trace = s.trace ++ new ∧
      (∀ entry ∈ new, entry.answer ≠ .fail) ∧ Env.follows new blank e' ∧ onCanvas s.cfg 1 0) ∧
    (∃ t, exec (.pixelSet 2 0 7) s = .next t ∧ t.trace = s.trace ++ [] ∧ Env.follows [] blank blank ∧
      ¬ onCanvas s.cfg 2 0) :=
  let ⟨_, h⟩ := Env.follows_exists (okEntries (windowTrace 0x2A 0x2B 0x2C 1 1 0 0 [0, 7])) blank
  ⟨by decide, by decide, rfl, ⟨_, okEntries _, _, rfl, rfl, okEntries_succeed _, h, by decide⟩, _, rfl, rfl, rfl, by decide⟩

/-- A request that the clamp brings onto the canvas. -/
theorem witness_EnvFillRectPaintsTheClampedRectangle :
    let s := { idle small with answers := okAnswers 5 }
    s.cfg.wf = true ∧ s.cfg.distinctWriteIds = true ∧ s.status.dead = false ∧
    (∃ t new e', exec (.fillRect (-1) 0 5 9 7) s = .next t ∧ t.trace = s.trace ++ new ∧
      (∀ entry ∈ new, entry.answer ≠ .fail) ∧ Env.follows new blank e' ∧
      ∃ e'', Env.follows new e' e'') :=
  let ⟨e', h⟩ := Env.follows_exists (okEntries (fillTrace 0x2A 0x2B 0x2C 1 0 0 2 1 7)) blank
  let ⟨_, h'⟩ := Env.follows_exists (okEntries (fillTrace 0x2A 0x2B 0x2C 1 0 0 2 1 7)) e'
  ⟨by decide, by decide, rfl, _, okEntries _, _, rfl, rfl, okEntries_succeed _, h, _, h'⟩

theorem witness_EnvBlitCopiesTheBuffer :
    let s := { idle small with answers := okAnswers 3, mem := [(0x1000, 0xF8#8), (0x1003, 0xE0#8)] }
    s.cfg.wf = true ∧ s.cfg.distinctWriteIds = true ∧ s.status.dead = false ∧ 0x1000 + 2 * 2 * 1 ≤ 4294967296 ∧
    blitFits s.cfg 0 0 2 1 ∧
    ∃ t new e', exec (.blit 0x1000 (2 * 2 * 1) 0 0 2 1) s = .next t ∧ t.trace = s.trace ++ new ∧
      (∀ entry ∈ new, entry.answer ≠ .fail) ∧ Env.follows new blank e' :=
  let ⟨_, h⟩ := Env.follows_exists (okEntries (windowTrace 0x2A 0x2B 0x2C 0 1 0 0 [0xF8, 0, 0, 0xE0])) blank
  ⟨by decide, by decide, rfl, by decide, by decide, _, okEntries _, _, rfl, rfl, okEntries_succeed _, h⟩

end Sys2Proof.Tests
end

section
/-! PROOFS. Scope (00_scope.md): which configurations run, the order of `MemRead`, and the invariant that every step keeps.

The invariant is cut in two. `State.Sound` is the part that speaks neither of the phase nor of `STATUS`; the shared
operations keep it one by one. The rest follows from what the phase allows: `READY` and `DEAD` differ whenever an operation
can complete, and the events of a launch are proper and end with a read of three bytes where a pixel will be decoded. -/

namespace Sys2Proof.Machine

/-! ## Configurations and `MemRead` -/

/-- Settles O6: `Config.wf` is the conjunction of R8's bounds, and `step` tests it before anything else. -/
theorem onlyWellFormedConfigurationsRun : Obligations.OnlyWellFormedConfigurationsRun := by
  unfold Obligations.OnlyWellFormedConfigurationsRun
  refine ⟨fun c => ?_, fun s hbad => ?_⟩
  · simp only [Config.wf, decide_eq_true_eq, and_assoc]
  · simp [step, hbad]

/-- Settles O56, by induction on the count: the first byte is the one at the address, the others start one above it. -/
theorem memReadReturnsBytesInAddressOrder : Obligations.MemReadReturnsBytesInAddressOrder := by
  unfold Obligations.MemReadReturnsBytesInAddressOrder
  intro m addr n
  induction n generalizing addr with
  | zero => rfl
  | succ n ih =>
    rw [Memory.readBytes, ih (addr + 1), List.range_succ_eq_map, List.map_cons, List.map_map]
    refine congrArg (m.read addr :: ·) (List.map_congr_left fun k _ => ?_)
    simp only [Function.comp_apply, Nat.succ_eq_add_one, Nat.add_assoc, Nat.add_comm 1 k]

/-! ## The reserved bits of `FAULT_LOG` -/

/-- Logging only implemented bits leaves the reserved bits 0 (10_state.md R30). -/
theorem faultLog_or_reserved {log bit : Word} (hlog : log &&& ~~~faultBits = 0#32) (hbit : bit &&& ~~~faultBits = 0#32) :
    (log ||| bit) &&& ~~~faultBits = 0#32 := by
  rw [BitVec.and_comm, BitVec.and_or_distrib_left, BitVec.and_comm _ log, BitVec.and_comm _ bit, hlog, hbit]
  rfl

/-- Every completion code logs an implemented bit, or none. -/
theorem Code.faultBit_reserved (c : Code) : c.faultBit &&& ~~~faultBits = 0#32 := by cases c <;> decide

/-! ## What an operation and start-up perform are proper events -/

/-- `BusWrite` never performs the null transaction (20_memory.md R66). -/
theorem busWrite_proper {cmd : Option Byte} {data : List Byte} {e : BusEvent} (h : e ∈ busWrite cmd data) :
    e.proper = true := by
  unfold busWrite at h
  split at h
  · simp at h
  · rename_i hne
    obtain rfl := List.mem_singleton.mp h
    cases cmd with
    | some c => rfl
    | none => cases data with
      | nil => exact absurd rfl (hne rfl)
      | cons b data => rfl

theorem chunkEvents_proper {cfg : Config} {total : Nat} {color : U16} {e : BusEvent}
    (h : e ∈ chunkEvents cfg total color) : e.proper = true := by
  simp only [chunkEvents, List.mem_append, List.mem_flatten, List.mem_replicate] at h
  rcases h with ⟨_, ⟨-, rfl⟩, hfull⟩ | hrest
  · exact busWrite_proper hfull
  · exact busWrite_proper hrest

theorem writeWindowEvents_proper {cs ps rw : Byte} {r : Rect} {payload : List Byte} {e : BusEvent}
    (h : e ∈ writeWindowEvents cs ps rw r payload) : e.proper = true := by
  simp only [writeWindowEvents, programWindow, List.cons_append, List.nil_append, List.mem_cons, List.not_mem_nil,
    or_false] at h
  rcases h with rfl | rfl | rfl <;> rfl

theorem startupEvents_proper {cfg : Config} {e : BusEvent} (h : e ∈ startupEvents cfg) : e.proper = true := by
  rcases List.mem_append.mp h with hpulse | hinit
  · split at hpulse
    · simp only [resetPulse, List.mem_cons, List.not_mem_nil, or_false] at hpulse
      rcases hpulse with rfl | rfl | rfl | rfl <;> rfl
    · simp at hpulse
  · obtain ⟨entry, -, hentry⟩ := List.mem_flatMap.mp hinit
    exact busWrite_proper hentry

/-- An operation that performs events performs proper ones, and where it will decode a pixel the last is a read of three
bytes. -/
theorem launchOf_events_proper {i : Instr} {s : State} {todo : List BusEvent} {onOk : OnOk}
    (hi : i.isOperation = true) (h : launchOf i s = .events todo onOk) :
    (∀ e ∈ todo, e.proper = true) ∧ (Phase.runEvents todo onOk []).decodesThree = true := by
  rcases launchOf_cases (s := s) hi with ⟨c, hl⟩ | ⟨v, hl⟩ | ⟨why, hl⟩ |
    ⟨cs, ps, rw, r, p, raw, -, -, -, hl, hraw⟩ | ⟨cs, ps, rd, x, y, -, -, -, hl⟩ <;>
    rw [hl] at h <;> cases h
  case inr.inr.inr.inl =>
    refine ⟨fun e he => ?_, rfl⟩
    rcases List.mem_append.mp he with hwin | hchunk
    · exact writeWindowEvents_proper hwin
    · rcases hraw with rfl | ⟨total, color, rfl⟩
      · simp at hchunk
      · exact chunkEvents_proper hchunk
  case inr.inr.inr.inr =>
    rw [readWindowEvents_pixel]
    refine ⟨fun e he => ?_, rfl⟩
    simp only [List.mem_cons, List.not_mem_nil, or_false] at he
    rcases he with rfl | rfl | rfl <;> rfl

/-- Past an event that returned as many bytes as it reads, the promise of three bytes to decode stays. -/
theorem Phase.decodesThree_tail {e : BusEvent} {rest : List BusEvent} {onOk : OnOk} {received bytes : List Byte}
    (h : (Phase.runEvents (e :: rest) onOk received).decodesThree = true)
    (hlen : ∀ cmd n, e = .read cmd n → bytes.length = n) :
    (Phase.runEvents rest onOk bytes).decodesThree = true := by
  cases onOk with
  | nothing => rfl
  | decodeResult =>
    cases rest with
    | cons e' rest =>
      simp only [Phase.decodesThree, List.getLast?_cons, Option.getD_some] at h ⊢
      generalize rest.getLast?.getD e' = last at h ⊢
      cases last with
      | read cmd n => exact h
      | write | rst | wait => cases h
    | nil =>
      cases e with
      | read cmd n =>
        simp only [Phase.decodesThree, List.getLast?_singleton, List.getLast?_nil, beq_iff_eq] at h ⊢
        rw [hlen cmd n rfl, h]
      | write | rst | wait => simp [Phase.decodesThree] at h

/-! ## What the phase says of `STATUS` (10_state.md R35) -/

section
variable {s : State}

theorem State.statusAgrees_startup {todo : List BusEvent} (hp : s.phase = .startup todo) :
    s.statusAgrees = true ↔ s.status.busy = true ∧ s.status.ready = false ∧ s.status.dead = false := by
  simp [State.statusAgrees, hp, and_assoc]

theorem State.statusAgrees_running (hp : s.phase.running = true) :
    s.statusAgrees = true ↔ s.status.busy = true ∧ s.status.ready ≠ s.status.dead := by
  cases h : s.phase <;> simp [Phase.running, h] at hp <;> simp [State.statusAgrees, h]

/-- A block that is not busy is past start-up: exactly one of `READY` and `DEAD` is 1. -/
theorem State.statusAgrees_notBusy (hb : s.status.busy = false) (h : s.statusAgrees = true) :
    s.status.ready ≠ s.status.dead := by
  cases hp : s.phase <;> simp_all [State.statusAgrees]

/-- The idle phase that completion picks agrees with `STATUS`. -/
theorem State.statusAgrees_complete (c : Code) (hrd : s.status.ready ≠ s.status.dead) :
    (s.complete c).statusAgrees = true := by
  cases hd : s.status.dead <;> simp_all [State.statusAgrees, Status.idlePhase]

theorem Status.idlePhase_todo (st : Status) : st.idlePhase.todo = [] := by
  unfold Status.idlePhase
  split <;> rfl

theorem Status.idlePhase_decodesThree (st : Status) : st.idlePhase.decodesThree = true := by
  unfold Status.idlePhase
  split <;> rfl

end

/-! ## The part of the invariant that does not speak of the phase -/

/-- The clauses of `State.Inv` that mention neither the phase nor `STATUS`. -/
structure State.Sound (s : State) : Prop where
  cfg_wf : s.cfg.wf = true
  mem_wf : s.mem.wf = true
  fault_reserved : s.faultLog &&& ~~~faultBits = 0#32
  trace_proper : ∀ entry ∈ s.trace, entry.event.proper = true

theorem State.Inv.sound {s : State} (h : s.Inv) : s.Sound :=
  ⟨h.cfg_wf, h.mem_wf, h.fault_reserved, h.trace_proper⟩

/-- `State.Inv` reads six fields of the state, so a state with the same six keeps it. -/
theorem State.Inv.congr {s t : State} (h : s.Inv) (hcfg : t.cfg = s.cfg) (hmem : t.mem = s.mem)
    (hstatus : t.status = s.status) (hlog : t.faultLog = s.faultLog) (htrace : t.trace = s.trace)
    (hphase : t.phase = s.phase) : t.Inv where
  cfg_wf := hcfg ▸ h.cfg_wf
  mem_wf := hmem ▸ h.mem_wf
  status_agrees := by simpa only [State.statusAgrees, hphase, hstatus] using h.status_agrees
  fault_reserved := hlog ▸ h.fault_reserved
  trace_proper := htrace ▸ h.trace_proper
  todo_proper := hphase ▸ h.todo_proper
  decodes_three := hphase ▸ h.decodes_three

section
variable {s t s' : State}

theorem State.eventful_cfg (h : s.eventful s') : s'.cfg = s.cfg := by rw [h]
theorem State.eventful_mem (h : s.eventful s') : s'.mem = s.mem := by rw [h]
theorem State.eventful_status (h : s.eventful s') : s'.status = s.status := by rw [h]
theorem State.eventful_faultLog (h : s.eventful s') : s'.faultLog = s.faultLog := by rw [h]

theorem State.Sound.perform {e : BusEvent} {a : Answer} (h : s.Sound) (he : e.proper = true)
    (hp : s.perform e = (a, s')) : s'.Sound := by
  obtain ⟨hev, htrace⟩ := State.perform_cases hp
  refine ⟨State.eventful_cfg hev ▸ h.cfg_wf, State.eventful_mem hev ▸ h.mem_wf,
    State.eventful_faultLog hev ▸ h.fault_reserved, fun entry hentry => ?_⟩
  rw [htrace] at hentry
  rcases List.mem_append.mp hentry with hold | hnew
  · exact h.trace_proper entry hold
  · rw [List.mem_singleton.mp hnew]
    exact he

/-- A successful read returned exactly the bytes asked for. -/
theorem State.perform_read_length {cmd : Option Byte} {n : Nat} {bytes : List Byte}
    (hp : s.perform (.read cmd n) = (.ok bytes, s')) : bytes.length = n :=
  State.draw_read_length (congrArg Prod.fst hp)

/-- Completion keeps the invariant wherever `READY` and `DEAD` differ. -/
theorem State.Sound.complete_inv (h : s.Sound) (hrd : s.status.ready ≠ s.status.dead) (c : Code) :
    (s.complete c).Inv where
  cfg_wf := h.cfg_wf
  mem_wf := h.mem_wf
  status_agrees := State.statusAgrees_complete c hrd
  fault_reserved := faultLog_or_reserved h.fault_reserved c.faultBit_reserved
  trace_proper := h.trace_proper
  todo_proper := by simp [Status.idlePhase_todo]
  decodes_three := Status.idlePhase_decodesThree _

theorem State.Sound.setResult (h : s.Sound) (v : U16) : (s.setResult v).Sound :=
  ⟨h.cfg_wf, h.mem_wf, h.fault_reserved, h.trace_proper⟩

theorem State.Sound.finish_inv (h : s.Sound) (hrd : s.status.ready ≠ s.status.dead) (onOk : OnOk)
    (received : List Byte) : (s.finish onOk received).Inv := by
  unfold State.finish State.useReceived
  split
  · rename_i b0 b1 b2
    exact (h.setResult (decodePixel b0 b1 b2)).complete_inv hrd .ok
  · exact h.complete_inv hrd _

/-- Performing the events of an operation to its completion, by induction on the events. -/
theorem State.Sound.runEvents_inv {todo : List BusEvent} (onOk : OnOk) (received : List Byte) (h : s.Sound)
    (hrd : s.status.ready ≠ s.status.dead) (htodo : ∀ e ∈ todo, e.proper = true) :
    (s.runEvents todo onOk received).Inv := by
  induction todo generalizing s received with
  | nil => exact h.finish_inv hrd onOk received
  | cons e rest ih =>
    obtain ⟨he, hrest⟩ := List.forall_mem_cons.mp htodo
    rw [State.runEvents]
    split <;> rename_i hp
    all_goals
      have h' := h.perform he hp
      have hrd' := State.eventful_status (State.perform_cases hp).1 ▸ hrd
    · exact ih _ h' hrd' hrest
    · exact h'.complete_inv hrd' _

/-! ## The moves of the block -/

/-- A move of start-up (70_reset_and_hazards.md R251, R254, R255). -/
theorem State.Inv.startupMove_inv {todo : List BusEvent} (h : s.Inv) (hp : s.phase = .startup todo) :
    (startupMove todo s).Inv := by
  have hstatus := (State.statusAgrees_startup hp).mp h.status_agrees
  have htodo : ∀ e ∈ todo, e.proper = true := by simpa only [hp, Phase.todo] using h.todo_proper
  have ⟨_, hready, hdead⟩ := hstatus
  have hsound := h.sound
  cases todo with
  | nil =>
    have hs : State.Sound { s with status := { s.status with ready := true } } :=
      ⟨h.cfg_wf, h.mem_wf, h.fault_reserved, h.trace_proper⟩
    exact hs.complete_inv (by simp [hdead]) _
  | cons e rest =>
    obtain ⟨he, hrest⟩ := List.forall_mem_cons.mp htodo
    rw [startupMove]
    split <;> rename_i s' hperf
    all_goals
      obtain ⟨hcfg, hmem, hlog, htrace⟩ := hsound.perform he hperf
      have hst := State.eventful_status (State.perform_cases hperf).1
    · exact ⟨hcfg, hmem, (State.statusAgrees_startup rfl).mpr (hst ▸ hstatus), hlog, htrace, hrest, rfl⟩
    · have hs : State.Sound { s' with status := { s'.status with dead := true } } := ⟨hcfg, hmem, hlog, htrace⟩
      exact hs.complete_inv (by simp [hst, hready]) _

/-- A move among the events of an operation (20_memory.md R76, 60_exceptions.md R212). -/
theorem State.Inv.eventMove_inv {todo : List BusEvent} {onOk : OnOk} {received : List Byte} (h : s.Inv)
    (hp : s.phase = .runEvents todo onOk received) : (eventMove todo onOk received s).Inv := by
  have hstatus := (State.statusAgrees_running (by rw [hp]; rfl)).mp h.status_agrees
  have htodo : ∀ e ∈ todo, e.proper = true := by simpa only [hp, Phase.todo] using h.todo_proper
  have hthree := hp ▸ h.decodes_three
  cases todo with
  | nil => exact h.sound.finish_inv hstatus.2 onOk received
  | cons e rest =>
    obtain ⟨he, hrest⟩ := List.forall_mem_cons.mp htodo
    rw [eventMove]
    split <;> rename_i hperf
    all_goals
      have hsound := h.sound.perform he hperf
      have hst := State.eventful_status (State.perform_cases hperf).1
    · refine ⟨hsound.cfg_wf, hsound.mem_wf, (State.statusAgrees_running rfl).mpr (hst ▸ hstatus), hsound.fault_reserved,
        hsound.trace_proper, hrest, Phase.decodesThree_tail hthree ?_⟩
      rintro cmd n rfl
      exact State.perform_read_length hperf
    · exact hsound.complete_inv (hst ▸ hstatus.2) _

/-- Executing an operation whole. -/
theorem State.Sound.exec_inv {i : Instr} (h : s.Sound) (hrd : s.status.ready ≠ s.status.dead)
    (hi : i.isOperation = true) (hx : exec i s = .next t) : t.Inv := by
  rcases exec_operation_cases hi hx with ⟨c, -, rfl⟩ | ⟨v, -, rfl⟩ | ⟨todo, onOk, hl, rfl⟩
  · exact h.complete_inv hrd c
  · exact (h.setResult v).complete_inv hrd _
  · exact h.runEvents_inv onOk [] hrd (launchOf_events_proper hi hl).1

theorem State.Inv.runLatched_inv (h : s.Inv) (hp : s.phase = .runEntry) (hr : runLatched s = .next t) : t.Inv := by
  have hrd := ((State.statusAgrees_running (by rw [hp]; rfl)).mp h.status_agrees).2
  unfold runLatched at hr
  split at hr
  · rename_i hd
    exact h.sound.exec_inv hrd (decodeCommand_isOperation hd) hr
  · cases hr
    exact h.sound.complete_inv hrd _

/-- The first move of a launch enters its events, or is the whole launch. -/
theorem Launch.enter_cases {l : Launch} (h : l.enter s = .next t) :
    (∃ todo onOk, l = .events todo onOk ∧ t = { s with phase := .runEvents todo onOk [] }) ∨ l.run s = .next t := by
  cases l with
  | events todo onOk =>
    cases h
    exact .inl ⟨todo, onOk, rfl, rfl⟩
  | stop | value | codecBytes | codecColor | refuse => exact .inr h

theorem State.Inv.enterLatched_inv (h : s.Inv) (hp : s.phase = .runEntry) (hr : enterLatched s = .next t) :
    t.Inv := by
  have hstatus := (State.statusAgrees_running (by rw [hp]; rfl)).mp h.status_agrees
  unfold enterLatched at hr
  split at hr
  · rename_i i hd
    have hi := decodeCommand_isOperation hd
    rcases Launch.enter_cases hr with ⟨todo, onOk, hl, rfl⟩ | hrun
    · obtain ⟨hproper, hthree⟩ := launchOf_events_proper hi hl
      exact ⟨h.cfg_wf, h.mem_wf, (State.statusAgrees_running rfl).mpr hstatus, h.fault_reserved, h.trace_proper,
        hproper, hthree⟩
    · exact h.sound.exec_inv hstatus.2 hi (exec_eq_run i s ▸ hrun)
  · cases hr
    exact h.sound.complete_inv hstatus.2 _

theorem State.Inv.advance_inv (h : s.Inv) (ha : advance s = .next t) : t.Inv := by
  rcases advance_cases ha with ⟨todo, hp, rfl⟩ | ⟨-, rfl⟩ | ⟨hp, hr⟩ | ⟨todo, onOk, received, hp, rfl⟩
  · exact h.startupMove_inv hp
  · exact h
  · exact h.enterLatched_inv hp hr
  · exact h.eventMove_inv hp

theorem State.Inv.proceed_inv (h : s.Inv) (hpr : proceed s = .next t) : t.Inv := by
  rcases proceed_cases hpr with ⟨hp, hr⟩ | ⟨-, ha⟩
  · exact h.runLatched_inv hp hr
  · exact h.advance_inv ha

/-! ## The host's inputs -/

/-- A write of `CMD` (10_state.md R23): logged while busy, else the operation starts. -/
theorem State.Inv.doorbell_inv (h : s.Inv) (v : Word) : (s.doorbell v).Inv := by
  unfold State.doorbell
  split
  · exact ⟨h.cfg_wf, h.mem_wf, h.status_agrees, faultLog_or_reserved h.fault_reserved (by decide), h.trace_proper,
      h.todo_proper, h.decodes_three⟩
  · rename_i hb
    have hrd := State.statusAgrees_notBusy (Bool.eq_false_iff.mpr hb) h.status_agrees
    exact ⟨h.cfg_wf, h.mem_wf, (State.statusAgrees_running rfl).mpr ⟨rfl, hrd⟩, h.fault_reserved, h.trace_proper,
      by simp [Phase.todo], rfl⟩

theorem State.Inv.writeReg_inv (h : s.Inv) (offset : Nat) (v : Word) : (s.writeReg offset v).Inv := by
  rcases State.writeReg_cases s offset v with hw | hw <;> rw [hw]
  · exact h.congr rfl rfl rfl rfl rfl rfl
  · exact h.doorbell_inv v

/-- Hardware reset keeps the configuration and host memory and starts with proper events
(70_reset_and_hazards.md R250). -/
theorem State.Inv.hardReset_inv (h : s.Inv) : s.hardReset.Inv where
  cfg_wf := h.cfg_wf
  mem_wf := h.mem_wf
  status_agrees := rfl
  fault_reserved := BitVec.zero_and
  trace_proper := by simp
  todo_proper := fun _ he => startupEvents_proper he
  decodes_three := rfl

theorem State.Inv.takeInput_inv {i : Input} (h : s.Inv) (hi : takeInput i s = .next t) : t.Inv := by
  rcases takeInput_cases hi with ⟨offset, size, v, -, rfl⟩ | ⟨offset, size, -, rfl⟩ | ⟨a, b, -, ha, rfl⟩ | ⟨-, rfl⟩ |
    ⟨-, hadv⟩ | ⟨-, rfl⟩
  · exact h.writeReg_inv offset v
  · exact h.congr rfl rfl rfl rfl rfl rfl
  · exact ⟨h.cfg_wf, Memory.write_keeps_wf b h.mem_wf ha, h.status_agrees, h.fault_reserved, h.trace_proper,
      h.todo_proper, h.decodes_three⟩
  · exact h
  · exact h.advance_inv hadv
  · exact h.hardReset_inv

end

/-- Settles O4, by the three kinds of move a step can be: a codec function on the port, the block, the host. -/
theorem stepKeepsTheStateInvariant : Obligations.StepKeepsTheStateInvariant := by
  unfold Obligations.StepKeepsTheStateInvariant
  intro s t h hstep
  obtain ⟨-, ⟨bytes, -, hwire⟩ | ⟨-, -, hblock⟩ | ⟨-, i, rest, -, -, hinput⟩⟩ := step_cases hstep
  · rw [runWire_cases hwire]
    exact h.congr rfl rfl rfl rfl rfl rfl
  · exact h.proceed_inv hblock
  · have hrest : State.Inv { s with inputs := rest } := h.congr rfl rfl rfl rfl rfl rfl
    exact hrest.takeInput_inv hinput

end Sys2Proof.Machine
end

section
/-! PROOFS. State (10_state.md): what reset leaves, what each register access does, and what no step undoes.

A register access goes through one equation of `step` for each outcome it can have. What no step but hardware reset undoes
is one relation, `State.Progress`, which every move of the block and of the host keeps. That an operation reads nothing but
its operands, the configuration, `DEAD`, host memory and the transport is one relation between two runs,
`State.sameCompletion`. -/

namespace Sys2Proof.Machine

/-! ## Whose move a step is -/

section
variable {s : State}

theorem step_eq_admittedStep (hwf : s.cfg.wf = true) : step s = admittedStep s := if_pos hwf

theorem step_eq_runWire {bytes : List Byte} (hwf : s.cfg.wf = true) (hreq : s.codec.request = some bytes) :
    step s = runWire bytes s := by
  simp only [step_eq_admittedStep hwf, admittedStep, hreq]

theorem step_eq_proceed (hwf : s.cfg.wf = true) (hreq : s.codec.request = none)
    (hinputs : s.inputs = [] ∨ (s.status.busy = true ∧ ∃ rest, s.inputs = .await :: rest)) : step s = proceed s := by
  simp only [step_eq_admittedStep hwf, admittedStep, hreq, inputStep]
  rcases hinputs with hnil | ⟨hbusy, rest, hawait⟩
  · simp only [hnil]
  · simp only [hawait, hbusy, if_true]

theorem step_eq_takeInput {i : Input} {rest : List Input} (hnext : s.nextInput i rest) (hi : i ≠ .await) :
    step s = takeInput i { s with inputs := rest } := by
  obtain ⟨hwf, hreq, hinputs⟩ := hnext
  simp only [step_eq_admittedStep hwf, admittedStep, hreq, inputStep, hinputs]

end

/-! ## Register accesses (10_state.md R32, R33) -/

section
variable {s : State} {offset size : Nat} {v : Word} {rest : List Input}

theorem accessProblem_none (halign : offset % 4 = 0) (hlt : offset < 64) : accessProblem offset 4 = none := by
  simp only [accessProblem]
  rw [if_neg (by omega), if_neg (by omega)]

theorem accessProblem_narrowOrMisaligned (h : size ≠ 4 ∨ offset % 4 ≠ 0) :
    accessProblem offset size = some .narrowOrMisaligned := if_pos h

theorem accessProblem_beyond (halign : offset % 4 = 0) (hge : 64 ≤ offset) :
    accessProblem offset 4 = some .beyondRegisterSpace := by
  simp only [accessProblem]
  rw [if_neg (by omega), if_pos hge]

/-- A register access with a problem is refused by its name, a write as a read. -/
theorem step_access_refused {why : Refusal}
    (hnext : s.nextInput (.write offset size v) rest ∨ s.nextInput (.read offset size) rest)
    (hwhy : accessProblem offset size = some why) : step s = .refused why := by
  rcases hnext with hwrite | hread
  · simp only [step_eq_takeInput hwrite Input.noConfusion, takeInput, hostWrite, hwhy]
  · simp only [step_eq_takeInput hread Input.noConfusion, takeInput, hostRead, hwhy]

theorem step_write (hnext : s.nextInput (.write offset 4 v) rest) (halign : offset % 4 = 0) (hlt : offset < 64) :
    step s = .next (State.writeReg { s with inputs := rest } offset v) := by
  simp only [step_eq_takeInput hnext Input.noConfusion, takeInput, hostWrite, accessProblem_none halign hlt]

theorem step_read (hnext : s.nextInput (.read offset 4) rest) (halign : offset % 4 = 0) (hlt : offset < 64) :
    step s = .next { s with
      inputs := rest, hostReads := s.hostReads ++ [{ offset := offset, value := s.readReg offset }] } := by
  simp only [step_eq_takeInput hnext Input.noConfusion, takeInput, hostRead, accessProblem_none halign hlt]
  rfl

end

/-! ## What a register reads as after a write -/

/-- The eight operand registers, each with its implemented bits (10_state.md R24 to R27). -/
def operandMasks : List (Nat × Word) :=
  [(0x04, 0xFFFFFFFF#32), (0x08, 0xFFFFFFFF#32), (0x0C, 0xFFFFFFFF#32), (0x10, 0xFFFFFFFF#32),
    (0x14, 0x0000FFFF#32), (0x18, 0x00FFFFFF#32), (0x1C, 0xFFFFFFFF#32), (0x20, 0xFFFFFFFF#32)]

theorem operandMasks_offset {offset : Nat} {mask : Word} (h : (offset, mask) ∈ operandMasks) :
    offset % 4 = 0 ∧ offset < 64 := by
  have hall : ∀ p ∈ operandMasks, p.1 % 4 = 0 ∧ p.1 < 64 := by decide
  exact hall _ h

/-- Storing the low `n` bits of a word and reading them back masks the word. -/
theorem setWidth_setWidth_eq_and (v : Word) {n : Nat} (hn : n ≤ 32) :
    (v.setWidth n).setWidth 32 = v &&& BitVec.ofNat 32 (2 ^ n - 1) := by
  apply BitVec.eq_of_toNat_eq
  have hpow : 2 ^ n ≤ 2 ^ 32 := Nat.pow_le_pow_right (by decide) hn
  have hmod : v.toNat % 2 ^ n < 2 ^ 32 := (Nat.mod_lt _ (Nat.two_pow_pos n)).trans_le hpow
  rw [BitVec.toNat_and, BitVec.toNat_ofNat, Nat.mod_eq_of_lt (by omega), Nat.and_two_pow_sub_one_eq_mod,
    BitVec.toNat_setWidth, BitVec.toNat_setWidth, Nat.mod_eq_of_lt hmod]

section
variable (s : State) {offset : Nat} {mask v : Word}

theorem State.readReg_writeReg_operand (h : (offset, mask) ∈ operandMasks) :
    (s.writeReg offset v).readReg offset = v &&& mask := by
  have hwhole : v = v &&& 0xFFFFFFFF#32 := (BitVec.and_allOnes (x := v)).symm
  simp only [operandMasks, List.mem_cons, List.not_mem_nil, or_false, Prod.mk.injEq] at h
  rcases h with ⟨rfl, rfl⟩ | ⟨rfl, rfl⟩ | ⟨rfl, rfl⟩ | ⟨rfl, rfl⟩ | ⟨rfl, rfl⟩ | ⟨rfl, rfl⟩ | ⟨rfl, rfl⟩ | ⟨rfl, rfl⟩
  · exact hwhole
  · exact hwhole
  · exact hwhole
  · exact hwhole
  · exact setWidth_setWidth_eq_and v (n := 16) (by decide)
  · exact setWidth_setWidth_eq_and v (n := 24) (by decide)
  · exact hwhole
  · exact hwhole

/-- Each offset shows a field of its own, so of the arms of `readReg` only the written one can change, and `other` is not
that one. -/
theorem State.readReg_writeReg_of_ne (h : (offset, mask) ∈ operandMasks) {other : Nat} (hne : other ≠ offset) :
    (s.writeReg offset v).readReg other = s.readReg other := by
  simp only [operandMasks, List.mem_cons, List.not_mem_nil, or_false, Prod.mk.injEq] at h
  rcases h with ⟨rfl, -⟩ | ⟨rfl, -⟩ | ⟨rfl, -⟩ | ⟨rfl, -⟩ | ⟨rfl, -⟩ | ⟨rfl, -⟩ | ⟨rfl, -⟩ | ⟨rfl, -⟩ <;>
    simp only [State.writeReg, State.readReg] <;> split <;> simp at hne ⊢

theorem State.writeReg_operand_frame (h : (offset, mask) ∈ operandMasks) :
    s.writeReg offset v = { s with regs := (s.writeReg offset v).regs } := by
  simp only [operandMasks, List.mem_cons, List.not_mem_nil, or_false, Prod.mk.injEq] at h
  rcases h with ⟨rfl, -⟩ | ⟨rfl, -⟩ | ⟨rfl, -⟩ | ⟨rfl, -⟩ | ⟨rfl, -⟩ | ⟨rfl, -⟩ | ⟨rfl, -⟩ | ⟨rfl, -⟩ <;> rfl

theorem State.writeReg_readOnly (h : offset ∈ [0x24, 0x28, 0x2C, 0x30, 0x34, 0x38, 0x3C]) :
    s.writeReg offset v = s := by
  simp only [List.mem_cons, List.not_mem_nil, or_false] at h
  rcases h with rfl | rfl | rfl | rfl | rfl | rfl | rfl <;> rfl

end

/-- An accepted doorbell (10_state.md R23, R34). -/
theorem State.doorbell_notBusy {s : State} (v : Word) (hbusy : s.status.busy = false) :
    s.doorbell v = { s with
      regs := { s.regs with cmd := v }
      latch := { s.regs with cmd := v }
      status := { s.status with busy := true }
      phase := .runEntry } :=
  if_neg (by simp [hbusy])

/-- An accepted doorbell changes what `CMD` and `STATUS` read as, and no other register. -/
theorem State.readReg_doorbell_of_ne {s : State} (v : Word) (hbusy : s.status.busy = false) {other : Nat}
    (hcmd : other ≠ 0x00) (hstatus : other ≠ 0x24) : (s.doorbell v).readReg other = s.readReg other := by
  rw [State.doorbell_notBusy v hbusy]
  simp only [State.readReg]
  split <;> simp at hcmd hstatus ⊢

/-! ## What the read-only registers show (10_state.md R28 to R32) -/

section
variable (st : Status)

/-- The fields of `STATUS`, bit by bit (10_state.md R28). -/
theorem Status.getLsbD_word (i : Nat) :
    st.word.getLsbD i =
      if i = 0 then st.busy else if i = 1 then st.ready else if i = 2 then st.dead
      else if i = 3 then false else (BitVec.ofNat 4 st.code.number).getLsbD (i - 4) := by
  unfold Status.word
  change BitVec.getLsbD (w := 24 + 4 + 1 + 1 + 1 + 1) _ i = _
  simp only [BitVec.getLsbD_append]
  match i with
  | 0 | 1 | 2 | 3 => simp
  | k + 4 => simpa using BitVec.lt_of_getLsbD

theorem Status.getLsbD_word_four_add (k : Nat) :
    st.word.getLsbD (4 + k) = (BitVec.ofNat 4 st.code.number).getLsbD k := by
  rw [Status.getLsbD_word, if_neg (by omega), if_neg (by omega), if_neg (by omega), if_neg (by omega),
    Nat.add_sub_cancel_left]

theorem Code.number_lt (c : Code) : c.number < 16 := by cases c <;> decide

theorem Status.word_code : (st.word.extractLsb' 4 4).toNat = st.code.number := by
  have hbits : st.word.extractLsb' 4 4 = BitVec.ofNat 4 st.code.number := by
    ext i hi
    rw [BitVec.getElem_extractLsb', Status.getLsbD_word_four_add, BitVec.getLsbD_eq_getElem hi]
  rw [hbits, BitVec.toNat_ofNat, Nat.mod_eq_of_lt st.code.number_lt]

theorem Status.word_upper : st.word.extractLsb' 8 24 = 0#24 := by
  ext i hi
  rw [BitVec.getElem_extractLsb', show 8 + i = 4 + (4 + i) by omega, Status.getLsbD_word_four_add,
    BitVec.getLsbD_of_ge _ _ (by omega), BitVec.getElem_zero]

end

/-- A 16-bit value read through a 32-bit register: the value below, zeros above. -/
theorem extractLsb'_setWidth_low (c : U16) : (c.setWidth 32).extractLsb' 0 16 = c := by
  ext i hi
  simp [hi, Nat.lt_trans hi]

theorem extractLsb'_setWidth_high (c : U16) : (c.setWidth 32).extractLsb' 16 16 = 0#16 := by
  ext i hi
  simp [BitVec.getLsbD_of_ge]

/-- A bit that the log does not implement is 0 wherever the reserved bits are. -/
theorem getLsbD_faultLog_reserved {log : Word} (hlog : log &&& ~~~faultBits = 0#32) {i : Nat} (hi : i < 32)
    (hbit : faultBits.getLsbD i = false) : log.getLsbD i = false := by
  have hand := congrArg (BitVec.getLsbD · i) hlog
  simpa only [BitVec.getLsbD_and, BitVec.getLsbD_not, hbit, hi, decide_true, Bool.not_false, Bool.and_true,
    BitVec.getLsbD_zero] using hand

theorem extractLsb'_faultLog_upper {log : Word} (hlog : log &&& ~~~faultBits = 0#32) :
    log.extractLsb' 9 23 = 0#23 := by
  have hupper : ∀ i < 23, faultBits.getLsbD (9 + i) = false := by decide
  ext i hi
  rw [BitVec.getElem_extractLsb', getLsbD_faultLog_reserved hlog (by omega) (hupper i hi), BitVec.getElem_zero]

theorem Config.toNat_width {cfg : Config} (hwf : cfg.wf = true) : (BitVec.ofNat 32 cfg.width).toNat = cfg.width := by
  obtain ⟨⟨-, hwidth⟩, -⟩ := (onlyWellFormedConfigurationsRun.1 cfg).mp hwf
  rw [BitVec.toNat_ofNat, Nat.mod_eq_of_lt (by omega)]

theorem Config.toNat_height {cfg : Config} (hwf : cfg.wf = true) :
    (BitVec.ofNat 32 cfg.height).toNat = cfg.height := by
  obtain ⟨-, ⟨-, hheight⟩, -⟩ := (onlyWellFormedConfigurationsRun.1 cfg).mp hwf
  rw [BitVec.toNat_ofNat, Nat.mod_eq_of_lt (by omega)]

/-- Settles O10, field by field: the bits of `STATUS`, the 16 bits of `RESULT`, the reserved bits of the log. -/
theorem readOnlyRegistersShowTheirFields : Obligations.ReadOnlyRegistersShowTheirFields := by
  unfold Obligations.ReadOnlyRegistersShowTheirFields
  intro s
  refine ⟨s.status.getLsbD_word 0, s.status.getLsbD_word 1, s.status.getLsbD_word 2, s.status.getLsbD_word 3,
    s.status.word_code, s.status.word_upper, rfl, extractLsb'_setWidth_low _, extractLsb'_setWidth_high _, rfl,
    fun h => ?_, fun hwf => ⟨Config.toNat_width hwf, Config.toNat_height hwf⟩, rfl, rfl⟩
  exact ⟨getLsbD_faultLog_reserved h.fault_reserved (by decide) (by decide),
    getLsbD_faultLog_reserved h.fault_reserved (by decide) (by decide),
    extractLsb'_faultLog_upper h.fault_reserved⟩

/-- Settles O11: the accepted write, then what each register reads as after it, and its frame. -/
theorem operandRegisterWriteStoresImplementedBits : Obligations.OperandRegisterWriteStoresImplementedBits := by
  unfold Obligations.OperandRegisterWriteStoresImplementedBits
  intro s offset mask v rest hop hnext
  obtain ⟨halign, hlt⟩ := operandMasks_offset hop
  exact ⟨_, step_write hnext halign hlt, State.readReg_writeReg_operand _ hop,
    fun other hne => State.readReg_writeReg_of_ne _ hop hne, State.writeReg_operand_frame _ hop⟩

/-- Settles O12: the write is accepted and stores nothing. -/
theorem readOnlyAndReservedOffsetsIgnoreWrites : Obligations.ReadOnlyAndReservedOffsetsIgnoreWrites := by
  unfold Obligations.ReadOnlyAndReservedOffsetsIgnoreWrites
  intro s offset v rest hoffset hnext
  have hall : ∀ o ∈ [0x24, 0x28, 0x2C, 0x30, 0x34, 0x38, 0x3C], o % 4 = 0 ∧ o < 64 := by decide
  obtain ⟨halign, hlt⟩ := hall offset hoffset
  rw [step_write hnext halign hlt, State.writeReg_readOnly _ hoffset]

/-- Settles O13: it is the step of an accepted read. -/
theorem registerReadsHaveNoSideEffect : Obligations.RegisterReadsHaveNoSideEffect := by
  unfold Obligations.RegisterReadsHaveNoSideEffect
  exact fun s offset rest halign hlt hnext => step_read hnext halign hlt

/-- Settles O14, by the two problems an access can have. -/
theorem otherRegisterAccessesAreRefused : Obligations.OtherRegisterAccessesAreRefused := by
  unfold Obligations.OtherRegisterAccessesAreRefused
  intro s offset size v rest hnext
  refine ⟨fun hbad => step_access_refused hnext (accessProblem_narrowOrMisaligned hbad), ?_⟩
  rintro rfl halign hge
  exact step_access_refused hnext (accessProblem_beyond halign hge)

/-- Settles O15: the step is the doorbell of a block that is not busy. -/
theorem doorbellLatchesAndStarts : Obligations.DoorbellLatchesAndStarts := by
  unfold Obligations.DoorbellLatchesAndStarts
  intro s v rest hnext hbusy
  have hidle : (State.status { s with inputs := rest }).busy = false := hbusy
  have hreads := fun other => State.readReg_doorbell_of_ne v hidle (other := other)
  have hstep := step_write hnext (by decide) (by decide)
  rw [State.writeReg, State.doorbell_notBusy v hidle] at hstep
  rw [State.doorbell_notBusy v hidle] at hreads
  exact ⟨_, hstep, rfl, hreads, rfl, rfl, rfl, rfl, rfl, rfl, rfl, rfl, rfl, rfl, rfl, rfl, rfl, rfl, rfl, rfl⟩

/-! ## Reset -/

/-- The registers that reset to 0 (10_state.md R41). -/
theorem State.readReg_eq_zero_of_reset {s : State} (hregs : s.regs = CommandWords.ofCmd 0) (hresult : s.result = 0)
    (hlog : s.faultLog = 0) :
    ∀ offset ∈ [0x00, 0x04, 0x08, 0x0C, 0x10, 0x14, 0x18, 0x1C, 0x20, 0x28, 0x2C], s.readReg offset = 0#32 := by
  simp [State.readReg, hregs, hresult, hlog, CommandWords.ofCmd]

/-- Settles O1: the zero registers together, the others each by its definition. -/
theorem powerOnGivesTheStatedResetValues : Obligations.PowerOnGivesTheStatedResetValues := by
  unfold Obligations.PowerOnGivesTheStatedResetValues
  intro cfg
  have hword : Status.word { busy := true, ready := false, dead := false, code := .ok } = 0x00000001#32 := by decide
  exact ⟨State.readReg_eq_zero_of_reset rfl rfl rfl, hword, rfl, rfl, rfl, rfl, rfl, rfl⟩

theorem State.powerOn_inv {cfg : Config} (hwf : cfg.wf = true) : (State.powerOn cfg).Inv where
  cfg_wf := hwf
  mem_wf := rfl
  status_agrees := rfl
  fault_reserved := BitVec.zero_and
  trace_proper := by simp [State.powerOn]
  todo_proper := fun _ he => startupEvents_proper he
  decodes_three := rfl

/-- Settles O3: the example profile is one of the well-formed configurations. -/
theorem resetSatisfiesTheStateInvariant : Obligations.ResetSatisfiesTheStateInvariant := by
  unfold Obligations.ResetSatisfiesTheStateInvariant
  exact ⟨State.powerOn_inv (by decide), fun _ => State.powerOn_inv⟩

/-! ## The block's own step -/

/-- Settles O17: the block goes on alone, and an idle block has no move. -/
theorem idleBlockWaitsForADoorbell : Obligations.IdleBlockWaitsForADoorbell := by
  unfold Obligations.IdleBlockWaitsForADoorbell
  intro s hwf hreq hinputs hphase
  rw [step_eq_proceed hwf hreq (.inl hinputs)]
  rcases hphase with hp | hp <;> simp only [proceed, advance, hp]

/-- Settles O50: the block's move in RUN, and the codec port's, decode and execute. -/
theorem stepExecutesTheDecodedInstruction : Obligations.StepExecutesTheDecodedInstruction := by
  unfold Obligations.StepExecutesTheDecodedInstruction
  refine ⟨fun s i ⟨hwf, hreq, hphase, hinputs⟩ hdecode => ?_, fun s bytes i hwf hreq hdecode => ?_⟩
  · rw [step_eq_proceed hwf hreq hinputs]
    simp only [proceed, hphase, runLatched, hdecode]
  · rw [step_eq_runWire hwf hreq]
    simp only [runWire, hdecode]

/-! ## What every step but hardware reset keeps -/

/-- The block is starting up or carrying out an operation: the phases in which something can complete (10_state.md R35). -/
def Phase.working : Phase → Bool
  | .startup _ => true
  | .idle => false
  | .runEntry => true
  | .runEvents _ _ _ => true
  | .idleDead => false

/-- What a step other than hardware reset leaves: the configuration; the log but for implemented bits added; `READY` and
`DEAD` once set; and `CODE` and `RESULT` unless the block was working and has completed, with `OK` for `RESULT`. -/
structure State.Progress (s t : State) : Prop where
  cfg : t.cfg = s.cfg
  faultLog : ∃ bits, bits &&& ~~~faultBits = 0#32 ∧ t.faultLog = s.faultLog ||| bits
  ready : s.status.ready = true → t.status.ready = true
  dead : s.status.dead = true → t.status.dead = true
  code : t.status.code = s.status.code ∨ (s.phase.working = true ∧ t.status.busy = false)
  result : t.result = s.result ∨ (s.phase.working = true ∧ t.status.busy = false ∧ t.status.code = .ok)

section
variable {s t s' : State}

/-- A working block is busy, wherever `STATUS` agrees with the phase. -/
theorem State.busy_of_working (hagrees : s.statusAgrees = true) (hw : s.phase.working = true) :
    s.status.busy = true := by
  cases hp : s.phase with
  | startup todo => exact ((State.statusAgrees_startup hp).mp hagrees).1
  | runEntry | runEvents => exact ((State.statusAgrees_running (by rw [hp]; rfl)).mp hagrees).1
  | idle | idleDead => simp [hp, Phase.working] at hw

theorem State.eventful_phase (h : s.eventful s') : s'.phase = s.phase := by rw [h]

/-! ### The moves of the block -/

theorem State.progress_of_same (hcfg : t.cfg = s.cfg) (hstatus : t.status = s.status) (hresult : t.result = s.result)
    (hlog : t.faultLog = s.faultLog) : s.Progress t where
  cfg := hcfg
  faultLog := ⟨0#32, BitVec.zero_and, by rw [hlog, BitVec.or_zero]⟩
  ready := hstatus ▸ id
  dead := hstatus ▸ id
  code := .inl (congrArg Status.code hstatus)
  result := .inl hresult

/-- Events before a move add nothing to what it changes. -/
theorem State.Progress.after_events (hev : s.eventful s') (h : s'.Progress t) : s.Progress t := by
  rw [hev] at h
  exact ⟨h.cfg, h.faultLog, h.ready, h.dead, h.code, h.result⟩

theorem State.progress_complete (hw : s.phase.working = true) (c : Code) : s.Progress (s.complete c) :=
  ⟨rfl, ⟨c.faultBit, c.faultBit_reserved, rfl⟩, id, id, .inr ⟨hw, rfl⟩, .inl rfl⟩

theorem State.progress_setResult_complete (hw : s.phase.working = true) (v : U16) :
    s.Progress ((s.setResult v).complete .ok) :=
  ⟨rfl, ⟨_, Code.faultBit_reserved .ok, rfl⟩, id, id, .inr ⟨hw, rfl⟩, .inr ⟨hw, rfl, rfl⟩⟩

theorem State.progress_finish (hw : s.phase.working = true) (onOk : OnOk) (received : List Byte) :
    s.Progress (s.finish onOk received) := by
  unfold State.finish State.useReceived
  split
  · exact State.progress_setResult_complete hw _
  · exact State.progress_complete hw _

theorem State.progress_runEvents (hw : s.phase.working = true) (todo : List BusEvent) (onOk : OnOk)
    (received : List Byte) : s.Progress (s.runEvents todo onOk received) := by
  rcases State.runEvents_cases todo onOk received s with
    ⟨s', bytes, -, hev, -, -, -, hrun⟩ | ⟨-, -, -, s', -, -, hev, -, -, -, hrun⟩ <;>
    rw [hrun] <;> refine State.Progress.after_events hev ?_ <;> rw [← State.eventful_phase hev] at hw
  · exact State.progress_finish hw onOk bytes
  · exact State.progress_complete hw .transportError

theorem State.progress_exec {i : Instr} (hw : s.phase.working = true) (hi : i.isOperation = true)
    (hx : exec i s = .next t) : s.Progress t := by
  rcases exec_operation_cases hi hx with ⟨c, -, rfl⟩ | ⟨v, -, rfl⟩ | ⟨todo, onOk, -, rfl⟩
  · exact State.progress_complete hw c
  · exact State.progress_setResult_complete hw v
  · exact State.progress_runEvents hw todo onOk []

theorem State.progress_startupMove {todo : List BusEvent} (hp : s.phase = .startup todo) :
    s.Progress (startupMove todo s) := by
  have hw : s.phase.working = true := by rw [hp]; rfl
  cases todo with
  | nil => exact ⟨rfl, ⟨_, Code.faultBit_reserved .ok, rfl⟩, fun _ => rfl, id, .inr ⟨hw, rfl⟩, .inl rfl⟩
  | cons e rest =>
    rw [startupMove]
    split <;> rename_i s' hperf <;> have hev := (State.perform_cases hperf).1 <;>
      refine State.Progress.after_events hev ?_
    · exact State.progress_of_same rfl rfl rfl rfl
    · rw [← State.eventful_phase hev] at hw
      exact ⟨rfl, ⟨_, Code.faultBit_reserved .transportError, rfl⟩, id, fun _ => rfl, .inr ⟨hw, rfl⟩, .inl rfl⟩

theorem State.progress_eventMove {todo : List BusEvent} {onOk : OnOk} {received : List Byte}
    (hp : s.phase = .runEvents todo onOk received) : s.Progress (eventMove todo onOk received s) := by
  have hw : s.phase.working = true := by rw [hp]; rfl
  cases todo with
  | nil => exact State.progress_finish hw onOk received
  | cons e rest =>
    rw [eventMove]
    split <;> rename_i s' hperf <;> have hev := (State.perform_cases hperf).1 <;>
      refine State.Progress.after_events hev ?_
    · exact State.progress_of_same rfl rfl rfl rfl
    · exact State.progress_complete (State.eventful_phase hev ▸ hw) .transportError

theorem State.progress_runLatched (hw : s.phase.working = true) (hr : runLatched s = .next t) : s.Progress t := by
  unfold runLatched at hr
  split at hr
  · rename_i hd
    exact State.progress_exec hw (decodeCommand_isOperation hd) hr
  · cases hr
    exact State.progress_complete hw .illegalOp

theorem State.progress_enterLatched (hw : s.phase.working = true) (hr : enterLatched s = .next t) :
    s.Progress t := by
  unfold enterLatched at hr
  split at hr
  · rename_i i hd
    rcases Launch.enter_cases hr with ⟨todo, onOk, -, rfl⟩ | hrun
    · exact State.progress_of_same rfl rfl rfl rfl
    · exact State.progress_exec hw (decodeCommand_isOperation hd) (exec_eq_run i s ▸ hrun)
  · cases hr
    exact State.progress_complete hw .illegalOp

theorem State.progress_advance (ha : advance s = .next t) : s.Progress t := by
  rcases advance_cases ha with ⟨todo, hp, rfl⟩ | ⟨-, rfl⟩ | ⟨hp, hr⟩ | ⟨todo, onOk, received, hp, rfl⟩
  · exact State.progress_startupMove hp
  · exact State.progress_of_same rfl rfl rfl rfl
  · exact State.progress_enterLatched (by rw [hp]; rfl) hr
  · exact State.progress_eventMove hp

theorem State.progress_proceed (hpr : proceed s = .next t) : s.Progress t := by
  rcases proceed_cases hpr with ⟨hp, hr⟩ | ⟨-, ha⟩
  · exact State.progress_runLatched (by rw [hp]; rfl) hr
  · exact State.progress_advance ha

/-! ### The host's inputs -/

theorem State.progress_writeReg (s : State) (offset : Nat) (v : Word) : s.Progress (s.writeReg offset v) := by
  rcases State.writeReg_cases s offset v with hw | hw <;> rw [hw]
  · exact State.progress_of_same rfl rfl rfl rfl
  · unfold State.doorbell
    split
    · exact ⟨rfl, ⟨busyViolation, by decide, rfl⟩, id, id, .inl rfl, .inl rfl⟩
    · exact ⟨rfl, ⟨0#32, BitVec.zero_and, BitVec.or_zero.symm⟩, id, id, .inl rfl, .inl rfl⟩

theorem State.progress_takeInput {i : Input} (hi : takeInput i s = .next t) (hne : i ≠ .hardReset) : s.Progress t := by
  rcases takeInput_cases hi with ⟨offset, size, v, -, rfl⟩ | ⟨offset, size, -, rfl⟩ | ⟨a, b, -, -, rfl⟩ | ⟨-, rfl⟩ |
    ⟨-, hadv⟩ | ⟨hreset, -⟩
  · exact s.progress_writeReg offset v
  · exact State.progress_of_same rfl rfl rfl rfl
  · exact State.progress_of_same rfl rfl rfl rfl
  · exact State.progress_of_same rfl rfl rfl rfl
  · exact State.progress_advance hadv
  · exact absurd hreset hne

/-- Every step is hardware reset or progress. -/
theorem step_reset_or_progress (hstep : step s = .next t) :
    (s.resetsNext = true ∧ ∃ rest, t = State.hardReset { s with inputs := rest }) ∨ s.Progress t := by
  obtain ⟨-, ⟨bytes, -, hwire⟩ | ⟨-, -, hblock⟩ | ⟨hreq, i, rest, hinputs, -, hinput⟩⟩ := step_cases hstep
  · rw [runWire_cases hwire]
    exact .inr (State.progress_of_same rfl rfl rfl rfl)
  · exact .inr (State.progress_proceed hblock)
  · by_cases hreset : i = .hardReset
    · subst hreset
      cases hinput
      exact .inl ⟨by simp only [State.resetsNext, hreq, hinputs], rest, rfl⟩
    · obtain ⟨hcfg, hlog, hready, hdead, hcode, hresult⟩ := State.progress_takeInput hinput hreset
      exact .inr ⟨hcfg, hlog, hready, hdead, hcode, hresult⟩

end

/-- Settles O5: progress keeps the configuration, and so does hardware reset. -/
theorem configurationNeverChanges : Obligations.ConfigurationNeverChanges := by
  unfold Obligations.ConfigurationNeverChanges
  intro s t hstep
  rcases step_reset_or_progress hstep with ⟨-, rest, rfl⟩ | hprogress
  · rfl
  · exact hprogress.cfg

/-- Settles O18: the step is progress, and a block that worked was busy by the invariant. -/
theorem statusIsStickyAndCodeChangesAtCompletion : Obligations.StatusIsStickyAndCodeChangesAtCompletion := by
  unfold Obligations.StatusIsStickyAndCodeChangesAtCompletion
  intro s t hinv hstep hreset
  have hprogress : s.Progress t := (step_reset_or_progress hstep).resolve_left (by simp [hreset])
  obtain ⟨bits, hbits, hlog⟩ := hprogress.faultLog
  refine ⟨?_, ?_, hprogress.ready, hprogress.dead, fun hcode => ?_, fun hresult => ?_⟩
  · rw [hlog]
    ext i
    simp only [BitVec.getElem_and, BitVec.getElem_or, Bool.and_eq_left_iff_imp, Bool.or_eq_true]
    exact .inl
  · change t.faultLog &&& ~~~faultBits = s.faultLog &&& ~~~faultBits
    rw [hlog, BitVec.and_comm, BitVec.and_or_distrib_left, BitVec.and_comm _ bits, hbits, BitVec.or_zero,
      BitVec.and_comm]
  · exact (hprogress.code.resolve_left hcode).imp_left (State.busy_of_working hinv.status_agrees)
  · exact (hprogress.result.resolve_left hresult).imp_left (State.busy_of_working hinv.status_agrees)

/-! ## What an operation reads -/

section

/-- `s` after the events of `new`, which left these answers and this count of the transport's free answers. -/
def State.afterEvents (s : State) (new : List TraceEntry) (answers : List Answer) (draws : Nat) : State :=
  { s with trace := s.trace ++ new, answers := answers, draws := draws }

theorem State.afterEvents_afterOperation (s : State) (c : Code) (new new' : List TraceEntry) (value : Option U16)
    (answers answers' : List Answer) (draws draws' : Nat) :
    (s.afterEvents new answers draws).afterOperation c new' value answers' draws' =
      s.afterOperation c (new ++ new') value answers' draws' := by
  rw [State.afterOperation, State.afterOperation, State.afterEvents, List.append_assoc]

theorem State.complete_eq_afterOperation (s : State) (c : Code) :
    s.complete c = s.afterOperation c [] none s.answers s.draws := by
  have hlog : s.faultLog ||| c.faultBit = if c = .ok then s.faultLog else s.faultLog ||| 1#32 <<< c.number := by
    unfold Code.faultBit
    split
    · exact BitVec.or_zero
    · rfl
  simp only [State.complete, State.afterOperation, Status.idlePhase, hlog, List.append_nil, Option.getD_none]

theorem State.setResult_complete_eq_afterOperation (s : State) (v : U16) :
    (s.setResult v).complete .ok = s.afterOperation .ok [] (some v) s.answers s.draws :=
  State.complete_eq_afterOperation _ _

variable {s u : State}

/-- The outcome of an event depends on the transport only. -/
theorem State.perform_agree (hanswers : u.answers = s.answers) (hdraws : u.draws = s.draws) (e : BusEvent) :
    ∃ a answers draws, s.perform e = (a, s.afterEvents [{ event := e, answer := a }] answers draws) ∧
      u.perform e = (a, u.afterEvents [{ event := e, answer := a }] answers draws) := by
  simp only [State.perform, State.draw, hanswers, hdraws]
  split
  · exact ⟨_, s.answers, s.draws, rfl, by rw [← hanswers, ← hdraws]; rfl⟩
  · exact ⟨_, _, s.draws, rfl, by rw [← hdraws]; rfl⟩
  · rename_i hnil
    exact ⟨_, [], _, by rw [← hnil]; rfl, by rw [← hnil, ← hanswers]; rfl⟩

/-- `t` follows `s` and `t'` follows `u` by the same completed operation: the same code, events, value and use of the
transport. -/
def State.sameCompletion (s u t t' : State) : Prop :=
  ∃ c new value answers draws,
    t = s.afterOperation c new value answers draws ∧ t' = u.afterOperation c new value answers draws

theorem State.sameCompletion.outcomes {t t' : State} {o o' : Host.Outcome State Fault Refusal}
    (h : s.sameCompletion u t t') (ho : o = .next t) (ho' : o' = .next t') :
    ∃ c new value answers draws, o = .next (s.afterOperation c new value answers draws) ∧
      o' = .next (u.afterOperation c new value answers draws) := by
  obtain ⟨c, new, value, answers, draws, rfl, rfl⟩ := h
  exact ⟨c, new, value, answers, draws, ho, ho'⟩

theorem State.sameCompletion_after_events {t t' : State} {new : List TraceEntry} {answers : List Answer} {draws : Nat}
    (h : (s.afterEvents new answers draws).sameCompletion (u.afterEvents new answers draws) t t') :
    s.sameCompletion u t t' := by
  obtain ⟨c, new', value, answers', draws', rfl, rfl⟩ := h
  rw [State.afterEvents_afterOperation, State.afterEvents_afterOperation]
  exact ⟨_, _, _, _, _, rfl, rfl⟩

theorem State.complete_sameCompletion (hanswers : u.answers = s.answers) (hdraws : u.draws = s.draws) (c : Code) :
    s.sameCompletion u (s.complete c) (u.complete c) := by
  rw [s.complete_eq_afterOperation, u.complete_eq_afterOperation, hanswers, hdraws]
  exact ⟨_, _, _, _, _, rfl, rfl⟩

theorem State.setResult_complete_sameCompletion (hanswers : u.answers = s.answers) (hdraws : u.draws = s.draws)
    (v : U16) : s.sameCompletion u ((s.setResult v).complete .ok) ((u.setResult v).complete .ok) := by
  rw [s.setResult_complete_eq_afterOperation, u.setResult_complete_eq_afterOperation, hanswers, hdraws]
  exact ⟨_, _, _, _, _, rfl, rfl⟩

theorem State.finish_sameCompletion (hanswers : u.answers = s.answers) (hdraws : u.draws = s.draws) (onOk : OnOk)
    (received : List Byte) : s.sameCompletion u (s.finish onOk received) (u.finish onOk received) := by
  unfold State.finish State.useReceived
  split
  · exact State.setResult_complete_sameCompletion hanswers hdraws _
  · exact State.complete_sameCompletion hanswers hdraws _

/-- Performing events depends on the transport only, by induction on the events. -/
theorem State.runEvents_sameCompletion (todo : List BusEvent) (onOk : OnOk) :
    ∀ (received : List Byte) {s u : State}, u.answers = s.answers → u.draws = s.draws →
      s.sameCompletion u (s.runEvents todo onOk received) (u.runEvents todo onOk received) := by
  induction todo with
  | nil => exact fun received _ _ hanswers hdraws => State.finish_sameCompletion hanswers hdraws onOk received
  | cons e rest ih =>
    intro received s u hanswers hdraws
    obtain ⟨a, answers, draws, hs, hu⟩ := State.perform_agree hanswers hdraws e
    rw [State.runEvents, State.runEvents, hs, hu]
    refine State.sameCompletion_after_events (new := [{ event := e, answer := a }]) (answers := answers)
      (draws := draws) ?_
    cases a with
    | ok bytes => exact ih bytes rfl rfl
    | fail =>
      exact State.complete_sameCompletion (s := s.afterEvents _ answers draws) (u := u.afterEvents _ answers draws)
        rfl rfl .transportError

/-- The checks of an instruction read the configuration, `DEAD` and, for `BLIT`, host memory
(42_display_ops.md R170). -/
theorem launchOf_congr {i : Instr} (hcfg : u.cfg = s.cfg) (hdead : u.status.dead = s.status.dead)
    (hmem : (∃ addr len x y w h, i = .blit addr len x y w h) → u.mem = s.mem) : launchOf i u = launchOf i s := by
  cases i with
  | blit addr len x y w h =>
    simp only [launchOf, launchBlit, unlessDead, hcfg, hdead, hmem ⟨addr, len, x, y, w, h, rfl⟩]
  | pixelGet => simp only [launchOf, launchPixelGet, unlessDead, hcfg, hdead]
  | pixelSet => simp only [launchOf, launchPixelSet, unlessDead, hcfg, hdead]
  | fillRect | fill | hline | vline =>
    simp only [launchOf, launchFill, launchHline, launchVline, launchFillRect, unlessDead, hcfg, hdead]
  | color565 | encodePosition | encodePixel | decodePixel => rfl

end

/-- Settles O53: both states decide the same launch, and each launch an operation can have goes the same way in both. -/
theorem operationsIgnoreRegistersAndHistory : Obligations.OperationsIgnoreRegistersAndHistory := by
  unfold Obligations.OperationsIgnoreRegistersAndHistory
  intro i s u hi hcfg hdead hanswers hdraws hmem
  rw [exec_eq_run, exec_eq_run, launchOf_congr hcfg hdead hmem]
  rcases launchOf_cases (s := s) hi with ⟨c, hl⟩ | ⟨v, hl⟩ | ⟨why, hl⟩ | ⟨_, _, _, _, _, _, -, -, -, hl, -⟩ |
    ⟨_, _, _, _, _, -, -, -, hl⟩ <;> rw [hl]
  · exact .inr ((State.complete_sameCompletion hanswers hdraws c).outcomes rfl rfl)
  · exact .inr ((State.setResult_complete_sameCompletion hanswers hdraws v).outcomes rfl rfl)
  · exact .inl ⟨why, rfl, rfl⟩
  · exact .inr ((State.runEvents_sameCompletion _ _ [] hanswers hdraws).outcomes rfl rfl)
  · exact .inr ((State.runEvents_sameCompletion _ _ [] hanswers hdraws).outcomes rfl rfl)

end Sys2Proof.Machine
end

section
/-! PROOFS. Host memory (20_memory.md): who writes it, what a host store does, a `BLIT` over the registers, and a
`PIXEL_GET` whose events fail. -/

namespace Sys2Proof.Machine

/-! ## The register space inside host memory (20_memory.md R75) -/

/-- A buffer overlaps the register space exactly when they share an address. -/
theorem overlapsRegisters_iff {cfg : Config} {base : Nat} (hbase : cfg.regBase = some base) (addr len : Nat) :
    overlapsRegisters cfg addr len = true ↔ ∃ a, addr ≤ a ∧ a < addr + len ∧ base ≤ a ∧ a < base + 64 := by
  simp only [overlapsRegisters, hbase, decide_eq_true_eq]
  constructor
  · rintro ⟨hlen, hlow, hhigh⟩
    exact ⟨max addr base, by omega, by omega, by omega, by omega⟩
  · rintro ⟨a, h1, h2, h3, h4⟩
    omega

/-- Settles O41: the overlap is tested before everything else of the launch. -/
theorem blitFromTheRegisterSpaceIsRefused : Obligations.BlitFromTheRegisterSpaceIsRefused := by
  unfold Obligations.BlitFromTheRegisterSpaceIsRefused
  intro s addr len base x y w h hbase hshared
  have hoverlap := (overlapsRegisters_iff hbase addr len).mpr hshared
  simp only [exec_eq_run, launchOf, launchBlit, refuseOverlap, hoverlap, if_true, Launch.run]

/-! ## What the block leaves alone -/

section
variable {s s' t : State}

theorem State.sameButBlock.trans (h : s.sameButBlock s') (h' : s'.sameButBlock t) : s.sameButBlock t where
  cfg := h'.cfg.trans h.cfg
  regs := h'.regs.trans h.regs
  latch := h'.latch.trans h.latch
  mem := h'.mem.trans h.mem
  inputs := h'.inputs.trans h.inputs
  hostReads := h'.hostReads.trans h.hostReads
  codec := h'.codec.trans h.codec

theorem State.sameButBlock_refl (s : State) : s.sameButBlock s := ⟨rfl, rfl, rfl, rfl, rfl, rfl, rfl⟩

theorem State.eventful_sameButBlock (h : s.eventful s') : s.sameButBlock s' := by
  rw [h]
  exact ⟨rfl, rfl, rfl, rfl, rfl, rfl, rfl⟩

theorem State.complete_sameButBlock (s : State) (c : Code) : s.sameButBlock (s.complete c) :=
  ⟨rfl, rfl, rfl, rfl, rfl, rfl, rfl⟩

theorem State.setResult_sameButBlock (s : State) (v : U16) : s.sameButBlock (s.setResult v) :=
  ⟨rfl, rfl, rfl, rfl, rfl, rfl, rfl⟩

theorem State.finish_sameButBlock (s : State) (onOk : OnOk) (received : List Byte) :
    s.sameButBlock (s.finish onOk received) := by
  unfold State.finish State.useReceived
  split
  · exact (s.setResult_sameButBlock _).trans (State.complete_sameButBlock _ _)
  · exact s.complete_sameButBlock _

theorem State.runEvents_sameButBlock (s : State) (todo : List BusEvent) (onOk : OnOk) (received : List Byte) :
    s.sameButBlock (s.runEvents todo onOk received) := by
  rcases State.runEvents_cases todo onOk received s with
    ⟨s', bytes, -, hev, -, -, -, hrun⟩ | ⟨-, -, -, s', -, -, hev, -, -, -, hrun⟩ <;> rw [hrun]
  · exact (State.eventful_sameButBlock hev).trans (s'.finish_sameButBlock onOk bytes)
  · exact (State.eventful_sameButBlock hev).trans (s'.complete_sameButBlock _)

theorem exec_sameButBlock {i : Instr} (hi : i.isOperation = true) (hx : exec i s = .next t) : s.sameButBlock t := by
  rcases exec_operation_cases hi hx with ⟨c, -, rfl⟩ | ⟨v, -, rfl⟩ | ⟨todo, onOk, -, rfl⟩
  · exact s.complete_sameButBlock c
  · exact (s.setResult_sameButBlock v).trans (State.complete_sameButBlock _ _)
  · exact s.runEvents_sameButBlock todo onOk []

theorem startupMove_sameButBlock (s : State) (todo : List BusEvent) : s.sameButBlock (startupMove todo s) := by
  cases todo with
  | nil => exact ⟨rfl, rfl, rfl, rfl, rfl, rfl, rfl⟩
  | cons e rest =>
    rw [startupMove]
    split <;> rename_i s' hperf <;> have hev := State.eventful_sameButBlock (State.perform_cases hperf).1
    · exact hev.trans ⟨rfl, rfl, rfl, rfl, rfl, rfl, rfl⟩
    · exact hev.trans ⟨rfl, rfl, rfl, rfl, rfl, rfl, rfl⟩

theorem eventMove_sameButBlock (s : State) (todo : List BusEvent) (onOk : OnOk) (received : List Byte) :
    s.sameButBlock (eventMove todo onOk received s) := by
  cases todo with
  | nil => exact s.finish_sameButBlock onOk received
  | cons e rest =>
    rw [eventMove]
    split <;> rename_i s' hperf <;> have hev := State.eventful_sameButBlock (State.perform_cases hperf).1
    · exact hev.trans ⟨rfl, rfl, rfl, rfl, rfl, rfl, rfl⟩
    · exact hev.trans (s'.complete_sameButBlock _)

theorem runLatched_sameButBlock (hr : runLatched s = .next t) : s.sameButBlock t := by
  unfold runLatched at hr
  split at hr
  · rename_i i hd
    exact exec_sameButBlock (decodeCommand_isOperation hd) hr
  · cases hr
    exact s.complete_sameButBlock _

theorem enterLatched_sameButBlock (hr : enterLatched s = .next t) : s.sameButBlock t := by
  unfold enterLatched at hr
  split at hr
  · rename_i i hd
    rcases Launch.enter_cases hr with ⟨todo, onOk, -, rfl⟩ | hrun
    · exact ⟨rfl, rfl, rfl, rfl, rfl, rfl, rfl⟩
    · exact exec_sameButBlock (decodeCommand_isOperation hd) (exec_eq_run i s ▸ hrun)
  · cases hr
    exact s.complete_sameButBlock _

theorem advance_sameButBlock (ha : advance s = .next t) : s.sameButBlock t := by
  rcases advance_cases ha with ⟨todo, -, rfl⟩ | ⟨-, rfl⟩ | ⟨-, hr⟩ | ⟨todo, onOk, received, -, rfl⟩
  · exact startupMove_sameButBlock s todo
  · exact t.sameButBlock_refl
  · exact enterLatched_sameButBlock hr
  · exact eventMove_sameButBlock s todo onOk received

theorem proceed_sameButBlock (hpr : proceed s = .next t) : s.sameButBlock t := by
  rcases proceed_cases hpr with ⟨-, hr⟩ | ⟨-, ha⟩
  · exact runLatched_sameButBlock hr
  · exact advance_sameButBlock ha

theorem State.writeReg_mem (s : State) (offset : Nat) (v : Word) : (s.writeReg offset v).mem = s.mem := by
  rcases State.writeReg_cases s offset v with hw | hw <;> rw [hw]
  unfold State.doorbell
  split <;> rfl

/-- Of the host's inputs only its store writes host memory. -/
theorem takeInput_mem {i : Input} (hi : takeInput i s = .next t) (hne : ∀ a b, i ≠ .memWrite a b) :
    t.mem = s.mem := by
  rcases takeInput_cases hi with ⟨offset, size, v, -, rfl⟩ | ⟨offset, size, -, rfl⟩ | ⟨a, b, rfl, -, -⟩ | ⟨-, rfl⟩ |
    ⟨-, hadv⟩ | ⟨-, rfl⟩
  · exact s.writeReg_mem offset v
  · rfl
  · exact absurd rfl (hne a b)
  · rfl
  · exact (advance_sameButBlock hadv).mem
  · rfl

end

/-- Settles O55, by whose move the step is: the codec port's, the block's, the host's. -/
theorem blockNeverWritesHostMemory : Obligations.BlockNeverWritesHostMemory := by
  unfold Obligations.BlockNeverWritesHostMemory
  intro s t hstep hstore
  obtain ⟨-, ⟨bytes, -, hwire⟩ | ⟨-, -, hblock⟩ | ⟨hreq, i, rest, hinputs, -, hinput⟩⟩ := step_cases hstep
  · rw [runWire_cases hwire]
  · exact (proceed_sameButBlock hblock).mem
  · refine takeInput_mem (s := { s with inputs := rest }) hinput ?_
    rintro a b rfl
    exact hstore a b rest hreq hinputs

/-! ## The host's store (20_memory.md R60, R62) -/

section
variable {s : State} {a : Nat} {v : Byte} {rest : List Input}

theorem step_memWrite (hnext : s.nextInput (.memWrite a v) rest) : step s = hostStore a v { s with inputs := rest } :=
  step_eq_takeInput hnext Input.noConfusion

/-- The address lies in the buffer of a running `BLIT` (70_reset_and_hazards.md R259). -/
theorem State.inRunningBuffer_of_blit {addr len : Nat} {x y w h : Int}
    (hdecode : decodeCommand s.latch = .instr (.blit addr len x y w h)) (hlow : addr ≤ a) (hhigh : a < addr + len)
    (hrun : s.phase.running = true) : s.inRunningBuffer a = true := by
  simp only [State.inRunningBuffer, hdecode, hrun, hlow, hhigh, and_self, decide_true, Bool.and_true]

end

/-- Settles O57: the branches of the store, and what a write of host memory does. -/
theorem hostStoresOneByte : Obligations.HostStoresOneByte := by
  unfold Obligations.HostStoresOneByte
  intro s a v rest hnext
  rw [step_memWrite hnext, hostStore, Memory.size]
  refine ⟨fun hlt hclear hfree hwf => ?_, fun hge => if_neg (by omega), fun hlt hclear hblit hrun => ?_,
    fun hlt ⟨base, hbase, hlow, hhigh⟩ => ?_⟩
  · refine ⟨{ s with mem := s.mem.write a v, inputs := rest }, ?_, Memory.read_write_self v hwf,
      fun other hne => Memory.read_write_of_ne s.mem v hne.symm, Memory.write_keeps_wf v hwf hlt, rfl⟩
    have hoff : ¬ State.inRunningBuffer { s with inputs := rest } a = true := Bool.eq_false_iff.mp hfree
    rw [if_pos hlt, if_neg (by simp [hclear]), if_neg hoff]
  · obtain ⟨addr, len, x, y, w, h, hdecode, hlow, hhigh⟩ := hblit
    have hrunning : s.phase.running = true := by
      rcases hrun with hp | ⟨todo, onOk, received, hp⟩ <;> rw [hp] <;> rfl
    have hbuffer : State.inRunningBuffer { s with inputs := rest } a = true :=
      State.inRunningBuffer_of_blit hdecode hlow hhigh hrunning
    rw [if_pos hlt, if_neg (by simp [hclear]), if_pos hbuffer]
  · have hoverlap := (overlapsRegisters_iff hbase a 1).mpr ⟨a, by omega, by omega, hlow, hhigh⟩
    rw [if_pos hlt, if_pos hoverlap]

/-! ## Events that fail -/

/-- Two bytes of an integer, most significant first, are the bytes of its `u16`. -/
theorem be16_toU16 (v : Int) : be16 (toU16 v) = bigEndian v := by
  have hhigh : (toU16 v).extractLsb' 8 8 = BitVec.ofInt 8 (v / 256) := by
    apply BitVec.eq_of_toNat_eq
    simp only [toU16, BitVec.extractLsb'_toNat, BitVec.toNat_ofInt, Nat.shiftRight_eq_div_pow]
    omega
  have hlow : (toU16 v).extractLsb' 0 8 = BitVec.ofInt 8 (v % 256) := by
    apply BitVec.eq_of_toNat_eq
    simp only [toU16, BitVec.extractLsb'_toNat, BitVec.toNat_ofInt, Nat.shiftRight_eq_div_pow]
    omega
  rw [be16, bigEndian, hhigh, hlow]

theorem encodePosition_toU16 (a b : Int) : encodePosition (toU16 a) (toU16 b) = bigEndian a ++ bigEndian b := by
  rw [encodePosition, be16_toU16, be16_toU16]

/-- An event that the transport's next answer does not satisfy fails: an answer `fail`, or a read of another length
(20_memory.md R67). -/
theorem State.perform_unfit {s : State} {e : BusEvent} {a : Answer} {rest : List Answer} (he : e.drawsAnswer = true)
    (ha : a.fit e = .fail) (h : s.answers = a :: rest) :
    s.perform e =
      (.fail, { s with answers := rest, trace := s.trace ++ [{ event := e, answer := .fail }] }) := by
  simp only [State.perform, State.draw, he, h, ha, State.record]

/-- Writes that succeed and then an event that fails: the operation ends with `TRANSPORT_ERROR` there
(60_exceptions.md R212). -/
theorem State.runEvents_unfit {es after : List BusEvent} {e : BusEvent} {onOk : OnOk} {s : State} {a : Answer}
    {rest : List Answer} (hes : ∀ e' ∈ es, e'.isWrite = true) (he : e.drawsAnswer = true) (ha : a.fit e = .fail)
    (h : s.answers = okAnswers es.length ++ a :: rest) :
    s.runEvents (es ++ e :: after) onOk [] =
      (s.afterEvents (okEntries es ++ [{ event := e, answer := .fail }]) rest s.draws).complete .transportError := by
  rw [State.runEvents_append_ok es (e :: after) onOk s [] (a :: rest) hes h, State.runEvents,
    State.perform_unfit he ha rfl, List.append_assoc]
  rfl

theorem State.afterEvents_eventful (s : State) (new : List TraceEntry) (answers : List Answer) (draws : Nat) :
    s.eventful (s.afterEvents new answers draws) := rfl

/-- Completing after events is a completion of the state before them. -/
theorem State.completed_complete {s s' : State} (hev : s.eventful s') (c : Code) : s.Completed (s'.complete c) c := by
  rw [hev, State.complete_eq_afterOperation]
  exact ⟨rfl, rfl, rfl, rfl, rfl, rfl⟩

/-- An operation one of whose events fails after writes that succeeded: `RESULT` is kept, whatever it is for. -/
theorem exec_events_unfit {i : Instr} {es after : List BusEvent} {e : BusEvent} {onOk : OnOk} {s : State} {a : Answer}
    {rest : List Answer} (hlaunch : launchOf i s = .events (es ++ e :: after) onOk)
    (hes : ∀ e' ∈ es, e'.isWrite = true) (he : e.drawsAnswer = true) (ha : a.fit e = .fail)
    (h : s.answers = okAnswers es.length ++ a :: rest) :
    ∃ t, exec i s = .next t ∧ s.Completed t .transportError ∧ s.sameButBlock t ∧ t.result = s.result ∧
      t.answers = rest ∧ t.draws = s.draws ∧
      t.trace = s.trace ++ (okEntries es ++ [{ event := e, answer := .fail }]) := by
  rw [exec_eq_run, hlaunch, Launch.run, State.runEvents_unfit hes he ha h]
  have hev := s.afterEvents_eventful (okEntries es ++ [{ event := e, answer := .fail }]) rest s.draws
  exact ⟨_, rfl, State.completed_complete hev _,
    (State.eventful_sameButBlock hev).trans (State.complete_sameButBlock _ _), rfl, rfl, rfl, rfl⟩

/-- What `PIXEL_GET` of two `u16` coordinates performs in a block that is not dead (42_display_ops.md R172). -/
theorem launchOf_pixelGet {s : State} {x y : Int} {cs ps rd : Byte} (hdead : s.status.dead = false)
    (hids : s.cfg.readIds cs ps rd) (hx : FitsU16 x) (hy : FitsU16 y) :
    launchOf (.pixelGet x y) s =
      .events [.write (some cs) (bigEndian x ++ bigEndian x), .write (some ps) (bigEndian y ++ bigEndian y),
        .read (some rd) 3] .decodeResult := by
  obtain ⟨hcs, hps, hrd⟩ := hids
  rw [launchOf, launchPixelGet, unlessDead, if_neg (by simp [hdead]), if_pos ⟨hx, hy⟩]
  simp only [windowRead, hcs, hps, hrd, readWindowEvents_pixel, encodePosition_toU16]

/-- Settles O31: each way to fail is a number of writes that succeed and then an answer that does not fit. -/
theorem pixelGetFailureLeavesResult : Obligations.PixelGetFailureLeavesResult := by
  unfold Obligations.PixelGetFailureLeavesResult
  intro s x y cs ps rd rest hdead hids hx hy caset paset ramrd new hnew
  have hlaunch : launchOf (.pixelGet x y) s = .events [caset, paset, ramrd] .decodeResult :=
    launchOf_pixelGet hdead hids hx hy
  have hcaset : ∀ e ∈ [caset], e.isWrite = true := by simp [caset, BusEvent.isWrite]
  have hwindow : ∀ e ∈ [caset, paset], e.isWrite = true := by simp [caset, paset, BusEvent.isWrite]
  rcases hnew with ⟨hanswers, rfl⟩ | ⟨hanswers, rfl⟩ | ⟨hanswers | ⟨bytes, hlen, hanswers⟩, rfl⟩
  · exact exec_events_unfit (es := []) hlaunch (by simp) rfl rfl hanswers
  · exact exec_events_unfit (es := [caset]) hlaunch hcaset rfl rfl hanswers
  · exact exec_events_unfit (es := [caset, paset]) hlaunch hwindow rfl rfl hanswers
  · exact exec_events_unfit (es := [caset, paset]) (a := .ok bytes) hlaunch hwindow rfl (if_neg hlen) hanswers

end Sys2Proof.Machine
end

section
/-! PROOFS. An operation performed one event a turn (20_memory.md R76) ends where executing it whole does.

Turns are run from a state without inputs, to which the list of turns is added: a move of the block neither reads nor
changes the inputs, and completion overwrites the phase in which the block stood. -/

namespace Sys2Proof.Machine

/-! ## Runs of the machine -/

section
variable {M : Host.Core} {s t : M.State}

theorem run_zero (s : M.State) : M.run 0 s = .next s := rfl

theorem run_succ_next (h : M.step s = .next t) (n : Nat) : M.run (n + 1) s = M.run n t := by
  rw [Host.Core.run, h]

theorem run_succ_refused {why : M.Refusal} (h : M.step s = .refused why) (n : Nat) :
    M.run (n + 1) s = .refused why := by
  rw [Host.Core.run, h]

end

/-! ## A block given turns -/

/-- `s` standing in phase `p`, with `n` turns to come. -/
def State.atTurn (s : State) (p : Phase) (n : Nat) : State :=
  { s with phase := p, inputs := List.replicate n .turn }

/-- The host leaves the block alone: nothing stands on the codec port, and no input is left. -/
structure State.Unattended (s : State) : Prop where
  wf : s.cfg.wf = true
  request : s.codec.request = none
  inputs : s.inputs = []

section
variable {s t : State} {n : Nat}

theorem State.Unattended.of_sameButBlock (h : s.Unattended) (hsame : s.sameButBlock t) : t.Unattended :=
  ⟨hsame.cfg ▸ h.wf, hsame.codec ▸ h.request, hsame.inputs.trans h.inputs⟩

theorem State.atTurn_zero (h : s.Unattended) : s.atTurn s.phase 0 = s := by
  rw [State.atTurn, List.replicate_zero, ← h.inputs]

theorem step_atTurn (h : s.Unattended) (p : Phase) (n : Nat) :
    step (s.atTurn p (n + 1)) = advance (s.atTurn p n) :=
  step_eq_takeInput (s := s.atTurn p (n + 1)) ⟨h.wf, h.request, rfl⟩ Input.noConfusion

/-- The first of the turns to come is a move of the block. -/
theorem run_atTurn_succ (h : s.Unattended) {p : Phase} {n : Nat} (hadvance : advance (s.atTurn p n) = .next t) :
    Sys2Proof.core.run (n + 1) (s.atTurn p (n + 1)) = Sys2Proof.core.run n t :=
  run_succ_next (M := Sys2Proof.core) ((step_atTurn h p n).trans hadvance) n

/-- An idle block lets every turn pass. -/
theorem run_idle (h : s.Unattended) (hp : s.phase = .idle ∨ s.phase = .idleDead) (n : Nat) :
    Sys2Proof.core.run n (s.atTurn s.phase n) = .next s := by
  induction n with
  | zero => exact (run_zero (M := Sys2Proof.core) _).trans (by rw [State.atTurn_zero h])
  | succ n ih =>
    have hadvance : advance (s.atTurn s.phase n) = .next (s.atTurn s.phase n) := by
      rcases hp with hp | hp <;> simp only [advance, State.atTurn, hp]
    rw [run_atTurn_succ h hadvance, ih]

theorem State.complete_atTurn (s : State) (c : Code) (p : Phase) (n : Nat) :
    (s.atTurn p n).complete c = (s.complete c).atTurn (s.complete c).phase n := rfl

theorem State.complete_idle (s : State) (c : Code) :
    (s.complete c).phase = .idle ∨ (s.complete c).phase = .idleDead := by
  rw [State.complete_phase, Status.idlePhase]
  split
  · exact .inr rfl
  · exact .inl rfl

/-- Once an operation completes, the turns that are left pass. -/
theorem run_complete (h : s.Unattended) (c : Code) (p : Phase) (n : Nat) :
    Sys2Proof.core.run n ((s.atTurn p n).complete c) = .next (s.complete c) := by
  rw [State.complete_atTurn]
  exact run_idle (h.of_sameButBlock (s.complete_sameButBlock c)) (s.complete_idle c) n

theorem run_finish (h : s.Unattended) (onOk : OnOk) (received : List Byte) (p : Phase) (n : Nat) :
    Sys2Proof.core.run n ((s.atTurn p n).finish onOk received) = .next (s.finish onOk received) := by
  unfold State.finish State.useReceived
  split
  · exact run_complete (h.of_sameButBlock (s.setResult_sameButBlock _)) .ok p n
  · exact run_complete h .ok p n

theorem State.perform_atTurn (s : State) (e : BusEvent) (p : Phase) (n : Nat) :
    (s.atTurn p n).perform e = ((s.perform e).1, (s.perform e).2.atTurn p n) := by
  unfold State.perform State.draw
  cases e.drawsAnswer with
  | false => rfl
  | true =>
    cases ha : s.answers <;> simp only [State.atTurn, ha] <;> rfl

/-- The events of an operation, one a turn, by induction on them. -/
theorem run_events (todo : List BusEvent) (onOk : OnOk) :
    ∀ {s : State} {n : Nat} (received : List Byte), s.Unattended → todo.length < n →
      Sys2Proof.core.run n (s.atTurn (.runEvents todo onOk received) n) = .next (s.runEvents todo onOk received) := by
  induction todo with
  | nil =>
    intro s n received h hn
    obtain ⟨n, rfl⟩ := Nat.exists_eq_add_of_le' (Nat.one_le_of_lt hn)
    rw [run_atTurn_succ h rfl]
    exact run_finish h onOk received _ n
  | cons e rest ih =>
    intro s n received h hn
    obtain ⟨n, rfl⟩ := Nat.exists_eq_add_of_le' (Nat.one_le_of_lt hn)
    rw [List.length_cons] at hn
    rcases hperf : s.perform e with ⟨a, s'⟩
    have h' := h.of_sameButBlock (State.eventful_sameButBlock (State.perform_cases hperf).1)
    rw [run_atTurn_succ h rfl, eventMove, State.perform_atTurn, State.runEvents, hperf]
    cases a with
    | ok bytes => exact ih bytes h' (by omega)
    | fail => exact run_complete h' .transportError _ n

theorem exists_bound_of_succ {P : Nat → Prop} (h : ∀ k, P (k + 1)) : ∃ bound, ∀ n, bound ≤ n → P n := by
  refine ⟨1, fun n hn => ?_⟩
  obtain ⟨k, rfl⟩ := Nat.exists_eq_add_of_le' hn
  exact h k

/-- The first move of a latched operation decides its launch and enters it. -/
theorem advance_runEntry {i : Instr} (hp : s.phase = .runEntry) (hdecode : decodeCommand s.latch = .instr i) (n : Nat) :
    advance (s.atTurn s.phase n) = (launchOf i s).enter (s.atTurn s.phase n) := by
  have hlaunch : launchOf i (s.atTurn s.phase n) = launchOf i s := launchOf_congr rfl rfl (fun _ => rfl)
  have hlatch : decodeCommand (s.atTurn s.phase n).latch = .instr i := hdecode
  have hphase : (s.atTurn s.phase n).phase = .runEntry := hp
  rw [← hlaunch]
  simp only [advance, hphase, enterLatched, hlatch]

/-- Entering events takes a turn, each event one, and the completion one more. -/
theorem run_enter_events {p : Phase} {todo : List BusEvent} {onOk : OnOk} (h : s.Unattended)
    (hfirst : ∀ n, advance (s.atTurn p n) = (Launch.events todo onOk).enter (s.atTurn p n)) :
    ∃ bound, ∀ n, bound ≤ n → Sys2Proof.core.run n (s.atTurn p n) = (Launch.events todo onOk).run s := by
  refine ⟨todo.length + 1 + 1, fun n hn => ?_⟩
  obtain ⟨k, rfl⟩ := Nat.exists_eq_add_of_le' (Nat.le_of_add_left_le hn)
  rw [run_atTurn_succ h (hfirst k)]
  exact run_events todo onOk [] h (by omega)

/-- A latched operation given turns, by what its checks decide. -/
theorem run_turns {i : Instr} (h : s.Unattended) (hp : s.phase = .runEntry)
    (hdecode : decodeCommand s.latch = .instr i) :
    ∃ bound, ∀ n, bound ≤ n → Sys2Proof.core.run n (s.atTurn s.phase n) = exec i s := by
  have hfirst := advance_runEntry hp hdecode
  rw [exec_eq_run]
  rcases launchOf_cases (s := s) (decodeCommand_isOperation hdecode) with ⟨c, hl⟩ | ⟨v, hl⟩ | ⟨why, hl⟩ |
    ⟨_, _, _, _, _, _, -, -, -, hl, -⟩ | ⟨_, _, _, _, _, -, -, -, hl⟩ <;> simp only [hl] at hfirst ⊢
  case inl =>
    refine exists_bound_of_succ fun k => ?_
    rw [run_atTurn_succ h (hfirst k)]
    exact run_complete h c s.phase k
  case inr.inl =>
    refine exists_bound_of_succ fun k => ?_
    rw [run_atTurn_succ h (hfirst k)]
    exact run_complete (h.of_sameButBlock (s.setResult_sameButBlock v)) .ok s.phase k
  case inr.inr.inl =>
    refine exists_bound_of_succ fun k => ?_
    exact run_succ_refused (M := Sys2Proof.core) ((step_atTurn h _ k).trans (hfirst k)) k
  case inr.inr.inr.inl => exact run_enter_events h hfirst
  case inr.inr.inr.inr => exact run_enter_events h hfirst

end

/-- Settles O51: the first turn makes the checks, and each kind of launch takes its own number of turns. -/
theorem oneEventAtATimeEndsWhereExecuteEnds : Obligations.OneEventAtATimeEndsWhereExecuteEnds := by
  unfold Obligations.OneEventAtATimeEndsWhereExecuteEnds
  intro s i hwf hreq hphase hdecode
  exact run_turns (s := { s with inputs := [] }) ⟨hwf, hreq, rfl⟩ hphase hdecode

end Sys2Proof.Machine
end

section
/-! PROOFS. The canvas under the named assumption `ENV` (20_memory.md R81 to R88, log 19).

Every operation that draws is one window write: CASET, PASET and RAMWR program a window, and whole pixels are streamed
into it, in the payload of RAMWR and in raw writes after it. `Env.Filled` says what the canvas holds once more pixels have
been sent into the window; it composes over the raw writes, and over a whole window it gives the canvas at every pixel. -/

namespace Sys2Proof.Machine

/-! ## What an operation leaves in the trace -/

section
variable {s t : State} {new : List TraceEntry}

theorem State.finish_trace (s : State) (onOk : OnOk) (received : List Byte) :
    (s.finish onOk received).trace = s.trace := by
  unfold State.finish State.useReceived
  split <;> rfl

/-- An operation none of whose events failed performed all of them. -/
theorem exec_events_trace {i : Instr} {todo : List BusEvent} {onOk : OnOk} (hl : launchOf i s = .events todo onOk)
    (hx : exec i s = .next t) (htrace : t.trace = s.trace ++ new) (hok : ∀ entry ∈ new, entry.answer ≠ .fail) :
    ∃ answers : List Answer, answers.length = todo.length ∧ (∀ a ∈ answers, a ≠ .fail) ∧
      new = List.zipWith TraceEntry.mk todo answers := by
  rw [exec_eq_run, hl] at hx
  cases hx
  rcases State.runEvents_cases todo onOk [] s with
    ⟨s', bytes, answers, -, hlen, hans, htr, hrun⟩ | ⟨done, e, rest, s', answers, -, -, -, -, htr, hrun⟩
  · rw [hrun, State.finish_trace, htr] at htrace
    exact ⟨answers, hlen, hans, (List.append_cancel_left htrace).symm⟩
  · rw [hrun, State.complete_trace, htr, List.append_assoc] at htrace
    refine absurd rfl (hok { event := e, answer := .fail } ?_)
    rw [← List.append_cancel_left htrace]
    exact List.mem_append_right _ (List.mem_singleton.mpr rfl)

end

/-! ## Events that succeed -/

section
variable {cfg : Config} {e e' : Env cfg}

/-- `ENV` looks at the outcome of an event, not at the bytes it returned. -/
theorem Env.event_congr {ev : BusEvent} {a : Answer} (ha : a ≠ .fail) :
    Env.event { event := ev, answer := a } e e' ↔ Env.event { event := ev, answer := .ok [] } e e' := by
  cases a with
  | fail => exact absurd rfl ha
  | ok bytes => rcases ev with ⟨_ | _, _⟩ | ⟨_ | _, _⟩ | _ | _ <;> rfl

theorem Env.follows_zipWith (todo : List BusEvent) :
    ∀ {answers : List Answer} {e : Env cfg}, answers.length = todo.length → (∀ a ∈ answers, a ≠ .fail) →
      (Env.follows (List.zipWith TraceEntry.mk todo answers) e e' ↔ Env.follows (okEntries todo) e e') := by
  induction todo with
  | nil => intros; rfl
  | cons ev todo ih =>
    intro answers e hlen hok
    cases answers with
    | nil => simp at hlen
    | cons a answers =>
      obtain ⟨ha, hok⟩ := List.forall_mem_cons.mp hok
      have htail := fun m : Env cfg => ih (e := m) (Nat.succ.inj hlen) hok
      simp only [List.zipWith_cons_cons, okEntries, List.map_cons, Env.follows, Env.event_congr ha] at htail ⊢
      simp only [htail]

/-- What the controller goes through in an operation none of whose events failed. -/
theorem Env.follows_exec {s t : State} {i : Instr} {todo : List BusEvent} {onOk : OnOk} {new : List TraceEntry}
    (hl : launchOf i s = .events todo onOk) (hx : exec i s = .next t) (htrace : t.trace = s.trace ++ new)
    (hok : ∀ entry ∈ new, entry.answer ≠ .fail) {e e' : Env cfg} (h : Env.follows new e e') :
    Env.follows (okEntries todo) e e' := by
  obtain ⟨answers, hlen, hans, rfl⟩ := exec_events_trace hl hx htrace hok
  exact (Env.follows_zipWith todo hlen hans).mp h

theorem okEntries_append (es es' : List BusEvent) : okEntries (es ++ es') = okEntries es ++ okEntries es' :=
  List.map_append

theorem Env.follows_append (entries : List TraceEntry) :
    ∀ {rest : List TraceEntry} {e e' : Env cfg},
      Env.follows (entries ++ rest) e e' ↔ ∃ m, Env.follows entries e m ∧ Env.follows rest m e' := by
  induction entries with
  | nil => simp [Env.follows]
  | cons entry entries ih =>
    intro rest e e'
    simp only [List.cons_append, Env.follows, ih]
    constructor
    · rintro ⟨m, hm, m', hm', h⟩
      exact ⟨m', ⟨m, hm, hm'⟩, h⟩
    · rintro ⟨m', ⟨m, hm, hm'⟩, h⟩
      exact ⟨m, hm, m', hm', h⟩

end

/-! ## A window opened -/

section
variable {cfg : Config}

theorem Config.distinctWriteIds_cases (h : cfg.distinctWriteIds = true) :
    ∃ cs ps rw, cfg.writeIds cs ps rw ∧ cs ≠ ps ∧ cs ≠ rw ∧ ps ≠ rw := by
  unfold Config.distinctWriteIds at h
  split at h
  · rename_i cs ps rw hcs hps hrw
    exact ⟨cs, ps, rw, ⟨hcs, hps, hrw⟩, of_decide_eq_true h⟩
  · cases h

/-- The two bytes of a `u16` put together again. -/
theorem be16_append (v : U16) : v.extractLsb' 8 8 ++ v.extractLsb' 0 8 = v := by
  rw [BitVec.extractLsb'_append_extractLsb'_eq_extractLsb' (by rfl)]
  exact BitVec.extractLsb'_eq_self

/-- The controller once a window over `r` is programmed and RAMWR has come, before the data. -/
def Env.opened (e : Env cfg) (r : Rect) : Env cfg :=
  { e with
    cx0 := toU16 r.x0
    cx1 := toU16 r.x1
    py0 := toU16 r.y0
    py1 := toU16 r.y1
    mode := .write
    px := (toU16 r.x0).toNat
    py := (toU16 r.y0).toNat
    pending := none }

/-- CASET, PASET and RAMWR open the window and stream the payload into it (20_memory.md R83, R84, R85). -/
theorem Env.follows_writeWindow {cs ps rw : Byte} {r : Rect} {payload : List Byte} {e e' : Env cfg}
    (hids : cfg.writeIds cs ps rw) (hcp : cs ≠ ps) (hcr : cs ≠ rw) (hpr : ps ≠ rw)
    (h : Env.follows (okEntries (writeWindowEvents cs ps rw r payload)) e e') :
    Env.stream payload (e.opened r) e' := by
  obtain ⟨hcs, hps, hrw⟩ := hids
  obtain ⟨e1, hcaset, e2, hpaset, e3, hramwr, rfl⟩ := h
  simp only [Env.event, Env.command, hcs, hps, hrw, Option.some.injEq, hcp, hcr, hpr, hcp.symm, if_true, if_false,
    encodePosition, be16, List.cons_append, List.nil_append, be16_append] at hcaset hpaset hramwr
  subst hcaset hpaset
  exact hramwr

end

/-! ## Whole pixels streamed into the window -/

/-- The pixel that two bytes on the bus carry (20_memory.md R85). -/
def pixelOf (p : Byte × Byte) : U16 := p.1 ++ p.2

/-- The two bytes of a pixel, the more significant first (30_encoding.md R107). -/
def splitPixel (c : U16) : Byte × Byte := (c.extractLsb' 8 8, c.extractLsb' 0 8)

theorem pixelOf_splitPixel (c : U16) : pixelOf (splitPixel c) = c := be16_append c

theorem encodePixel_eq_pixelStream (c : U16) : encodePixel c = pixelStream [splitPixel c] := rfl

/-- Raw writes of whole pixels, one for each chunk that has any (20_memory.md R66). -/
def rawWrites (chunks : List (List (Byte × Byte))) : List BusEvent :=
  chunks.flatMap (fun ps => busWrite none (pixelStream ps))

section
variable {cfg : Config}

/-- `e'` is `e`, where `n` pixels had been sent, after the pixels `ps`: they are stored at their places, and but for the
places after them the canvas is as before. -/
structure Env.Filled (e e' : Env cfg) (n : Nat) (ps : List (Byte × Byte)) : Prop where
  window : e.sameWindow e'
  sent : e'.sent (n + ps.length)
  stored : ∀ (x : Fin cfg.width) (y : Fin cfg.height), e.inWindow x.val y.val → n ≤ e.index x.val y.val →
    e.index x.val y.val < n + ps.length → (ps[e.index x.val y.val - n]?).map pixelOf = some (e'.gram x y)
  kept : ∀ (x : Fin cfg.width) (y : Fin cfg.height), ¬(e.inWindow x.val y.val ∧ n ≤ e.index x.val y.val) →
    e'.gram x y = e.gram x y

theorem Env.filled_nil {e : Env cfg} {n : Nat} (h : e.sent n) : e.Filled e n [] where
  window := ⟨rfl, rfl, rfl, rfl, rfl⟩
  sent := h
  stored := fun _ _ _ hge hlt => absurd hlt (Nat.not_lt.mpr hge)
  kept := fun _ _ _ => rfl

theorem Env.filled_append {e m e' : Env cfg} {n : Nat} {ps ps' : List (Byte × Byte)} (h : e.Filled m n ps)
    (h' : m.Filled e' (n + ps.length) ps') : e.Filled e' n (ps ++ ps') := by
  have hstored := h'.stored
  have hkept := h'.kept
  simp only [Env.sameWindow_inWindow h.window, Env.sameWindow_index h.window] at hstored hkept
  refine ⟨Env.sameWindow_trans h.window h'.window, ?_, fun x y hin hge hlt => ?_, fun x y hout => ?_⟩
  · rw [List.length_append, ← Nat.add_assoc]
    exact h'.sent
  · rw [List.length_append, ← Nat.add_assoc] at hlt
    by_cases hfirst : e.index x.val y.val < n + ps.length
    · rw [List.getElem?_append_left (by omega), h.stored x y hin hge hfirst, hkept x y fun hlater => by omega]
    · rw [List.getElem?_append_right (by omega), ← hstored x y hin (by omega) hlt, Nat.sub_sub]
  · rw [hkept x y fun hlater => hout ⟨hlater.1, by omega⟩, h.kept x y hout]

/-- One event's data, as far as it is whole pixels. -/
theorem Env.filled_of_stream {e e' : Env cfg} {n : Nat} {ps : List (Byte × Byte)} (h : e.sent n)
    (hroom : n + ps.length ≤ e.columns * e.rows) (hstream : Env.stream (pixelStream ps) e e') : e.Filled e' n ps := by
  obtain ⟨hwindow, hsent, hgram⟩ := Env.stream_sent h hroom hstream
  refine ⟨hwindow, hsent, fun x y hin hge hlt => ?_, fun x y hout => ?_⟩
  · have hbound : e.index x.val y.val - n < ps.length := by omega
    rw [hgram x y fun hlater => by omega, if_pos ⟨hin, hge⟩, List.getElem?_eq_getElem hbound]
    rfl
  · rw [hgram x y fun hlater => hout ⟨hlater.1, by omega⟩, if_neg hout]

/-- A raw write that succeeds in write mode (20_memory.md R85). -/
theorem Env.event_rawWrite {e e' : Env cfg} {data : List Byte} (hmode : e.mode = .write) :
    Env.event { event := .write none data, answer := .ok [] } e e' ↔ Env.stream data e e' := by
  simp only [Env.event, hmode, if_true]

/-- The raw writes of an operation, by induction on the chunks. -/
theorem Env.filled_of_rawWrites (chunks : List (List (Byte × Byte))) :
    ∀ {e e' : Env cfg} {n : Nat}, e.sent n → e.mode = .write → n + chunks.flatten.length ≤ e.columns * e.rows →
      Env.follows (okEntries (rawWrites chunks)) e e' → e.Filled e' n chunks.flatten := by
  induction chunks with
  | nil =>
    rintro e e' n h - - rfl
    exact Env.filled_nil h
  | cons ps chunks ih =>
    intro e e' n h hmode hroom hfollows
    rw [List.flatten_cons, List.length_append, ← Nat.add_assoc] at hroom
    rw [rawWrites, List.flatMap_cons, ← rawWrites, okEntries_append, Env.follows_append] at hfollows
    obtain ⟨m, hchunk, hrest⟩ := hfollows
    have hfilled : e.Filled m n ps := by
      cases ps with
      | nil =>
        obtain rfl : m = e := hchunk
        exact Env.filled_nil h
      | cons p ps =>
        obtain ⟨m', hevent, rfl⟩ := hchunk
        exact Env.filled_of_stream h (by omega) ((Env.event_rawWrite hmode).mp hevent)
    refine Env.filled_append hfilled (ih hfilled.sent (hfilled.window.mode.trans hmode) ?_ hrest)
    rwa [Env.sameWindow_columns hfilled.window, Env.sameWindow_rows hfilled.window]

/-- A place of the window is one of its pixels. -/
theorem Env.index_lt {e : Env cfg} {x y : Nat} (hin : e.inWindow x y) : e.index x y < e.columns * e.rows := by
  obtain ⟨hx0, hx1, hy0, hy1⟩ := hin
  have hcol : x - e.cx0.toNat < e.columns := by rw [Env.columns]; omega
  have hrow : y - e.py0.toNat + 1 ≤ e.rows := by rw [Env.rows]; omega
  calc e.index x y = e.columns * (y - e.py0.toNat) + (x - e.cx0.toNat) := by rw [Env.index, Nat.mul_comm]
    _ < e.columns * (y - e.py0.toNat + 1) := by rw [Nat.mul_succ]; omega
    _ ≤ e.columns * e.rows := Nat.mul_le_mul_left _ hrow

end

/-! ## The window over a rectangle of the canvas -/

/-- The pixel is one of the rectangle (00_scope.md R18). -/
abbrev Rect.covers (r : Rect) (x y : Int) : Prop := r.x0 ≤ x ∧ x ≤ r.x1 ∧ r.y0 ≤ y ∧ y ≤ r.y1

/-- The place of a pixel of the rectangle, row by row. -/
def Rect.place (r : Rect) (x y : Int) : Nat := ((y - r.y0) * (r.x1 - r.x0 + 1) + (x - r.x0)).toNat

theorem toNat_toU16 {v : Int} (h : FitsU16 v) : ((toU16 v).toNat : Int) = v := by
  obtain ⟨hlow, hhigh⟩ := h
  rw [toU16, BitVec.toNat_ofInt]
  omega

section
variable {cfg : Config} {r : Rect} {e : Env cfg}

/-- The four bounds of a rectangle of the canvas fit their window registers. -/
theorem Rect.fitsU16_of_inside (hwf : cfg.wf = true) (hr : r.inside cfg) :
    FitsU16 r.x0 ∧ FitsU16 r.x1 ∧ FitsU16 r.y0 ∧ FitsU16 r.y1 := by
  obtain ⟨⟨-, hwidth⟩, ⟨-, hheight⟩, -⟩ := (onlyWellFormedConfigurationsRun.1 cfg).mp hwf
  obtain ⟨hx0, hx, hx1, hy0, hy, hy1⟩ := hr
  simp only [FitsU16]
  omega

/-- The window registers hold the rectangle. -/
theorem Env.opened_bounds (hwf : cfg.wf = true) (hr : r.inside cfg) :
    ((e.opened r).cx0.toNat : Int) = r.x0 ∧ ((e.opened r).cx1.toNat : Int) = r.x1 ∧
    ((e.opened r).py0.toNat : Int) = r.y0 ∧ ((e.opened r).py1.toNat : Int) = r.y1 := by
  obtain ⟨hx0, hx1, hy0, hy1⟩ := Rect.fitsU16_of_inside hwf hr
  exact ⟨toNat_toU16 hx0, toNat_toU16 hx1, toNat_toU16 hy0, toNat_toU16 hy1⟩

theorem Env.opened_sent (hwf : cfg.wf = true) (hr : r.inside cfg) : (e.opened r).sent 0 := by
  obtain ⟨hx0, hx1, hy0, hy1⟩ := Env.opened_bounds (e := e) hwf hr
  obtain ⟨-, hx, -, -, hy, -⟩ := hr
  exact ⟨by omega, by omega, by rw [Nat.zero_mod]; rfl, by rw [Nat.zero_div]; rfl, rfl⟩

theorem Env.opened_inWindow (hwf : cfg.wf = true) (hr : r.inside cfg) (x y : Nat) :
    (e.opened r).inWindow x y ↔ r.covers x y := by
  obtain ⟨hx0, hx1, hy0, hy1⟩ := Env.opened_bounds (e := e) hwf hr
  simp only [Env.inWindow, Rect.covers, ← hx0, ← hx1, ← hy0, ← hy1, Nat.cast_le]

theorem Env.opened_columns (hwf : cfg.wf = true) (hr : r.inside cfg) :
    ((e.opened r).columns : Int) = r.x1 - r.x0 + 1 := by
  obtain ⟨hx0, hx1, -, -⟩ := Env.opened_bounds (e := e) hwf hr
  obtain ⟨-, hx, -⟩ := hr
  rw [Env.columns]
  omega

theorem Env.opened_rows (hwf : cfg.wf = true) (hr : r.inside cfg) : ((e.opened r).rows : Int) = r.y1 - r.y0 + 1 := by
  obtain ⟨-, -, hy0, hy1⟩ := Env.opened_bounds (e := e) hwf hr
  obtain ⟨-, -, -, -, hy, -⟩ := hr
  rw [Env.rows]
  omega

theorem Env.opened_pixels (hwf : cfg.wf = true) (hr : r.inside cfg) :
    (((e.opened r).columns * (e.opened r).rows : Nat) : Int) = r.pixels := by
  rw [Nat.cast_mul, Env.opened_columns hwf hr, Env.opened_rows hwf hr, Rect.pixels]

theorem Env.opened_index (hwf : cfg.wf = true) (hr : r.inside cfg) {x y : Nat} (hin : r.covers x y) :
    (e.opened r).index x y = r.place x y := by
  have hcols := Env.opened_columns (e := e) hwf hr
  obtain ⟨hx0, -, hy0, -⟩ := Env.opened_bounds (e := e) hwf hr
  obtain ⟨hleft, -, htop, -⟩ := hin
  rw [Rect.place, ← hcols, ← hx0, ← hy0, Env.index]
  rw [← hx0, Nat.cast_le] at hleft
  rw [← hy0, Nat.cast_le] at htop
  rw [← Nat.cast_sub hleft, ← Nat.cast_sub htop, ← Nat.cast_mul, ← Nat.cast_add, Int.toNat_natCast]

end

/-! ## The canvas after a window write -/

section
variable {cfg : Config} {r : Rect} {e e' : Env cfg}

/-- A window write of as many pixels as the rectangle has: they stand in the rectangle row by row, and the rest of the
canvas is as before. -/
theorem Env.gram_writeWindow {cs ps rw : Byte} {first : List (Byte × Byte)} {chunks : List (List (Byte × Byte))}
    (hwf : cfg.wf = true) (hids : cfg.writeIds cs ps rw) (hcp : cs ≠ ps) (hcr : cs ≠ rw) (hpr : ps ≠ rw)
    (hr : r.inside cfg) (hlen : ((first ++ chunks.flatten).length : Int) = r.pixels)
    (h : Env.follows (okEntries (writeWindowEvents cs ps rw r (pixelStream first) ++ rawWrites chunks)) e e')
    (x : Fin cfg.width) (y : Fin cfg.height) :
    (r.covers x.val y.val → ((first ++ chunks.flatten)[r.place x.val y.val]?).map pixelOf = some (e'.gram x y)) ∧
    (¬ r.covers x.val y.val → e'.gram x y = e.gram x y) := by
  rw [okEntries_append, Env.follows_append] at h
  obtain ⟨m, hwindow, hraw⟩ := h
  have hstream := Env.follows_writeWindow hids hcp hcr hpr hwindow
  have hroom : (first ++ chunks.flatten).length = (e.opened r).columns * (e.opened r).rows := by
    rw [← Nat.cast_inj (R := Int), Env.opened_pixels hwf hr, hlen]
  have hfirst : (e.opened r).Filled m 0 first :=
    Env.filled_of_stream (Env.opened_sent hwf hr) (by rw [← hroom, List.length_append]; omega) hstream
  have hchunks : m.Filled e' (0 + first.length) chunks.flatten := by
    refine Env.filled_of_rawWrites chunks hfirst.sent hfirst.window.mode ?_ hraw
    rw [Env.sameWindow_columns hfirst.window, Env.sameWindow_rows hfirst.window, ← hroom, List.length_append]
    omega
  have hall := Env.filled_append hfirst hchunks
  refine ⟨fun hin => ?_, fun hout => hall.kept x y fun hin => hout ((Env.opened_inWindow hwf hr _ _).mp hin.1)⟩
  have hinw := (Env.opened_inWindow (e := e) hwf hr x.val y.val).mpr hin
  have hstored := hall.stored x y hinw (Nat.zero_le _) (by rw [hroom, Nat.zero_add]; exact Env.index_lt hinw)
  rwa [Nat.sub_zero, Env.opened_index hwf hr hin] at hstored

theorem windowWrite_of_writeIds {cs ps rw : Byte} (hids : cfg.writeIds cs ps rw) (r : Rect) (payload : List Byte)
    (raw : List BusEvent) :
    windowWrite cfg r payload raw = .events (writeWindowEvents cs ps rw r payload ++ raw) .nothing := by
  obtain ⟨hcs, hps, hrw⟩ := hids
  simp only [windowWrite, hcs, hps, hrw]

end

/-- The canvas after an operation that is one window write, none of whose events failed. -/
theorem Env.gram_exec {s t : State} {i : Instr} {r : Rect} {first : List (Byte × Byte)}
    {chunks : List (List (Byte × Byte))} {new : List TraceEntry} {e e' : Env s.cfg}
    (hwf : s.cfg.wf = true) (hids : s.cfg.distinctWriteIds = true) (hr : r.inside s.cfg)
    (hlen : ((first ++ chunks.flatten).length : Int) = r.pixels)
    (hl : launchOf i s = windowWrite s.cfg r (pixelStream first) (rawWrites chunks))
    (hx : exec i s = .next t) (htrace : t.trace = s.trace ++ new) (hok : ∀ entry ∈ new, entry.answer ≠ .fail)
    (h : Env.follows new e e') (x : Fin s.cfg.width) (y : Fin s.cfg.height) :
    (r.covers x.val y.val → ((first ++ chunks.flatten)[r.place x.val y.val]?).map pixelOf = some (e'.gram x y)) ∧
    (¬ r.covers x.val y.val → e'.gram x y = e.gram x y) := by
  obtain ⟨cs, ps, rw, hset, hcp, hcr, hpr⟩ := Config.distinctWriteIds_cases hids
  rw [windowWrite_of_writeIds hset] at hl
  exact Env.gram_writeWindow hwf hset hcp hcr hpr hr hlen (Env.follows_exec hl hx htrace hok h) x y

/-! ## `PIXEL_SET` -/

theorem pixelRect_inside {cfg : Config} {x y : Int} (h : onCanvas cfg x y) : (pixelRect x y).inside cfg := by
  obtain ⟨hx0, hx1, hy0, hy1⟩ := h
  exact ⟨hx0, le_rfl, hx1, hy0, le_rfl, hy1⟩

theorem pixelRect_pixels (x y : Int) : (pixelRect x y).pixels = 1 := by
  simp only [Rect.pixels, pixelRect, sub_self]
  rfl

theorem pixelRect_covers_iff (x y i j : Int) : (pixelRect x y).covers i j ↔ i = x ∧ j = y := by
  simp only [Rect.covers, pixelRect]
  omega

theorem pixelRect_place (x y : Int) : (pixelRect x y).place x y = 0 := by
  simp only [Rect.place, pixelRect, sub_self]
  rfl

/-- Settles O58: on the canvas a window write of one pixel, off it no event at all. -/
theorem envPixelSetSetsOnePixel : Obligations.EnvPixelSetSetsOnePixel := by
  unfold Obligations.EnvPixelSetSetsOnePixel
  intro s t x y color new e e' hwf hids hdead hx htrace hok hfollows
  refine ⟨fun hon i j => ?_, fun hoff => ?_⟩
  · have hl : launchOf (.pixelSet x y color) s =
        windowWrite s.cfg (pixelRect x y) (pixelStream [splitPixel color]) (rawWrites []) := by
      rw [launchOf, launchPixelSet, unlessDead, if_neg (by simp [hdead]), if_pos hon]
      rfl
    obtain ⟨hin, hout⟩ := Env.gram_exec (first := [splitPixel color]) (chunks := []) hwf hids (pixelRect_inside hon)
      (pixelRect_pixels x y).symm hl hx htrace hok hfollows i j
    rw [pixelRect_covers_iff] at hin hout
    split
    · rename_i hpixel
      have hstored := hin hpixel
      rw [hpixel.1, hpixel.2, pixelRect_place] at hstored
      exact (Option.some.inj hstored).symm.trans (pixelOf_splitPixel color)
    · rename_i hother
      exact hout hother
  · have hl : launchOf (.pixelSet x y color) s = .stop .ok := by
      rw [launchOf, launchPixelSet, unlessDead, if_neg (by simp [hdead]), if_neg hoff]
    rw [exec_eq_run, hl] at hx
    cases hx
    obtain rfl : new = [] := List.self_eq_append_right.mp htrace
    obtain rfl : e' = e := hfollows
    rfl

/-! ## `FILL_RECT` -/

/-- The pixels of a fill, in the chunks in which they are sent (42_display_ops.md R175). -/
def fillChunks (cfg : Config) (total : Nat) (color : U16) : List (List (Byte × Byte)) :=
  List.replicate (fullChunks cfg total) (List.replicate cfg.chunkPixels (splitPixel color)) ++
    [List.replicate (restPixels cfg total) (splitPixel color)]

theorem rep_encodePixel (color : U16) (k : Nat) :
    rep (encodePixel color) k = pixelStream (List.replicate k (splitPixel color)) := by
  rw [rep, pixelStream, List.flatMap_replicate]
  rfl

theorem chunkEvents_eq_rawWrites (cfg : Config) (total : Nat) (color : U16) :
    chunkEvents cfg total color = rawWrites (fillChunks cfg total color) := by
  rw [chunkEvents, rawWrites, fillChunks, List.flatMap_append, List.flatMap_replicate, List.flatMap_singleton,
    rep_encodePixel, rep_encodePixel]

/-- Full chunks and rest together are every pixel once. -/
theorem fillChunks_flatten (cfg : Config) (total : Nat) (color : U16) :
    (fillChunks cfg total color).flatten = List.replicate total (splitPixel color) := by
  rw [fillChunks, List.flatten_append, List.flatten_replicate_replicate, List.flatten_singleton,
    List.replicate_append_replicate, fullChunks, restPixels, Nat.div_add_mod']

theorem sizedRect_pixels (x y w h : Int) : (sizedRect x y w h).pixels = w * h := by
  simp only [Rect.pixels, sizedRect]
  rw [show x + w - 1 - x + 1 = w by omega, show y + h - 1 - y + 1 = h by omega]

/-- The clamped sizes are at least 1, and with the clamped origin they stay on the canvas (42_display_ops.md R174). -/
theorem clampedRect_inside {cfg : Config} (hwf : cfg.wf = true) (x y w h : Int) :
    (clampedRect cfg x y w h).inside cfg := by
  obtain ⟨⟨hwidth, -⟩, ⟨hheight, -⟩, -⟩ := (onlyWellFormedConfigurationsRun.1 cfg).mp hwf
  simp only [Rect.inside, clampedRect, sizedRect, clampW, clampH, clampX, clampY, clamp]
  omega

theorem fillTotal_eq_pixels {cfg : Config} (hwf : cfg.wf = true) (x y w h : Int) :
    (fillTotal cfg x y w h : Int) = (clampedRect cfg x y w h).pixels := by
  have hpos : 0 ≤ clampW cfg x w * clampH cfg y h := by
    obtain ⟨-, hw, -, -, hh, -⟩ := clampedRect_inside hwf x y w h
    simp only [clampedRect, sizedRect] at hw hh
    exact mul_nonneg (by omega) (by omega)
  rw [clampedRect, sizedRect_pixels, fillTotal, Int.toNat_of_nonneg hpos]

theorem launchOf_fillRect {s : State} (hdead : s.status.dead = false) (x y w h : Int) (color : U16) :
    launchOf (.fillRect x y w h color) s = windowWrite s.cfg (clampedRect s.cfg x y w h) (pixelStream [])
      (rawWrites (fillChunks s.cfg (fillTotal s.cfg x y w h) color)) := by
  rw [launchOf, launchFillRect, unlessDead, if_neg (by simp [hdead]), chunkEvents_eq_rawWrites]
  rfl

/-- The canvas after the events of a `FILL_RECT`, from any controller. -/
theorem Env.gram_exec_fillRect {s t : State} {x y w h : Int} {color : U16} {new : List TraceEntry} {e e' : Env s.cfg}
    (hwf : s.cfg.wf = true) (hids : s.cfg.distinctWriteIds = true) (hdead : s.status.dead = false)
    (hx : exec (.fillRect x y w h color) s = .next t) (htrace : t.trace = s.trace ++ new)
    (hok : ∀ entry ∈ new, entry.answer ≠ .fail) (hfollows : Env.follows new e e') (i : Fin s.cfg.width)
    (j : Fin s.cfg.height) :
    e'.gram i j = if (clampedRect s.cfg x y w h).covers i.val j.val then color else e.gram i j := by
  have hlen : (([] ++ (fillChunks s.cfg (fillTotal s.cfg x y w h) color).flatten).length : Int) =
      (clampedRect s.cfg x y w h).pixels := by
    rw [List.nil_append, fillChunks_flatten, List.length_replicate, fillTotal_eq_pixels hwf]
  obtain ⟨hin, hout⟩ := Env.gram_exec hwf hids (clampedRect_inside hwf x y w h) hlen
    (launchOf_fillRect hdead x y w h color) hx htrace hok hfollows i j
  split
  · rename_i hcov
    have hstored := hin hcov
    rw [List.nil_append, fillChunks_flatten, List.getElem?_replicate] at hstored
    split at hstored
    · exact (Option.some.inj hstored).symm.trans (pixelOf_splitPixel color)
    · cases hstored
  · rename_i hcov
    exact hout hcov

/-- Settles O59: what the events paint does not depend on what the canvas was. -/
theorem envFillRectPaintsTheClampedRectangle : Obligations.EnvFillRectPaintsTheClampedRectangle := by
  unfold Obligations.EnvFillRectPaintsTheClampedRectangle
  intro s t x y w h color new e e' hwf hids hdead hx htrace hok hfollows
  refine ⟨Env.gram_exec_fillRect hwf hids hdead hx htrace hok hfollows, fun e'' hagain => ?_⟩
  funext i j
  rw [Env.gram_exec_fillRect hwf hids hdead hx htrace hok hagain,
    Env.gram_exec_fillRect hwf hids hdead hx htrace hok hfollows]
  split <;> rfl

/-! ## `BLIT` -/

/-- The pixels of a buffer: two bytes each, as they lie in memory (20_memory.md R71). -/
def bufferPixels (m : Memory) (addr n : Nat) : List (Byte × Byte) :=
  (List.range n).map (fun k => (m.read (addr + 2 * k), m.read (addr + 2 * k + 1)))

theorem readBytes_two_mul (m : Memory) (addr n : Nat) :
    m.readBytes addr (2 * n) = pixelStream (bufferPixels m addr n) := by
  induction n generalizing addr with
  | zero => rfl
  | succ n ih =>
    have htail : bufferPixels m addr (n + 1) = (m.read addr, m.read (addr + 1)) :: bufferPixels m (addr + 2) n := by
      rw [bufferPixels, List.range_succ_eq_map, List.map_cons, List.map_map]
      refine congrArg ((m.read addr, m.read (addr + 1)) :: ·) (List.map_congr_left fun k _ => ?_)
      simp only [Function.comp_apply, Nat.succ_eq_add_one]
      rw [show addr + 2 * (k + 1) = addr + 2 + 2 * k by omega]
    rw [htail, Nat.mul_succ, Memory.readBytes, Memory.readBytes, ih]
    rfl

theorem sizedRect_inside {cfg : Config} {x y w h : Int} (hfits : blitFits cfg x y w h) :
    (sizedRect x y w h).inside cfg := by
  simp only [blitFits] at hfits
  simp only [Rect.inside, sizedRect]
  omega

/-- Pixel `k` of a rectangle stands in column `k mod w` and row `k div w` of it. -/
theorem sizedRect_place (x y h : Int) (w k : Nat) :
    (sizedRect x y w h).place (x + (k % w : Nat)) (y + (k / w : Nat)) = k := by
  have hwidth : x + (w : Int) - 1 - x + 1 = w := by omega
  simp only [Rect.place, sizedRect, add_sub_cancel_left, hwidth]
  rw [← Nat.cast_mul, ← Nat.cast_add, Int.toNat_natCast, Nat.div_add_mod']

theorem sizedRect_covers_iff (x y w h i j : Int) :
    (sizedRect x y w h).covers i j ↔ x ≤ i ∧ i < x + w ∧ y ≤ j ∧ j < y + h := by
  simp only [Rect.covers, sizedRect]
  omega

theorem bufferPixels_length (m : Memory) (addr n : Nat) : (bufferPixels m addr n).length = n := by
  rw [bufferPixels, List.length_map, List.length_range]

theorem bufferPixels_getElem? (m : Memory) (addr : Nat) {n k : Nat} (hk : k < n) :
    (bufferPixels m addr n)[k]? = some (m.read (addr + 2 * k), m.read (addr + 2 * k + 1)) := by
  rw [bufferPixels, List.getElem?_map, List.getElem?_range hk]
  rfl

/-- A `BLIT` that is carried out does not touch the register space (20_memory.md R75). -/
theorem overlapsRegisters_of_exec_blit {s t : State} {addr len : Nat} {x y w h : Int}
    (hx : exec (.blit addr len x y w h) s = .next t) : overlapsRegisters s.cfg addr len = false := by
  rw [exec_eq_run, launchOf, launchBlit, refuseOverlap] at hx
  split at hx
  · cases hx
  · rename_i hclear
    exact Bool.eq_false_iff.mpr hclear

/-- What `BLIT` performs where none of its checks stops it (42_display_ops.md R179). -/
theorem launchOf_blit {s : State} {addr len : Nat} {x y w h : Int} (hclear : overlapsRegisters s.cfg addr len = false)
    (hdead : s.status.dead = false) (hspace : bufferInSpace addr len) (hfits : blitFits s.cfg x y w h) :
    launchOf (.blit addr len x y w h) s = windowWrite s.cfg (sizedRect x y w h) (s.mem.readBytes addr len) [] := by
  rw [launchOf, launchBlit, refuseOverlap, if_neg (by simp [hclear]), unlessDead, if_neg (by simp [hdead]),
    if_pos hspace, if_pos hfits]

/-- The column and the row of pixel `k` of a rectangle of the canvas, as a column and a row of the canvas. -/
theorem exists_canvas_pixel {cfg : Config} {x y : Int} {w h k : Nat} (hfits : blitFits cfg x y w h) (hk : k < w * h) :
    ∃ (i : Fin cfg.width) (j : Fin cfg.height),
      (i.val : Int) = x + (k % w : Nat) ∧ (j.val : Int) = y + (k / w : Nat) ∧
      (sizedRect x y w h).covers i.val j.val := by
  obtain ⟨hx, -, hy, -, hw, -, hright, hbottom⟩ := hfits
  have hcol : k % w < w := Nat.mod_lt k (by omega)
  have hrow : k / w < h := Nat.div_lt_of_lt_mul hk
  generalize k % w = col at hcol ⊢
  generalize k / w = row at hrow ⊢
  refine ⟨⟨(x + col).toNat, by omega⟩, ⟨(y + row).toNat, by omega⟩, Int.toNat_of_nonneg (by omega),
    Int.toNat_of_nonneg (by omega), ?_⟩
  rw [sizedRect_covers_iff]
  simp only
  omega

/-- Settles O60: a window write whose payload is the buffer, pixel by pixel. -/
theorem envBlitCopiesTheBuffer : Obligations.EnvBlitCopiesTheBuffer := by
  unfold Obligations.EnvBlitCopiesTheBuffer
  intro s t addr x y w h new e e' hwf hids hdead hspace hfits hx htrace hok hfollows
  have hl : launchOf (.blit addr (2 * w * h) x y w h) s = windowWrite s.cfg (sizedRect x y w h)
      (pixelStream (bufferPixels s.mem addr (w * h))) (rawWrites []) := by
    rw [launchOf_blit (overlapsRegisters_of_exec_blit hx) hdead hspace hfits, Nat.mul_assoc, readBytes_two_mul]
    rfl
  have hlen : ((bufferPixels s.mem addr (w * h) ++ List.flatten []).length : Int) = (sizedRect x y w h).pixels := by
    rw [List.flatten_nil, List.append_nil, bufferPixels_length, sizedRect_pixels, Nat.cast_mul]
  have hgram := Env.gram_exec hwf hids (sizedRect_inside hfits) hlen hl hx htrace hok hfollows
  refine ⟨fun k hk => ?_, fun i j hout => (hgram i j).2 (mt (sizedRect_covers_iff x y w h i j).mp hout)⟩
  obtain ⟨i, j, hi, hj, hin⟩ := exists_canvas_pixel hfits hk
  have hstored := (hgram i j).1 hin
  rw [hi, hj, sizedRect_place, List.flatten_nil, List.append_nil, bufferPixels_getElem? s.mem addr hk] at hstored
  exact ⟨i, j, hi, hj, (Option.some.inj hstored).symm⟩

end Sys2Proof.Machine
end

section
/-! PROOFS. Encoding (30_encoding.md): the command words and the wire formats, and what the decoder answers to each.

What the decoder reads of a command is one relation, `CommandWords.Holds`: the operation code and the operand words that
R103's table lists for the operation, and no other. The encoder's frames hold their instruction, and so does the latch that
an assembler line leaves. -/

namespace Sys2Proof

/-! ## Operand patterns (30_encoding.md R104) -/

/-- A geometry operand is read back from its two's complement pattern. -/
theorem toInt_geometryWord {v : Int} (h : InS32 v) : (geometryWord v).toInt = v :=
  BitVec.toInt_ofInt_eq_self (by decide) h.1 (Int.lt_add_one_of_le h.2)

theorem toNat_unsignedWord {n : Nat} (h : InU32 n) : (unsignedWord n).toNat = n :=
  (BitVec.toNat_ofNat n 32).trans (Nat.mod_eq_of_lt h)

section
variable {c : CommandWords} {r g b : Byte}

theorem CommandWords.red_of_rgb (h : c.rgb = r ++ g ++ b) : c.red = r := by
  rw [CommandWords.red, h, BitVec.extractLsb'_append_eq_of_le (by decide)]
  exact BitVec.extractLsb'_append_eq_left

theorem CommandWords.green_of_rgb (h : c.rgb = r ++ g ++ b) : c.green = g := by
  rw [CommandWords.green, h, BitVec.extractLsb'_append_eq_of_le (by decide)]
  exact BitVec.extractLsb'_append_eq_right

theorem CommandWords.blue_of_rgb (h : c.rgb = r ++ g ++ b) : c.blue = b := by
  rw [CommandWords.blue, h]
  exact BitVec.extractLsb'_append_eq_right

end

/-! ## The command word (30_encoding.md R101, R102, R105) -/

section
variable {c : CommandWords}

theorem decodeCommand_pixelGet (h : c.cmd = 1#32) :
    decodeCommand c = .instr (.pixelGet c.x.toInt c.y.toInt) := by
  simp [decodeCommand, CommandWords.reserved, CommandWords.opcode, h]

theorem decodeCommand_pixelSet (h : c.cmd = 2#32) :
    decodeCommand c = .instr (.pixelSet c.x.toInt c.y.toInt c.color) := by
  simp [decodeCommand, CommandWords.reserved, CommandWords.opcode, h]

theorem decodeCommand_fillRect (h : c.cmd = 3#32) :
    decodeCommand c = .instr (.fillRect c.x.toInt c.y.toInt c.w.toInt c.h.toInt c.color) := by
  simp [decodeCommand, CommandWords.reserved, CommandWords.opcode, h]

theorem decodeCommand_fill (h : c.cmd = 4#32) : decodeCommand c = .instr (.fill c.color) := by
  simp [decodeCommand, CommandWords.reserved, CommandWords.opcode, h]

theorem decodeCommand_hline (h : c.cmd = 5#32) :
    decodeCommand c = .instr (.hline c.x.toInt c.y.toInt c.w.toInt c.color) := by
  simp [decodeCommand, CommandWords.reserved, CommandWords.opcode, h]

theorem decodeCommand_vline (h : c.cmd = 6#32) :
    decodeCommand c = .instr (.vline c.x.toInt c.y.toInt c.h.toInt c.color) := by
  simp [decodeCommand, CommandWords.reserved, CommandWords.opcode, h]

theorem decodeCommand_blit (h : c.cmd = 7#32) :
    decodeCommand c = .instr (.blit c.addr.toNat c.len.toNat c.x.toInt c.y.toInt c.w.toInt c.h.toInt) := by
  simp [decodeCommand, CommandWords.reserved, CommandWords.opcode, h]

theorem decodeCommand_color565 (h : c.cmd = 8#32) :
    decodeCommand c = .instr (.color565 c.red c.green c.blue) := by
  simp [decodeCommand, CommandWords.reserved, CommandWords.opcode, h]

/-- `ZERO` is zero and the code is one of the eight of R102. -/
def CommandWords.Legal (c : CommandWords) : Prop :=
  c.reserved = 0#24 ∧ 1 ≤ c.opcode.toNat ∧ c.opcode.toNat ≤ 8

/-- An illegal command word is rejected by name (30_encoding.md R105). -/
theorem decodeCommand_reject (h : ¬ c.Legal) : ∃ why, decodeCommand c = .reject why := by
  unfold decodeCommand
  split
  · exact ⟨_, rfl⟩
  · rename_i hreserved
    split
    case h_9 => exact ⟨_, rfl⟩
    all_goals exact absurd ⟨not_not.mp hreserved, by omega, by omega⟩ h

/-- With `ZERO` zero the command word is its operation code. -/
theorem CommandWords.cmd_of_reserved (h : c.reserved = 0#24) : c.cmd = BitVec.ofNat 32 c.opcode.toNat := by
  have hzero := congrArg BitVec.toNat h
  apply BitVec.eq_of_toNat_eq
  simp only [CommandWords.reserved, CommandWords.opcode, BitVec.extractLsb'_toNat, BitVec.toNat_ofNat,
    Nat.shiftRight_eq_div_pow] at hzero ⊢
  omega

/-- The legal command words are the eight operation codes, written as words. -/
theorem CommandWords.Legal.cmd_cases (h : c.Legal) :
    c.cmd = 1#32 ∨ c.cmd = 2#32 ∨ c.cmd = 3#32 ∨ c.cmd = 4#32 ∨ c.cmd = 5#32 ∨ c.cmd = 6#32 ∨ c.cmd = 7#32 ∨
      c.cmd = 8#32 := by
  obtain ⟨hreserved, hlow, hhigh⟩ := h
  rw [CommandWords.cmd_of_reserved hreserved]
  generalize c.opcode.toNat = code at hlow hhigh
  interval_cases code <;> decide

/-- A legal command word is the operation of its code (30_encoding.md R102). -/
theorem CommandWords.Legal.decode (h : c.Legal) :
    ∃ i, decodeCommand c = .instr i ∧ Machine.opcodeOf i = some c.cmd := by
  rcases h.cmd_cases with h | h | h | h | h | h | h | h
  · exact ⟨_, decodeCommand_pixelGet h, congrArg some h.symm⟩
  · exact ⟨_, decodeCommand_pixelSet h, congrArg some h.symm⟩
  · exact ⟨_, decodeCommand_fillRect h, congrArg some h.symm⟩
  · exact ⟨_, decodeCommand_fill h, congrArg some h.symm⟩
  · exact ⟨_, decodeCommand_hline h, congrArg some h.symm⟩
  · exact ⟨_, decodeCommand_vline h, congrArg some h.symm⟩
  · exact ⟨_, decodeCommand_blit h, congrArg some h.symm⟩
  · exact ⟨_, decodeCommand_color565 h, congrArg some h.symm⟩

theorem CommandWords.legal_of_decode {i : Instr} (h : decodeCommand c = .instr i) : c.Legal := by
  by_contra hillegal
  obtain ⟨why, hreject⟩ := decodeCommand_reject hillegal
  cases h.symm.trans hreject

end

/-! ## The words of an instruction (30_encoding.md R103, R104) -/

/-- The nine words hold the operation code of an instruction and the patterns of its operands in the words its operation
reads; the other words hold anything. A wire function is held by no command. -/
def CommandWords.Holds (c : CommandWords) : Instr → Prop
  | .pixelGet x y => c.cmd = 1#32 ∧ c.x = geometryWord x ∧ c.y = geometryWord y
  | .pixelSet x y color => c.cmd = 2#32 ∧ c.x = geometryWord x ∧ c.y = geometryWord y ∧ c.color = color
  | .fillRect x y w h color =>
    c.cmd = 3#32 ∧ c.x = geometryWord x ∧ c.y = geometryWord y ∧ c.w = geometryWord w ∧ c.h = geometryWord h ∧
      c.color = color
  | .fill color => c.cmd = 4#32 ∧ c.color = color
  | .hline x y w color =>
    c.cmd = 5#32 ∧ c.x = geometryWord x ∧ c.y = geometryWord y ∧ c.w = geometryWord w ∧ c.color = color
  | .vline x y h color =>
    c.cmd = 6#32 ∧ c.x = geometryWord x ∧ c.y = geometryWord y ∧ c.h = geometryWord h ∧ c.color = color
  | .blit addr len x y w h =>
    c.cmd = 7#32 ∧ c.addr = unsignedWord addr ∧ c.len = unsignedWord len ∧ c.x = geometryWord x ∧
      c.y = geometryWord y ∧ c.w = geometryWord w ∧ c.h = geometryWord h
  | .color565 r g b => c.cmd = 8#32 ∧ c.rgb = r ++ g ++ b
  | .encodePosition _ _ => False
  | .encodePixel _ => False
  | .decodePixel _ _ _ => False

/-- The decoder gives back the well-formed instruction that the words hold: the operation is the one of the code, and each
operand is read back from its pattern. -/
theorem decodeCommand_of_holds {c : CommandWords} {i : Instr} (hwf : i.wf = true) (h : c.Holds i) :
    decodeCommand c = .instr i := by
  cases i with
  | pixelGet x y =>
    obtain ⟨hcmd, hx, hy⟩ := h
    obtain ⟨inx, iny⟩ := of_decide_eq_true hwf
    rw [decodeCommand_pixelGet hcmd, hx, hy, toInt_geometryWord inx, toInt_geometryWord iny]
  | pixelSet x y color =>
    obtain ⟨hcmd, hx, hy, hcolor⟩ := h
    obtain ⟨inx, iny⟩ := of_decide_eq_true hwf
    rw [decodeCommand_pixelSet hcmd, hx, hy, hcolor, toInt_geometryWord inx, toInt_geometryWord iny]
  | fillRect x y w h color =>
    obtain ⟨hcmd, hx, hy, hw, hh, hcolor⟩ := h
    obtain ⟨inx, iny, inw, inh⟩ := of_decide_eq_true hwf
    rw [decodeCommand_fillRect hcmd, hx, hy, hw, hh, hcolor, toInt_geometryWord inx, toInt_geometryWord iny,
      toInt_geometryWord inw, toInt_geometryWord inh]
  | fill color =>
    obtain ⟨hcmd, hcolor⟩ := h
    rw [decodeCommand_fill hcmd, hcolor]
  | hline x y w color =>
    obtain ⟨hcmd, hx, hy, hw, hcolor⟩ := h
    obtain ⟨inx, iny, inw⟩ := of_decide_eq_true hwf
    rw [decodeCommand_hline hcmd, hx, hy, hw, hcolor, toInt_geometryWord inx, toInt_geometryWord iny,
      toInt_geometryWord inw]
  | vline x y h color =>
    obtain ⟨hcmd, hx, hy, hh, hcolor⟩ := h
    obtain ⟨inx, iny, inh⟩ := of_decide_eq_true hwf
    rw [decodeCommand_vline hcmd, hx, hy, hh, hcolor, toInt_geometryWord inx, toInt_geometryWord iny,
      toInt_geometryWord inh]
  | blit addr len x y w h =>
    obtain ⟨hcmd, haddr, hlen, hx, hy, hw, hh⟩ := h
    obtain ⟨inaddr, inlen, inx, iny, inw, inh⟩ := of_decide_eq_true hwf
    rw [decodeCommand_blit hcmd, haddr, hlen, hx, hy, hw, hh, toNat_unsignedWord inaddr, toNat_unsignedWord inlen,
      toInt_geometryWord inx, toInt_geometryWord iny, toInt_geometryWord inw, toInt_geometryWord inh]
  | color565 r g b =>
    obtain ⟨hcmd, hrgb⟩ := h
    rw [decodeCommand_color565 hcmd, c.red_of_rgb hrgb, c.green_of_rgb hrgb, c.blue_of_rgb hrgb]
  | encodePosition | encodePixel | decodePixel => exact h.elim

/-- A frame presents an instruction: a command that holds it, or the bytes of a wire format it decodes from. -/
def Frame.Presents (f : Frame) (i : Instr) : Prop :=
  match f with
  | .command c => c.Holds i
  | .wire bytes => decodeWire bytes = .instr i

/-- The encoder's frames: R103's operand words for an operation, R107's to R109's bytes for a wire function. -/
theorem encode_presents (i : Instr) : (encode i).Presents i := by
  cases i with
  | pixelGet => exact ⟨rfl, rfl, rfl⟩
  | pixelSet => exact ⟨rfl, rfl, rfl, rfl⟩
  | fillRect => exact ⟨rfl, rfl, rfl, rfl, rfl, rfl⟩
  | fill => exact ⟨rfl, rfl⟩
  | hline | vline => exact ⟨rfl, rfl, rfl, rfl, rfl⟩
  | blit => exact ⟨rfl, rfl, rfl, rfl, rfl, rfl, rfl⟩
  | color565 => exact ⟨rfl, rfl⟩
  | encodePosition a b => simp only [encode, Frame.Presents, decodeWire, Machine.be16_append]
  | encodePixel c => simp only [encode, Frame.Presents, decodeWire, Machine.be16_append]
  | decodePixel => rfl

theorem decode_of_presents {f : Frame} {i : Instr} (hwf : i.wf = true) (h : f.Presents i) : decode f = .instr i := by
  cases f with
  | command c => exact decodeCommand_of_holds hwf h
  | wire bytes => exact h

/-- Settles O47: the encoder's frame presents the instruction, and the decoder reads back what a frame presents. -/
theorem decodeInvertsEncode : Obligations.DecodeInvertsEncode := by
  unfold Obligations.DecodeInvertsEncode
  exact fun i hwf => decode_of_presents hwf (encode_presents i)

/-- Settles O48: the equation of each operation's code, and the bytes of each wire format. -/
theorem writtenOutWordsDecode : Obligations.WrittenOutWordsDecode := by
  unfold Obligations.WrittenOutWordsDecode
  exact ⟨decodeCommand_fillRect rfl, decodeCommand_blit rfl, decodeCommand_color565 rfl, rfl, rfl, rfl⟩

/-- Settles O49: legality is what the decoder tests, and the equation of each code names the operand words it reads. -/
theorem commandWordsAreLegalExactlyAsMapped : Obligations.CommandWordsAreLegalExactlyAsMapped := by
  unfold Obligations.CommandWordsAreLegalExactlyAsMapped
  refine ⟨fun c => ⟨fun ⟨i, hi⟩ => CommandWords.legal_of_decode hi, fun hlegal => ?_⟩, fun c i hi => ?_,
    fun c d hcd => ⟨fun h hx hy => ?_, fun h hx hy hcolor => ?_, fun h hx hy hw hh hcolor => ?_, fun h hcolor => ?_,
      fun h hx hy hw hcolor => ?_, fun h hx hy hh hcolor => ?_, fun h hx hy hw hh haddr hlen => ?_,
      fun h hrgb => ?_⟩⟩
  · obtain ⟨i, hi, -⟩ := CommandWords.Legal.decode hlegal
    exact ⟨i, hi⟩
  · obtain ⟨j, hj, hcode⟩ := (CommandWords.legal_of_decode hi).decode
    cases hi.symm.trans hj
    exact hcode
  · rw [decodeCommand_pixelGet h, decodeCommand_pixelGet (hcd ▸ h), hx, hy]
  · rw [decodeCommand_pixelSet h, decodeCommand_pixelSet (hcd ▸ h), hx, hy, hcolor]
  · rw [decodeCommand_fillRect h, decodeCommand_fillRect (hcd ▸ h), hx, hy, hw, hh, hcolor]
  · rw [decodeCommand_fill h, decodeCommand_fill (hcd ▸ h), hcolor]
  · rw [decodeCommand_hline h, decodeCommand_hline (hcd ▸ h), hx, hy, hw, hcolor]
  · rw [decodeCommand_vline h, decodeCommand_vline (hcd ▸ h), hx, hy, hh, hcolor]
  · rw [decodeCommand_blit h, decodeCommand_blit (hcd ▸ h), hx, hy, hw, hh, haddr, hlen]
  · rw [decodeCommand_color565 h, decodeCommand_color565 (hcd ▸ h), CommandWords.red, CommandWords.green,
      CommandWords.blue, hrgb]
    rfl

end Sys2Proof
end

section
/-! PROOFS. Encoding (30_encoding.md), in the machine: an illegal command word, the transactions an operation performs, and
an assembler line run through the register interface. -/

namespace Sys2Proof.Machine

/-! ## Operations by their encoding -/

/-- Settles O37: each of the three is defined by the launch of that `FILL_RECT` (30_encoding.md R112), so the two sides are
one computation. -/
theorem fillAndLinesExpandToFillRect : Obligations.FillAndLinesExpandToFillRect := by
  unfold Obligations.FillAndLinesExpandToFillRect
  exact fun s x y w h color => ⟨rfl, rfl, rfl⟩

theorem State.complete_stoppedWith (s : State) (c : Code) : s.StoppedWith (s.complete c) c :=
  ⟨State.completed_complete s.eventful_refl c, s.complete_sameButBlock c, rfl, rfl, rfl, rfl⟩

section
variable {s : State} {why : DecodeReject}

/-- An illegal word latched completes `ILLEGAL_OP` when the block carries it out whole (30_encoding.md R105). -/
theorem proceed_reject (hphase : s.phase = .runEntry) (h : decodeCommand s.latch = .reject why) :
    proceed s = .next (s.complete .illegalOp) := by
  simp only [proceed, hphase, runLatched, h]

/-- An illegal word latched completes `ILLEGAL_OP` in one move too (30_encoding.md R105). -/
theorem advance_reject (hphase : s.phase = .runEntry) (h : decodeCommand s.latch = .reject why) :
    advance s = .next (s.complete .illegalOp) := by
  simp only [advance, hphase, enterLatched, h]

end

/-- Settles O22: the word is rejected, and both ways in which the block moves complete `ILLEGAL_OP`. -/
theorem illegalCommandWordCompletesIllegalOp : Obligations.IllegalCommandWordCompletesIllegalOp := by
  unfold Obligations.IllegalCommandWordCompletesIllegalOp
  intro s after ⟨hwf, hreq, hmoves⟩ hphase hword
  have hillegal : ¬ s.latch.Legal := by
    rintro ⟨hreserved, hlow, hhigh⟩
    rcases hword with hbits | hzero | hnine
    · exact hbits hreserved
    · exact absurd hlow (by rw [CommandWords.opcode, hzero]; decide)
    · exact absurd (hnine.trans hhigh) (by decide)
  obtain ⟨why, hreject⟩ := decodeCommand_reject hillegal
  refine ⟨_, ?_, State.complete_stoppedWith _ _⟩
  rcases hmoves with ⟨rfl, halone⟩ | hturn
  · rw [step_eq_proceed hwf hreq halone]
    exact proceed_reject hphase hreject
  · rw [step_eq_takeInput ⟨hwf, hreq, hturn⟩ Input.noConfusion]
    exact advance_reject (s := { s with inputs := after }) hphase hreject

/-! ## The transactions of an operation (30_encoding.md R110) -/

/-- The events that R110 lists: CASET, PASET, RAMWR, RAMRD of one pixel, and DATA of one colour, of at least one pixel and
at most a chunk. -/
def BusEvent.OfFiveKinds (cfg : Config) (e : BusEvent) : Prop :=
  (∃ c data, cfg.cmdColumnSet = some c ∧ e = .write (some c) data ∧ data.length = 4) ∨
  (∃ c data, cfg.cmdPageSet = some c ∧ e = .write (some c) data ∧ data.length = 4) ∨
  (∃ c data, cfg.cmdRamWrite = some c ∧ e = .write (some c) data) ∨
  (∃ c, cfg.cmdRamRead = some c ∧ e = .read (some c) 3) ∨
  (∃ color k, 1 ≤ k ∧ k ≤ cfg.chunkPixels ∧ e = .write none (rep (pixelBytes color) k))

section
variable {cfg : Config} {e : BusEvent}

theorem encodePixel_eq_pixelBytes (color : U16) : encodePixel color = pixelBytes color := by
  rw [encodePixel, pixelBytes, ← be16_toU16, toU16, BitVec.ofInt_natCast, BitVec.ofNat_toNat, BitVec.setWidth_eq]

/-- A raw write of copies of a pixel is an event only where there is a copy (20_memory.md R66). -/
theorem of_mem_busWrite_rep {color : U16} {k : Nat} (h : e ∈ busWrite none (rep (encodePixel color) k)) :
    1 ≤ k ∧ e = .write none (rep (pixelBytes color) k) := by
  cases k with
  | zero => cases h
  | succ k =>
    rw [← encodePixel_eq_pixelBytes]
    exact ⟨Nat.succ_pos k, List.mem_singleton.mp h⟩

/-- The raw writes of a fill carry at least one pixel and at most a chunk (42_display_ops.md R175). -/
theorem chunkEvents_ofFiveKinds {total : Nat} {color : U16} (hchunk : 1 ≤ cfg.chunkPixels)
    (h : e ∈ chunkEvents cfg total color) : e.OfFiveKinds cfg := by
  have hdata : ∀ k, k ≤ cfg.chunkPixels → e ∈ busWrite none (rep (encodePixel color) k) → e.OfFiveKinds cfg := by
    intro k hle hk
    obtain ⟨hpos, he⟩ := of_mem_busWrite_rep hk
    exact .inr (.inr (.inr (.inr ⟨color, k, hpos, hle, he⟩)))
  simp only [chunkEvents, List.mem_append, List.mem_flatten, List.mem_replicate] at h
  rcases h with ⟨_, ⟨-, rfl⟩, hfull⟩ | hrest
  · exact hdata _ le_rfl hfull
  · exact hdata _ (Nat.mod_lt _ hchunk).le hrest

theorem programWindow_ofFiveKinds {cs ps : Byte} {r : Rect} (hcs : cfg.cmdColumnSet = some cs)
    (hps : cfg.cmdPageSet = some ps) (h : e ∈ programWindow cs ps r) : e.OfFiveKinds cfg := by
  simp only [programWindow, List.mem_cons, List.not_mem_nil, or_false] at h
  rcases h with rfl | rfl
  · exact .inl ⟨cs, _, hcs, rfl, rfl⟩
  · exact .inr (.inl ⟨ps, _, hps, rfl, rfl⟩)

end

/-- What an operation of a well-formed configuration sets out to perform. -/
theorem launchOf_events_ofFiveKinds {i : Instr} {s : State} {todo : List BusEvent} {onOk : OnOk}
    (hwf : s.cfg.wf = true) (hi : i.isOperation = true) (h : launchOf i s = .events todo onOk) :
    ∀ e ∈ todo, e.OfFiveKinds s.cfg := by
  intro e he
  obtain ⟨-, -, hchunk, -⟩ := (onlyWellFormedConfigurationsRun.1 s.cfg).mp hwf
  rcases launchOf_cases (s := s) hi with ⟨c, hl⟩ | ⟨v, hl⟩ | ⟨why, hl⟩ |
    ⟨cs, ps, rw, r, p, raw, hcs, hps, hrw, hl, hraw⟩ | ⟨cs, ps, rd, x, y, hcs, hps, hrd, hl⟩ <;>
    rw [hl] at h <;> cases h
  case inr.inr.inr.inl =>
    rcases List.mem_append.mp he with hwindow | hchunks
    · rcases List.mem_append.mp hwindow with hprogram | hpayload
      · exact programWindow_ofFiveKinds hcs hps hprogram
      · exact .inr (.inr (.inl ⟨rw, p, hrw, List.mem_singleton.mp hpayload⟩))
    · rcases hraw with rfl | ⟨total, color, rfl⟩
      · cases hchunks
      · exact chunkEvents_ofFiveKinds hchunk hchunks
  case inr.inr.inr.inr =>
    rw [readWindowEvents_pixel] at he
    rcases List.mem_append (s := programWindow cs ps (pixelRect x y)).mp he with hprogram | hread
    · exact programWindow_ofFiveKinds hcs hps hprogram
    · exact .inr (.inr (.inr (.inl ⟨rd, hrd, List.mem_singleton.mp hread⟩)))

/-- An entry for one of some events and its outcome. -/
theorem event_mem_of_mem_zipWith {events : List BusEvent} {answers : List Answer} {entry : TraceEntry}
    (h : entry ∈ List.zipWith TraceEntry.mk events answers) : entry.event ∈ events := by
  obtain ⟨k, hk, rfl⟩ := List.getElem_of_mem h
  rw [List.getElem_zipWith]
  exact List.getElem_mem _

/-- An operation performs no event but those it set out to perform. -/
theorem exec_new_mem_todo {i : Instr} {s t : State} {todo : List BusEvent} {onOk : OnOk} {new : List TraceEntry}
    (hl : launchOf i s = .events todo onOk) (hx : exec i s = .next t) (htrace : t.trace = s.trace ++ new) :
    ∀ entry ∈ new, entry.event ∈ todo := by
  rw [exec_eq_run, hl] at hx
  cases hx
  intro entry hentry
  rcases State.runEvents_cases todo onOk [] s with
    ⟨s', bytes, answers, -, -, -, htr, hrun⟩ | ⟨done, e, rest, s', answers, rfl, -, -, -, htr, hrun⟩
  · rw [hrun, State.finish_trace, htr] at htrace
    rw [← List.append_cancel_left htrace] at hentry
    exact event_mem_of_mem_zipWith hentry
  · rw [hrun, State.complete_trace, htr, List.append_assoc] at htrace
    rw [← List.append_cancel_left htrace] at hentry
    rcases List.mem_append.mp hentry with hdone | hfailed
    · exact List.mem_append_left _ (event_mem_of_mem_zipWith hdone)
    · rw [List.mem_singleton.mp hfailed]
      exact List.mem_append_right _ List.mem_cons_self

/-- Settles O28: an operation that performs events performs only what it set out to, which is of the five kinds. -/
theorem eventsAreOfTheFiveTransactionKinds : Obligations.EventsAreOfTheFiveTransactionKinds := by
  unfold Obligations.EventsAreOfTheFiveTransactionKinds
  intro i s t new hwf hi hx htrace
  rcases exec_operation_cases hi hx with ⟨c, -, rfl⟩ | ⟨v, -, rfl⟩ | ⟨todo, onOk, hl, -⟩
  · obtain rfl : new = [] := List.append_right_eq_self.mp htrace.symm
    exact List.forall_mem_nil _
  · obtain rfl : new = [] := List.append_right_eq_self.mp htrace.symm
    exact List.forall_mem_nil _
  · exact fun entry hentry =>
      launchOf_events_ofFiveKinds hwf hi hl entry.event (exec_new_mem_todo hl hx htrace entry hentry)

/-! ## The host's accesses in a row -/

/-- `s` with these inputs to come. -/
def State.withInputs (s : State) (inputs : List Input) : State := { s with inputs := inputs }

/-- `s` after these register writes, as (offset, value) pairs. -/
def State.writeAll (s : State) (writes : List (Nat × Word)) : State := writes.foldl (fun u w => u.writeReg w.1 w.2) s

/-- The inputs of these register writes. -/
def writeInputs (writes : List (Nat × Word)) : List Input := writes.map (fun w => .write w.1 4 w.2)

/-- The inputs of register reads at these offsets. -/
def readInputs (offsets : List Nat) : List Input := offsets.map (fun o => .read o 4)

section
variable {s t : State} {rest : List Input} {n : Nat}

theorem State.doorbell_withInputs (s : State) (inputs : List Input) (v : Word) :
    (s.withInputs inputs).doorbell v = (s.doorbell v).withInputs inputs := by
  unfold State.doorbell State.withInputs
  dsimp only
  split <;> rfl

theorem State.writeReg_withInputs (s : State) (inputs : List Input) (offset : Nat) (v : Word) :
    (s.withInputs inputs).writeReg offset v = (s.writeReg offset v).withInputs inputs := by
  unfold State.writeReg
  split
  case h_1 => exact s.doorbell_withInputs inputs v
  all_goals rfl

theorem State.Unattended.writeReg (h : s.Unattended) (offset : Nat) (v : Word) : (s.writeReg offset v).Unattended := by
  rcases State.writeReg_cases s offset v with hw | hw <;> rw [hw]
  · exact ⟨h.wf, h.request, h.inputs⟩
  · unfold State.doorbell
    split <;> exact ⟨h.wf, h.request, h.inputs⟩

theorem State.Unattended.nextInput (h : s.Unattended) (i : Input) (rest : List Input) :
    (s.withInputs (i :: rest)).nextInput i rest := ⟨h.wf, h.request, rfl⟩

/-- Aligned register writes, one a step, by induction on them. -/
theorem run_writes (writes : List (Nat × Word)) (hoffset : ∀ w ∈ writes, w.1 % 4 = 0 ∧ w.1 < 64) :
    ∀ {s : State}, s.Unattended →
      Sys2Proof.core.run (writes.length + n) (s.withInputs (writeInputs writes ++ rest)) =
        Sys2Proof.core.run n ((s.writeAll writes).withInputs rest) := by
  induction writes with
  | nil => exact fun _ => by rw [List.length_nil, Nat.zero_add]; rfl
  | cons w writes ih =>
    intro s h
    obtain ⟨⟨halign, hlt⟩, hoffset⟩ := List.forall_mem_cons.mp hoffset
    have hstep := step_write (h.nextInput (.write w.1 4 w.2) (writeInputs writes ++ rest)) halign hlt
    calc Sys2Proof.core.run (writes.length + 1 + n) (s.withInputs (writeInputs (w :: writes) ++ rest))
      _ = Sys2Proof.core.run (writes.length + n)
            ((s.withInputs (writeInputs writes ++ rest)).writeReg w.1 w.2) := by
          rw [Nat.add_right_comm]
          exact run_succ_next (M := Sys2Proof.core) hstep _
      _ = Sys2Proof.core.run n ((s.writeAll (w :: writes)).withInputs rest) := by
          rw [State.writeReg_withInputs]
          exact ih hoffset (h.writeReg w.1 w.2)

/-- Aligned register reads, one a step, by induction on them. -/
theorem run_reads (offsets : List Nat) (hoffset : ∀ o ∈ offsets, o % 4 = 0 ∧ o < 64) :
    ∀ {s : State}, s.Unattended →
      Sys2Proof.core.run offsets.length (s.withInputs (readInputs offsets ++ rest)) =
        .next { s with
          inputs := rest
          hostReads := s.hostReads ++ offsets.map (fun o => { offset := o, value := s.readReg o }) } := by
  induction offsets with
  | nil =>
    intro s _
    simp only [List.map_nil, List.append_nil]
    rfl
  | cons o offsets ih =>
    intro s h
    obtain ⟨⟨halign, hlt⟩, hoffset⟩ := List.forall_mem_cons.mp hoffset
    have hstep := step_read (h.nextInput (.read o 4) (readInputs offsets ++ rest)) halign hlt
    rw [List.map_cons, List.append_cons]
    exact (run_succ_next (M := Sys2Proof.core) hstep _).trans
      (ih (s := { s with hostReads := s.hostReads ++ [{ offset := o, value := s.readReg o }] }) hoffset
        ⟨h.wf, h.request, h.inputs⟩)

/-- A host that waits for a block that is not busy goes on (30_encoding.md R111). -/
theorem step_await_notBusy (h : s.Unattended) (hbusy : s.status.busy = false) :
    step (s.withInputs (.await :: rest)) = .next (s.withInputs rest) := by
  obtain ⟨hwf, hreq, hinputs⟩ := h.nextInput .await rest
  have hidle : (s.withInputs (.await :: rest)).status.busy = false := hbusy
  rw [step_eq_admittedStep hwf]
  simp only [admittedStep, hreq, inputStep, hinputs, hidle]
  rfl

/-- An operation neither reads nor changes the inputs, and leaves the block not busy. -/
theorem exec_withInputs {i : Instr} (hi : i.isOperation = true) (hx : exec i s = .next t) (inputs : List Input) :
    exec i (s.withInputs inputs) = .next (t.withInputs inputs) ∧ t.status.busy = false := by
  rcases operationsIgnoreRegistersAndHistory i s (s.withInputs inputs) hi rfl rfl rfl rfl (fun _ => rfl) with
    ⟨why, hrefused, -⟩ | ⟨c, new, value, answers, draws, hs, hu⟩
  · cases hx.symm.trans hrefused
  · cases hx.symm.trans hs
    exact ⟨hu, rfl⟩

/-- A host that waits for a latched operation sees it carried out whole, and waits on. -/
theorem step_await_runEntry {i : Instr} (h : s.Unattended) (hphase : s.phase = .runEntry)
    (hbusy : s.status.busy = true) (hdecode : decodeCommand s.latch = .instr i) (hx : exec i s = .next t) :
    step (s.withInputs (.await :: rest)) = .next (t.withInputs (.await :: rest)) := by
  have hruns : (s.withInputs (.await :: rest)).runsNext := ⟨h.wf, h.request, hphase, .inr ⟨hbusy, rest, rfl⟩⟩
  rw [stepExecutesTheDecodedInstruction.1 _ i hruns hdecode]
  exact (exec_withInputs (decodeCommand_isOperation hdecode) hx _).1

end

/-! ## A line of assembler (30_encoding.md R111) -/

section
variable {s t : State} {i : Instr} {op : Word}

/-- The registers a line ends by reading. -/
def lineReadOffsets (i : Instr) : List Nat := 0x24 :: if readsResult i then [0x28] else []

theorem lineReads_eq_map (i : Instr) (t : State) :
    lineReads i t = (lineReadOffsets i).map (fun o => { offset := o, value := t.readReg o }) := by
  cases h : readsResult i <;> simp [lineReads, lineReadOffsets, h]

theorem lineReadOffsets_aligned (i : Instr) : ∀ o ∈ lineReadOffsets i, o % 4 = 0 ∧ o < 64 := by
  cases h : readsResult i <;> simp [lineReadOffsets, h]

/-- The writes of a line, the doorbell last. -/
def lineWrites (i : Instr) (op : Word) : List (Nat × Word) := operandWrites i ++ [(0x00, op)]

theorem operandWrites_offset (i : Instr) : ∀ w ∈ operandWrites i, ∃ mask, (w.1, mask) ∈ operandMasks := by
  cases i <;> simp [operandWrites, operandMasks]

theorem lineWrites_aligned (i : Instr) (op : Word) : ∀ w ∈ lineWrites i op, w.1 % 4 = 0 ∧ w.1 < 64 := by
  intro w hw
  rcases List.mem_append.mp hw with hoperand | hcmd
  · obtain ⟨mask, hmask⟩ := operandWrites_offset i w hoperand
    exact operandMasks_offset hmask
  · rw [List.mem_singleton.mp hcmd]
    exact ⟨Nat.zero_mod 4, Nat.succ_pos 63⟩

theorem State.writeAll_lineWrites (s : State) (i : Instr) (op : Word) :
    s.writeAll (lineWrites i op) = s.afterLine i op := List.foldl_append

/-- What is left of a line once its operation is started: it waits and reads; `rest` comes after the line. -/
def lineEnd (i : Instr) (rest : List Input) : List Input := .await :: (readInputs (lineReadOffsets i) ++ rest)

/-- A line waits, writes, waits, and reads. -/
theorem lineInputs_append (hop : opcodeOf i = some op) (rest : List Input) :
    lineInputs i ++ rest = .await :: (writeInputs (lineWrites i op) ++ lineEnd i rest) := by
  cases h : readsResult i <;>
    simp [lineInputs, hop, lineWrites, lineEnd, lineReadOffsets, writeInputs, readInputs, h]

theorem lineInputs_length (hop : opcodeOf i = some op) :
    (lineInputs i).length = (lineWrites i op).length + ((lineReadOffsets i).length + 1) + 1 := by
  rw [← List.append_nil (lineInputs i), lineInputs_append hop]
  simp only [lineEnd, writeInputs, readInputs, List.length_cons, List.length_append, List.length_map, List.length_nil,
    Nat.add_zero]

/-- Writes of operand registers change the registers only, by induction on them. -/
theorem State.writeAll_operands_frame (writes : List (Nat × Word))
    (hwrites : ∀ w ∈ writes, ∃ mask, (w.1, mask) ∈ operandMasks) :
    ∀ s : State, s.writeAll writes = { s with regs := (s.writeAll writes).regs } := by
  induction writes with
  | nil => exact fun _ => rfl
  | cons w writes ih =>
    intro s
    obtain ⟨⟨mask, hmask⟩, hwrites⟩ := List.forall_mem_cons.mp hwrites
    have hcons : s.writeAll (w :: writes) = (s.writeReg w.1 w.2).writeAll writes := rfl
    rw [hcons, ih hwrites, s.writeReg_operand_frame hmask]

/-- A register narrower than a word keeps what the host writes zero-extended. -/
theorem setWidth_register {n : Nat} (hn : n ≤ 32) (c : BitVec n) : (c.setWidth 32).setWidth n = c := by
  rw [BitVec.setWidth_setWidth_of_le c hn, BitVec.setWidth_eq]

/-- The doorbell of a line finds the words of the operation in the registers. -/
theorem State.writeAll_operandWrites_holds (s : State) (hop : opcodeOf i = some op) :
    ({ (s.writeAll (operandWrites i)).regs with cmd := op } : CommandWords).Holds i := by
  cases i <;> cases hop
  case pixelGet => exact ⟨rfl, rfl, rfl⟩
  case pixelSet => exact ⟨rfl, rfl, rfl, setWidth_register (by decide) _⟩
  case fillRect => exact ⟨rfl, rfl, rfl, rfl, rfl, setWidth_register (by decide) _⟩
  case fill => exact ⟨rfl, setWidth_register (by decide) _⟩
  case hline => exact ⟨rfl, rfl, rfl, rfl, setWidth_register (by decide) _⟩
  case vline => exact ⟨rfl, rfl, rfl, rfl, setWidth_register (by decide) _⟩
  case blit => exact ⟨rfl, rfl, rfl, rfl, rfl, rfl, rfl⟩
  case color565 => exact ⟨rfl, setWidth_register (by decide) _⟩

/-- A line leaves its operation latched in a block about to execute it, and nothing else changed. -/
theorem State.afterLine_holds (hbusy : s.status.busy = false) (hop : opcodeOf i = some op) :
    ∃ words : CommandWords, words.Holds i ∧
      s.afterLine i op = { s with
        regs := words, latch := words, status := { s.status with busy := true }, phase := .runEntry } := by
  refine ⟨_, s.writeAll_operandWrites_holds hop, ?_⟩
  change (s.writeAll (operandWrites i)).doorbell op = _
  rw [State.writeAll_operands_frame _ (operandWrites_offset i)]
  exact State.doorbell_notBusy op hbusy

/-- The run of a line from a block that is not busy: the wait, the writes, the operation while the host waits, the end of
the wait, the reads. -/
theorem run_line {rest : List Input} (h : s.Unattended) (hbusy : s.status.busy = false)
    (hop : opcodeOf i = some op) (hdecode : decodeCommand (s.afterLine i op).latch = .instr i)
    (hx : exec i (s.afterLine i op) = .next t) :
    Sys2Proof.core.run ((lineInputs i).length + 1) (s.withInputs (lineInputs i ++ rest)) =
      .next { t with inputs := rest, hostReads := s.hostReads ++ lineReads i t } := by
  have hi := decodeCommand_isOperation hdecode
  have hsame := exec_sameButBlock hi hx
  obtain ⟨words, -, hline⟩ := s.afterLine_holds hbusy hop
  obtain ⟨hafter, hphase, hrunning, hkept⟩ : (s.afterLine i op).Unattended ∧ (s.afterLine i op).phase = .runEntry ∧
      (s.afterLine i op).status.busy = true ∧ (s.afterLine i op).hostReads = s.hostReads := by
    rw [hline]
    exact ⟨⟨h.wf, h.request, h.inputs⟩, rfl, rfl, rfl⟩
  have ht := hafter.of_sameButBlock hsame
  have hdone := (exec_withInputs hi hx []).2
  calc Sys2Proof.core.run ((lineInputs i).length + 1) (s.withInputs (lineInputs i ++ rest))
    _ = Sys2Proof.core.run ((lineWrites i op).length + ((lineReadOffsets i).length + 1 + 1))
          (s.withInputs (writeInputs (lineWrites i op) ++ lineEnd i rest)) := by
        rw [lineInputs_length hop, lineInputs_append hop]
        exact run_succ_next (M := Sys2Proof.core) (step_await_notBusy h hbusy) _
    _ = Sys2Proof.core.run ((lineReadOffsets i).length + 1 + 1) ((s.afterLine i op).withInputs (lineEnd i rest)) := by
        rw [run_writes _ (lineWrites_aligned i op) h, State.writeAll_lineWrites]
    _ = Sys2Proof.core.run ((lineReadOffsets i).length + 1) (t.withInputs (lineEnd i rest)) :=
        run_succ_next (M := Sys2Proof.core) (step_await_runEntry hafter hphase hrunning hdecode hx) _
    _ = Sys2Proof.core.run (lineReadOffsets i).length (t.withInputs (readInputs (lineReadOffsets i) ++ rest)) :=
        run_succ_next (M := Sys2Proof.core) (step_await_notBusy ht hdone) _
    _ = .next { t with inputs := rest, hostReads := s.hostReads ++ lineReads i t } := by
        rw [run_reads _ (lineReadOffsets_aligned i) ht, lineReads_eq_map, hsame.hostReads, hkept]

/-- The latch that a line leaves decodes to its operation. -/
theorem decodeCommand_afterLine (hbusy : s.status.busy = false) (hop : opcodeOf i = some op) (hwf : i.wf = true) :
    decodeCommand (s.afterLine i op).latch = .instr i := by
  obtain ⟨words, hwords, hline⟩ := s.afterLine_holds hbusy hop
  rw [hline]
  exact decodeCommand_of_holds hwf hwords

end

/-- Settles O52: the latch holds the words of the operation, and the line runs as its five parts. -/
theorem assemblerLineExecutesItsOperation : Obligations.AssemblerLineExecutesItsOperation := by
  unfold Obligations.AssemblerLineExecutesItsOperation
  intro s t i op rest hwf hreq hbusy hi hop hinputs hx
  have hdecode := decodeCommand_afterLine (s := { s with inputs := [] }) hbusy hop hi
  have hrun := run_line (s := { s with inputs := [] }) (rest := rest) ⟨hwf, hreq, rfl⟩ hbusy hop hdecode hx
  rw [← hinputs] at hrun
  exact ⟨hdecode, hrun⟩

end Sys2Proof.Machine
end

section
/-! PROOFS. The pixel codec (40_pixel_codec.md): the colour format, the wire functions, and the codec as instructions.

R130 and R131 mask and shift; here each is said once as fields put side by side. `packColor_eq_append` and
`unpackColor_eq_append` carry every fact about the colour format: a field of the packed colour is read off, its number
is the sum of its fields in their places, and packing what was unpacked puts the three fields of one colour together. -/

namespace Sys2Proof.Machine

/-! ## Fields, masks and shifts -/

section
variable {w n k : Nat}

/-- Masking off the low `k` bits keeps the field above them in its place. -/
theorem and_highMask (x : BitVec (n + k)) : x &&& (BitVec.allOnes n ++ 0#k) = x.extractLsb' k n ++ 0#k := by
  conv_lhs => rw [← BitVec.extractLsb'_append_extractLsb' (x := x)]
  rw [BitVec.and_append, BitVec.and_allOnes, BitVec.and_zero]

/-- The mask of red and of blue (40_pixel_codec.md R130, R131). -/
theorem and_0xF8 (x : Byte) : x &&& 0xF8#8 = x.extractLsb' 3 5 ++ 0#3 := and_highMask (n := 5) (k := 3) x

/-- The mask of green (40_pixel_codec.md R130, R131). -/
theorem and_0xFC (x : Byte) : x &&& 0xFC#8 = x.extractLsb' 2 6 ++ 0#2 := and_highMask (n := 6) (k := 2) x

theorem setWidth_append_zero (x : BitVec n) (v : Nat) : (x ++ 0#k).setWidth v = x.setWidth v <<< k := by
  rw [BitVec.setWidth_append_eq_shiftLeft_setWidth_or, BitVec.setWidth_zero, BitVec.or_zero]

/-- Shifting out the low `k` bits leaves the field above them. -/
theorem setWidth_ushiftRight_eq_setWidth_field (x : BitVec w) (h : w ≤ n + k) (v : Nat) :
    (x >>> k).setWidth v = (x.extractLsb' k n).setWidth v := by
  ext i hi
  simp only [BitVec.getElem_setWidth, BitVec.getLsbD_ushiftRight, BitVec.getLsbD_extractLsb']
  by_cases hin : i < n
  · simp only [hin, decide_true, Bool.true_and]
  · rw [BitVec.getLsbD_of_ge x (k + i) (by omega), Bool.and_false]

theorem extractLsb'_ushiftRight (x : BitVec w) (start : Nat) :
    (x >>> k).extractLsb' start n = x.extractLsb' (k + start) n := by
  ext i hi
  simp only [BitVec.getElem_extractLsb', BitVec.getLsbD_ushiftRight, Nat.add_assoc]

theorem extractLsb'_shiftLeft_self (x : BitVec w) (h : k + n ≤ w) :
    (x <<< k).extractLsb' k n = x.extractLsb' 0 n := by
  ext i hi
  have hin : k + i < w := by omega
  simp [hin, ← BitVec.getLsbD_eq_getElem]

theorem toNat_append_eq_add (x : BitVec n) (y : BitVec k) : (x ++ y).toNat = x.toNat * 2 ^ k + y.toNat := by
  rw [BitVec.toNat_append, ← Nat.shiftLeft_add_eq_or_of_lt y.isLt, Nat.shiftLeft_eq]

theorem toNat_setWidth_shiftLeft {v : Nat} (x : BitVec n) (h : n + k ≤ v) :
    (x.setWidth v <<< k).toNat = x.toNat <<< k := by
  rw [← setWidth_append_zero, BitVec.toNat_setWidth_of_le h, BitVec.toNat_append, BitVec.toNat_zero, Nat.or_zero]

end

/-! ## The colour format (40_pixel_codec.md R130, R131) -/

/-- The fields of a packed colour (40_pixel_codec.md R130): red, green, blue from the most significant end. -/
theorem packColor_eq_append (r g b : Byte) :
    packColor r g b = r.extractLsb' 3 5 ++ g.extractLsb' 2 6 ++ b.extractLsb' 3 5 := by
  calc packColor r g b
    _ = (r.extractLsb' 3 5).setWidth 16 <<< 11 ||| (g.extractLsb' 2 6).setWidth 16 <<< 5 |||
          (b.extractLsb' 3 5).setWidth 16 := by
        rw [packColor, and_0xF8, and_0xFC, setWidth_append_zero, setWidth_append_zero, ← BitVec.shiftLeft_add,
          ← BitVec.shiftLeft_add, setWidth_ushiftRight_eq_setWidth_field (n := 5) b (by decide)]
    _ = (r.extractLsb' 3 5 ++ g.extractLsb' 2 6 ++ b.extractLsb' 3 5).setWidth 16 := by
        rw [BitVec.setWidth_append_append_eq_shiftLeft_setWidth_or]
    _ = r.extractLsb' 3 5 ++ g.extractLsb' 2 6 ++ b.extractLsb' 3 5 := BitVec.setWidth_eq _

/-- The components of an unpacked colour (40_pixel_codec.md R131): its fields, each at the top of a byte. -/
theorem unpackColor_eq_append (c : U16) :
    unpackColor c = (c.extractLsb' 11 5 ++ 0#3, c.extractLsb' 5 6 ++ 0#2, c.extractLsb' 0 5 ++ 0#3) := by
  have hred : ((c >>> 8).setWidth 8).extractLsb' 3 5 = c.extractLsb' 11 5 := by
    rw [BitVec.extractLsb'_setWidth_of_le (by decide), extractLsb'_ushiftRight]
  have hgreen : ((c >>> 3).setWidth 8).extractLsb' 2 6 = c.extractLsb' 5 6 := by
    rw [BitVec.extractLsb'_setWidth_of_le (by decide), extractLsb'_ushiftRight]
  have hblue : ((c <<< 3).setWidth 8).extractLsb' 3 5 = c.extractLsb' 0 5 := by
    rw [BitVec.extractLsb'_setWidth_of_le (by decide), extractLsb'_shiftLeft_self c (by decide)]
  simp only [unpackColor, BitVec.setWidth_and, BitVec.reduceSetWidth, and_0xF8, and_0xFC, hred, hgreen, hblue]

section
variable (r g b : Byte) (c : U16)

theorem packColor_red : (packColor r g b).extractLsb' 11 5 = r.extractLsb' 3 5 := by
  rw [packColor_eq_append, BitVec.extractLsb'_append_eq_of_le (by decide)]
  exact BitVec.extractLsb'_append_eq_left

theorem packColor_green : (packColor r g b).extractLsb' 5 6 = g.extractLsb' 2 6 := by
  rw [packColor_eq_append, BitVec.extractLsb'_append_eq_of_le (by decide)]
  exact BitVec.extractLsb'_append_eq_right

theorem packColor_blue : (packColor r g b).extractLsb' 0 5 = b.extractLsb' 3 5 := by
  rw [packColor_eq_append]
  exact BitVec.extractLsb'_append_eq_right

/-- A packed colour as a number: each component divided by its truncation step, in its place. -/
theorem toNat_packColor : (packColor r g b).toNat = r.toNat / 8 * 2048 + g.toNat / 4 * 32 + b.toNat / 8 := by
  simp only [packColor_eq_append, toNat_append_eq_add, BitVec.extractLsb'_toNat, Nat.shiftRight_eq_div_pow]
  omega

theorem toNat_unpackColor :
    (unpackColor c).1.toNat = c.toNat / 2048 * 8 ∧ (unpackColor c).2.1.toNat = c.toNat / 32 % 64 * 4 ∧
      (unpackColor c).2.2.toNat = c.toNat % 32 * 8 := by
  simp only [unpackColor_eq_append, toNat_append_eq_add, BitVec.extractLsb'_toNat, Nat.shiftRight_eq_div_pow,
    BitVec.toNat_zero]
  omega

/-- The round trip of R137, item 1: the low bits of each component are lost. -/
theorem unpackColor_packColor : unpackColor (packColor r g b) = (r &&& 0xF8#8, g &&& 0xFC#8, b &&& 0xF8#8) := by
  rw [unpackColor_eq_append, packColor_red, packColor_green, packColor_blue, and_0xF8, and_0xFC, and_0xF8]

/-- R137, item 2: the three fields of a colour, put together again. -/
theorem packColor_unpackColor : packColor (unpackColor c).1 (unpackColor c).2.1 (unpackColor c).2.2 = c := by
  have hred : (c.extractLsb' 11 5 ++ 0#3).extractLsb' 3 5 = c.extractLsb' 11 5 := BitVec.extractLsb'_append_eq_left
  have hgreen : (c.extractLsb' 5 6 ++ 0#2).extractLsb' 2 6 = c.extractLsb' 5 6 := BitVec.extractLsb'_append_eq_left
  have hblue : (c.extractLsb' 0 5 ++ 0#3).extractLsb' 3 5 = c.extractLsb' 0 5 := BitVec.extractLsb'_append_eq_left
  rw [unpackColor_eq_append, packColor_eq_append, hred, hgreen, hblue,
    BitVec.extractLsb'_append_extractLsb'_eq_extractLsb' (by rfl),
    BitVec.extractLsb'_append_extractLsb'_eq_extractLsb' (by rfl)]
  exact BitVec.extractLsb'_eq_self

end

/-- Settles O43: the formula shifts no bit out of its 16, and the fields are read off the colour put side by side. -/
theorem colorPacksRedGreenBlue : Obligations.ColorPacksRedGreenBlue := by
  unfold Obligations.ColorPacksRedGreenBlue
  refine fun r g b => ⟨?_, packColor_red r g b, packColor_green r g b, packColor_blue r g b⟩
  rw [packColor, BitVec.toNat_or, BitVec.toNat_or, toNat_setWidth_shiftLeft _ (by decide),
    toNat_setWidth_shiftLeft _ (by decide), BitVec.toNat_setWidth_of_le (by decide), BitVec.toNat_and,
    BitVec.toNat_and, BitVec.toNat_ushiftRight]
  rfl

/-- Settles O44: the two round trips of the fields; `decode_pixel` is `color565` (40_pixel_codec.md R133). -/
theorem unpackingInvertsPackingUpToTruncation : Obligations.UnpackingInvertsPackingUpToTruncation := by
  unfold Obligations.UnpackingInvertsPackingUpToTruncation
  exact ⟨toNat_unpackColor, unpackColor_packColor, packColor_unpackColor, packColor_unpackColor, fun _ _ _ => rfl⟩

/-! ## The wire functions (40_pixel_codec.md R132, R134) -/

theorem encodePixel_eq_bytes (c : U16) :
    encodePixel c = [BitVec.ofNat 8 (c.toNat / 256), BitVec.ofNat 8 (c.toNat % 256)] := by
  rw [encodePixel_eq_pixelBytes, pixelBytes, bigEndian]
  norm_cast

/-- A position is its two halves, each as a pixel's bytes (40_pixel_codec.md R134). -/
theorem encodePosition_eq_encodePixel (a b : U16) : encodePosition a b = encodePixel a ++ encodePixel b := rfl

theorem encodePosition_eq_bytes (a b : U16) :
    encodePosition a b = [BitVec.ofNat 8 (a.toNat / 256), BitVec.ofNat 8 (a.toNat % 256),
      BitVec.ofNat 8 (b.toNat / 256), BitVec.ofNat 8 (b.toNat % 256)] := by
  rw [encodePosition_eq_encodePixel, encodePixel_eq_bytes, encodePixel_eq_bytes]
  rfl

/-- `be16` loses nothing (40_pixel_codec.md R137): its two bytes put together are its argument. -/
theorem encodePixel_injective : Function.Injective encodePixel := by
  intro c d h
  obtain ⟨hhigh, htail⟩ := List.cons.inj h
  rw [← be16_append c, hhigh, List.head_eq_of_cons_eq htail, be16_append d]

theorem encodePosition_injective {a b c d : U16} (h : encodePosition a b = encodePosition c d) : a = c ∧ b = d := by
  obtain ⟨hfirst, hsecond⟩ := List.append_inj h rfl
  exact ⟨encodePixel_injective hfirst, encodePixel_injective hsecond⟩

/-- Settles O45: the bytes by division, and each argument got back from its own bytes. -/
theorem wireFunctionsAreBigEndianAndInjective : Obligations.WireFunctionsAreBigEndianAndInjective := by
  unfold Obligations.WireFunctionsAreBigEndianAndInjective
  exact ⟨encodePixel_eq_bytes, encodePosition_eq_bytes, fun _ _ h => encodePixel_injective h,
    fun _ _ _ _ h => encodePosition_injective h⟩

/-! ## The codec as instructions (40_pixel_codec.md R135, R136) -/

/-- Settles O46: each function's launch returns its value on the codec port (log 8), which is given by its bytes. -/
theorem wireFunctionsReturnTheirValueAndChangeNothing :
    Obligations.WireFunctionsReturnTheirValueAndChangeNothing := by
  unfold Obligations.WireFunctionsReturnTheirValueAndChangeNothing
  intro s a b c b0 b1 b2
  rw [← encodePosition_eq_bytes, ← encodePixel_eq_bytes]
  exact ⟨exec_eq_run _ s, exec_eq_run _ s, exec_eq_run _ s⟩

/-- Writing `RESULT` and then completing `OK` is a completion of the operation (60_exceptions.md R220). -/
theorem State.setResult_complete_completed (s : State) (v : U16) : s.Completed ((s.setResult v).complete .ok) .ok := by
  rw [State.setResult_complete_eq_afterOperation]
  exact ⟨rfl, rfl, rfl, rfl, rfl, rfl⟩

/-- Settles O42: the launch of `COLOR565` is its value whether the block is dead or not (40_pixel_codec.md R136). -/
theorem color565WritesResultWithoutEvents : Obligations.Color565WritesResultWithoutEvents := by
  unfold Obligations.Color565WritesResultWithoutEvents
  intro s r g b
  have hexec : exec (.color565 r g b) s = .next ((s.setResult (packColor r g b)).complete .ok) := exec_eq_run _ s
  exact ⟨_, hexec, s.setResult_complete_completed _, exec_sameButBlock rfl hexec, toNat_packColor r g b,
    rfl, rfl, rfl⟩

end Sys2Proof.Machine
end

section
/-! PROOFS. The window accessor (41_window_accessor.md): the configuration check, the window that every operation with
events programs first, and the event that fails in an operation that only writes.

`launchOf_events_programWindow` says what an operation sets out to perform, `exec_new_prefix` how much of it gets into
the trace. -/

namespace Sys2Proof.Machine

/-! ## The configuration check (41_window_accessor.md R151) -/

section
variable {cfg : Config}

theorem windowWrite_unset (hunset : cfg.cmdColumnSet = none ∨ cfg.cmdPageSet = none ∨ cfg.cmdRamWrite = none)
    (r : Rect) (payload : List Byte) (raw : List BusEvent) :
    windowWrite cfg r payload raw = .stop .configError := by
  rw [windowWrite]
  split
  · rename_i hcs hps hrw
    simp [hcs, hps, hrw] at hunset
  · rfl

theorem windowRead_unset (hunset : cfg.cmdColumnSet = none ∨ cfg.cmdPageSet = none ∨ cfg.cmdRamRead = none)
    (r : Rect) : windowRead cfg r = .stop .configError := by
  rw [windowRead]
  split
  · rename_i hcs hps hrd
    simp [hcs, hps, hrd] at hunset
  · rfl

end

section
variable {s : State} {x y : Int}

/-- What `PIXEL_SET` of a pixel on the canvas performs in a block that is not dead (42_display_ops.md R173). -/
theorem launchOf_pixelSet (hdead : s.status.dead = false) (hon : onCanvas s.cfg x y) (color : U16) :
    launchOf (.pixelSet x y color) s = windowWrite s.cfg (pixelRect x y) (encodePixel color) [] := by
  rw [launchOf, launchPixelSet, unlessDead, if_neg (by simp [hdead]), if_pos hon]

/-- `PIXEL_GET` of two `u16` coordinates is a window read, whichever identifiers are set (42_display_ops.md R172). -/
theorem launchOf_pixelGet_windowRead (hdead : s.status.dead = false) (hx : FitsU16 x) (hy : FitsU16 y) :
    launchOf (.pixelGet x y) s = windowRead s.cfg (pixelRect x y) := by
  rw [launchOf, launchPixelGet, unlessDead, if_neg (by simp [hdead]), if_pos ⟨hx, hy⟩]

theorem exec_stop {i : Instr} {c : Code} (hl : launchOf i s = .stop c) :
    ∃ t, exec i s = .next t ∧ s.StoppedWith t c := by
  rw [exec_eq_run, hl]
  exact ⟨_, rfl, s.complete_stoppedWith c⟩

end

/-- Settles O23: each of these operations is one window access, which the configuration check stops; `FILL` and the
lines are the `FILL_RECT` they expand to. -/
theorem unsetIdentifierCompletesConfigError : Obligations.UnsetIdentifierCompletesConfigError := by
  unfold Obligations.UnsetIdentifierCompletesConfigError
  refine fun s hdead => ⟨fun hunset => ?_, fun hunset x y hx hy =>
    exec_stop ((launchOf_pixelGet_windowRead hdead hx hy).trans (windowRead_unset hunset _))⟩
  have hstops {i : Instr} {r : Rect} {payload : List Byte} {raw : List BusEvent}
      (hl : launchOf i s = windowWrite s.cfg r payload raw) : ∃ t, exec i s = .next t ∧ s.StoppedWith t .configError :=
    exec_stop (hl.trans (windowWrite_unset hunset r payload raw))
  have hfill (x y w h : Int) (color : U16) := hstops (launchOf_fillRect hdead x y w h color)
  have hexpand := fillAndLinesExpandToFillRect s
  refine ⟨hfill, fun color => ?_, fun x y w color => ?_, fun x y h color => ?_,
    fun x y color hon => hstops (launchOf_pixelSet hdead hon color),
    fun addr len x y w h hclear hspace hfits => hstops (launchOf_blit hclear hdead hspace hfits)⟩
  · rw [(hexpand 0 0 s.cfg.width s.cfg.height color).1]
    exact hfill 0 0 s.cfg.width s.cfg.height color
  · rw [(hexpand x y w 1 color).2.1]
    exact hfill x y w 1 color
  · rw [(hexpand x y 1 h color).2.2]
    exact hfill x y 1 h color

/-! ## The events an operation sets out to perform (41_window_accessor.md R152 to R154, R158) -/

theorem BusEvent.eq_write_of_isWrite {e : BusEvent} (he : e.isWrite = true) : ∃ cmd data, e = .write cmd data := by
  cases e with
  | write cmd data => exact ⟨cmd, data, rfl⟩
  | read | rst | wait => cases he

theorem programWindow_isWrite (cs ps : Byte) (r : Rect) : ∀ e ∈ programWindow cs ps r, e.isWrite = true := by
  simp [programWindow, BusEvent.isWrite]

section
variable {i : Instr} {s : State} {todo : List BusEvent} {onOk : OnOk}

/-- A wire function performs no event (41_window_accessor.md R157). -/
theorem isOperation_of_launchOf_events (hl : launchOf i s = .events todo onOk) : i.isOperation = true := by
  cases i with
  | encodePosition | encodePixel | decodePixel => cases hl
  | _ => rfl

/-- The events of an operation are a window programmed afresh and what follows it, only writes where the operation
returns no value. -/
theorem launchOf_events_programWindow (hl : launchOf i s = .events todo onOk) :
    ∃ cs ps r after, s.cfg.cmdColumnSet = some cs ∧ s.cfg.cmdPageSet = some ps ∧
      todo = programWindow cs ps r ++ after ∧ (onOk = .nothing → ∀ e ∈ after, e.isWrite = true) := by
  rcases launchOf_cases (s := s) (isOperation_of_launchOf_events hl) with ⟨c, hstop⟩ | ⟨v, hvalue⟩ | ⟨why, hrefuse⟩ |
    ⟨cs, ps, rw, r, p, raw, hcs, hps, -, hwrite, hraw⟩ | ⟨cs, ps, rd, x, y, hcs, hps, -, hread⟩
  · cases hstop.symm.trans hl
  · cases hvalue.symm.trans hl
  · cases hrefuse.symm.trans hl
  · cases hwrite.symm.trans hl
    refine ⟨cs, ps, r, .write (some rw) p :: raw, hcs, hps, rfl, fun _ => List.forall_mem_cons.mpr ⟨rfl, ?_⟩⟩
    rcases hraw with rfl | ⟨total, color, rfl⟩
    · exact List.forall_mem_nil _
    · intro e he
      obtain ⟨data, rfl⟩ := chunkEvents_raw he
      rfl
  · cases hread.symm.trans hl
    exact ⟨cs, ps, pixelRect x y, _, hcs, hps, rfl, OnOk.noConfusion⟩

/-- An operation that returns no value only writes. -/
theorem launchOf_events_isWrite (hl : launchOf i s = .events todo .nothing) : ∀ e ∈ todo, e.isWrite = true := by
  obtain ⟨cs, ps, r, after, -, -, rfl, hafter⟩ := launchOf_events_programWindow hl
  exact List.forall_mem_append.mpr ⟨programWindow_isWrite cs ps r, hafter rfl⟩

end

/-- Settles O24: every event is a write, so those before the failing one are accepted, and the operation ends there. -/
theorem firstFailedWriteStopsTheOperation : Obligations.FirstFailedWriteStopsTheOperation := by
  unfold Obligations.FirstFailedWriteStopsTheOperation
  intro i s before after e rest hl hanswers
  obtain ⟨hbefore, hfrom⟩ := List.forall_mem_append.mp (launchOf_events_isWrite hl)
  obtain ⟨cmd, data, rfl⟩ := BusEvent.eq_write_of_isWrite (hfrom e List.mem_cons_self)
  obtain ⟨t, hexec, hcompleted, hsame, hresult, hrest, hdraws, htrace⟩ :=
    exec_events_unfit hl hbefore rfl rfl hanswers
  exact ⟨t, hexec, hcompleted, hsame, htrace.trans (List.append_assoc ..).symm, hresult, hrest, hdraws⟩

/-! ## The events an operation performs (60_exceptions.md R212) -/

theorem map_event_zipWith {events : List BusEvent} {answers : List Answer} (h : answers.length = events.length) :
    (List.zipWith TraceEntry.mk events answers).map TraceEntry.event = events :=
  calc (List.zipWith TraceEntry.mk events answers).map TraceEntry.event
    _ = (List.zip events answers).map Prod.fst := by rw [List.zip, List.map_zipWith, List.map_zipWith]
    _ = events := List.map_fst_zip h.ge

/-- An operation performs its events in order, to the end or to one that fails. -/
theorem exec_new_prefix {i : Instr} {s t : State} {todo : List BusEvent} {onOk : OnOk} {new : List TraceEntry}
    (hl : launchOf i s = .events todo onOk) (hx : exec i s = .next t) (htrace : t.trace = s.trace ++ new) :
    new.map TraceEntry.event <+: todo ∧
      (new.map TraceEntry.event = todo ∨ ∃ last ∈ new.getLast?, last.answer = .fail) := by
  rw [exec_eq_run, hl] at hx
  cases hx
  rcases State.runEvents_cases todo onOk [] s with
    ⟨s', bytes, answers, -, hlen, -, htr, hrun⟩ | ⟨done, e, rest, s', answers, rfl, -, hlen, -, htr, hrun⟩
  · rw [hrun, State.finish_trace, htr] at htrace
    rw [← List.append_cancel_left htrace, map_event_zipWith hlen]
    exact ⟨List.prefix_rfl, .inl rfl⟩
  · rw [hrun, State.complete_trace, htr, List.append_assoc] at htrace
    rw [← List.append_cancel_left htrace, List.map_append, map_event_zipWith hlen]
    exact ⟨⟨rest, List.append_assoc ..⟩, .inr ⟨_, List.getLast?_concat, rfl⟩⟩

/-- Settles O27: what was performed is the beginning of a list that begins with the window; a single event is not all of
that list, so it failed. -/
theorem everyOperationProgramsAFreshWindowFirst : Obligations.EveryOperationProgramsAFreshWindowFirst := by
  unfold Obligations.EveryOperationProgramsAFreshWindowFirst
  intro i s t first more hi hx htrace
  rcases exec_operation_cases hi hx with ⟨c, -, rfl⟩ | ⟨v, -, rfl⟩ | ⟨todo, onOk, hl, -⟩
  · cases List.append_right_eq_self.mp htrace.symm
  · cases List.append_right_eq_self.mp htrace.symm
  · obtain ⟨cs, ps, r, after, hcs, hps, rfl, -⟩ := launchOf_events_programWindow hl
    obtain ⟨hprefix, hend⟩ := exec_new_prefix hl hx htrace
    obtain ⟨hfirst, hmore⟩ := List.cons_prefix_cons.mp hprefix
    refine ⟨cs, ps, hcs, hps, ⟨_, hfirst, rfl⟩, ?_⟩
    cases more with
    | nil =>
      rcases hend with hall | ⟨last, hlast, hfail⟩
      · cases (List.cons.inj hall).2
      · cases hlast
        exact .inl ⟨hfail, rfl⟩
    | cons second others =>
      obtain ⟨hsecond, -⟩ := List.cons_prefix_cons.mp hmore
      exact .inr ⟨second, others, _, rfl, hsecond, rfl⟩

end Sys2Proof.Machine
end

section
/-! PROOFS. The display operations (42_display_ops.md): every operation completes, the checks that stop an operation
before its first event, and what each operation performs when the transport accepts all of it.

An operation that only writes ends in `State.StreamedOk` once the transport accepts its events (`exec_streamedOk`), so
what is left to say of each is which events its launch decides; `FILL` and the lines are the `FILL_RECT` they expand to. -/

namespace Sys2Proof.Machine

/-! ## Every operation completes (42_display_ops.md R170, R181) -/

/-- The spec gives the launch a meaning. -/
def Launch.Accepted (l : Launch) : Prop := ∀ why, l ≠ .refuse why

section
variable {l : Launch} {s t : State}

theorem Launch.run_next_of_accepted (h : l.Accepted) (s : State) : ∃ t, l.run s = .next t := by
  cases l with
  | refuse why => exact absurd rfl (h why)
  | _ => exact ⟨_, rfl⟩

theorem Launch.stop_accepted (c : Code) : (Launch.stop c).Accepted := fun _ => Launch.noConfusion

theorem unlessDead_accepted (h : l.Accepted) (s : State) : (unlessDead s l).Accepted := by
  unfold unlessDead
  split
  · exact Launch.stop_accepted _
  · exact h

theorem windowWrite_accepted (cfg : Config) (r : Rect) (payload : List Byte) (raw : List BusEvent) :
    (windowWrite cfg r payload raw).Accepted := by
  unfold windowWrite
  split <;> exact fun _ => Launch.noConfusion

theorem windowRead_accepted (cfg : Config) (r : Rect) : (windowRead cfg r).Accepted := by
  unfold windowRead
  split <;> exact fun _ => Launch.noConfusion

theorem launchFillRect_accepted (x y w h : Int) (color : U16) (s : State) : (launchFillRect x y w h color s).Accepted :=
  unlessDead_accepted (windowWrite_accepted _ _ _ _) s

/-- Only a `BLIT` over the register space is refused (20_memory.md R75). -/
theorem launchOf_accepted {i : Instr}
    (hclear : ∀ addr len x y w h, i = .blit addr len x y w h → overlapsRegisters s.cfg addr len = false) :
    (launchOf i s).Accepted := by
  cases i with
  | pixelGet x y =>
    refine unlessDead_accepted ?_ s
    split
    · exact windowRead_accepted _ _
    · exact Launch.stop_accepted _
  | pixelSet x y color =>
    refine unlessDead_accepted ?_ s
    split
    · exact windowWrite_accepted _ _ _ _
    · exact Launch.stop_accepted _
  | fillRect x y w h color => exact launchFillRect_accepted x y w h color s
  | fill color => exact launchFillRect_accepted 0 0 s.cfg.width s.cfg.height color s
  | hline x y w color => exact launchFillRect_accepted x y w 1 color s
  | vline x y h color => exact launchFillRect_accepted x y 1 h color s
  | blit addr len x y w h =>
    rw [launchOf, launchBlit, refuseOverlap, hclear addr len x y w h rfl]
    refine unlessDead_accepted ?_ s
    split
    · split
      · exact windowWrite_accepted _ _ _ _
      · exact Launch.stop_accepted _
    · exact Launch.stop_accepted _
  | color565 | encodePosition | encodePixel | decodePixel => exact fun _ => Launch.noConfusion

theorem State.finish_completed (s : State) (onOk : OnOk) (received : List Byte) :
    s.Completed (s.finish onOk received) .ok := by
  unfold State.finish State.useReceived
  split
  · exact s.setResult_complete_completed _
  · exact State.completed_complete s.eventful_refl _

/-- Events before a completion leave what it says: it speaks of `STATUS`, `FAULT_LOG` and the phase only. -/
theorem State.Completed.of_eventful {s' : State} {c : Code} (hev : s.eventful s') (h : s'.Completed t c) :
    s.Completed t c := by
  rw [hev] at h
  exact ⟨h.busy, h.ready, h.dead, h.code, h.faultLog, h.phase⟩

theorem exec_completed {i : Instr} (hi : i.isOperation = true) (hx : exec i s = .next t) : ∃ c, s.Completed t c := by
  rcases exec_operation_cases hi hx with ⟨c, -, rfl⟩ | ⟨v, -, rfl⟩ | ⟨todo, onOk, -, rfl⟩
  · exact ⟨c, State.completed_complete s.eventful_refl c⟩
  · exact ⟨.ok, s.setResult_complete_completed v⟩
  · rcases State.runEvents_cases todo onOk [] s with
      ⟨s', bytes, -, hev, -, -, -, hrun⟩ | ⟨-, -, -, s', -, -, hev, -, -, -, hrun⟩ <;> rw [hrun]
    · exact ⟨.ok, .of_eventful hev (s'.finish_completed onOk bytes)⟩
    · exact ⟨.transportError, State.completed_complete hev _⟩

/-- From `s` to `t` the trace only grew, and the transport's answers were only used up, in order (20_memory.md R67,
R68). -/
structure State.Consumes (s t : State) : Prop where
  trace : s.trace <+: t.trace
  answers : t.answers <:+ s.answers

theorem State.consumes_of_same (htrace : t.trace = s.trace) (hanswers : t.answers = s.answers) : s.Consumes t :=
  ⟨htrace ▸ List.prefix_rfl, hanswers ▸ List.suffix_rfl⟩

theorem State.Consumes.trans {s' : State} (h : s.Consumes s') (h' : s'.Consumes t) : s.Consumes t :=
  ⟨h.trace.trans h'.trace, h'.answers.trans h.answers⟩

theorem State.draw_answers_suffix (s : State) (e : BusEvent) : (s.draw e).2.answers <:+ s.answers := by
  unfold State.draw
  split
  · exact List.suffix_rfl
  · rename_i a rest _ hanswers
    exact hanswers ▸ List.suffix_cons a rest
  · exact List.suffix_rfl

theorem State.perform_consumes {s' : State} {e : BusEvent} {a : Answer} (hp : s.perform e = (a, s')) :
    s.Consumes s' := by
  refine ⟨(State.perform_cases hp).2 ▸ List.prefix_append _ _, ?_⟩
  cases hp
  exact s.draw_answers_suffix e

theorem State.finish_consumes (s : State) (onOk : OnOk) (received : List Byte) :
    s.Consumes (s.finish onOk received) := by
  unfold State.finish State.useReceived
  split <;> exact State.consumes_of_same rfl rfl

/-- The events of an operation, by induction on them: each uses up at most one answer. -/
theorem State.runEvents_consumes (todo : List BusEvent) (onOk : OnOk) (received : List Byte) (s : State) :
    s.Consumes (s.runEvents todo onOk received) := by
  induction todo generalizing s received with
  | nil => exact s.finish_consumes onOk received
  | cons e rest ih =>
    rw [State.runEvents]
    split <;> rename_i s' hp <;> have hev := State.perform_consumes hp
    · exact hev.trans (ih _ s')
    · exact hev.trans (State.consumes_of_same rfl rfl)

theorem exec_consumes {i : Instr} (hi : i.isOperation = true) (hx : exec i s = .next t) : s.Consumes t := by
  rcases exec_operation_cases hi hx with ⟨c, -, rfl⟩ | ⟨v, -, rfl⟩ | ⟨todo, onOk, -, rfl⟩
  · exact State.consumes_of_same rfl rfl
  · exact State.consumes_of_same rfl rfl
  · exact State.runEvents_consumes todo onOk [] s

end

/-- Settles O20: the launch is accepted, so there is a next state, and each clause holds of every next state. -/
theorem everyOperationCompletes : Obligations.EveryOperationCompletes := by
  unfold Obligations.EveryOperationCompletes
  intro i s hi hclear
  obtain ⟨t, hrun⟩ := Launch.run_next_of_accepted (launchOf_accepted hclear) s
  have hx : exec i s = .next t := (exec_eq_run i s).trans hrun
  obtain ⟨⟨new, htrace⟩, ⟨used, hanswers⟩⟩ := exec_consumes hi hx
  exact ⟨t, hx, exec_completed hi hx, exec_sameButBlock hi hx, ⟨new, htrace.symm⟩, ⟨used, hanswers.symm⟩⟩

/-! ## Checks that stop an operation (60_exceptions.md R219) -/

section
variable {s : State} {x y : Int}

theorem launchOf_pixelGet_outOfRange (hdead : s.status.dead = false) (hrange : ¬(FitsU16 x ∧ FitsU16 y)) :
    launchOf (.pixelGet x y) s = .stop .encodeRange := by
  rw [launchOf, launchPixelGet, unlessDead, if_neg (by simp [hdead]), if_neg hrange]

theorem launchOf_pixelSet_offCanvas (hdead : s.status.dead = false) (hoff : ¬ onCanvas s.cfg x y) (color : U16) :
    launchOf (.pixelSet x y color) s = .stop .ok := by
  rw [launchOf, launchPixelSet, unlessDead, if_neg (by simp [hdead]), if_neg hoff]

variable {addr len : Nat} {w h : Int}

theorem launchOf_blit_pastTop (hclear : overlapsRegisters s.cfg addr len = false) (hdead : s.status.dead = false)
    (hspace : ¬ bufferInSpace addr len) : launchOf (.blit addr len x y w h) s = .stop .illegalOp := by
  rw [launchOf, launchBlit, refuseOverlap, if_neg (by simp [hclear]), unlessDead, if_neg (by simp [hdead]),
    if_neg hspace]

theorem launchOf_blit_outside (hclear : overlapsRegisters s.cfg addr len = false) (hdead : s.status.dead = false)
    (hspace : bufferInSpace addr len) (hfits : ¬ blitFits s.cfg x y w h) :
    launchOf (.blit addr len x y w h) s = .stop .outOfBounds := by
  rw [launchOf, launchBlit, refuseOverlap, if_neg (by simp [hclear]), unlessDead, if_neg (by simp [hdead]),
    if_pos hspace, if_neg hfits]

/-- Two of R179's bounds follow from the others: a rectangle with a pixel that ends on the canvas begins on it. -/
theorem blitFits_iff {cfg : Config} :
    blitFits cfg x y w h ↔ 0 ≤ x ∧ 0 ≤ y ∧ 1 ≤ w ∧ 1 ≤ h ∧ x + w ≤ cfg.width ∧ y + h ≤ cfg.height := by
  simp only [blitFits]
  omega

end

/-- Settles O30: the range check comes before the configuration check. -/
theorem pixelGetOutOfRangeIsEncodeRange : Obligations.PixelGetOutOfRangeIsEncodeRange := by
  unfold Obligations.PixelGetOutOfRangeIsEncodeRange
  intro s x y hdead hout
  refine exec_stop (launchOf_pixelGet_outOfRange hdead ?_)
  simp only [FitsU16]
  omega

/-- Settles O33: the canvas check comes before the configuration check. -/
theorem pixelSetOffCanvasDoesNothing : Obligations.PixelSetOffCanvasDoesNothing := by
  unfold Obligations.PixelSetOffCanvasDoesNothing
  intro s x y color hdead hout
  refine exec_stop (launchOf_pixelSet_offCanvas hdead ?_ color)
  simp only [onCanvas]
  omega

/-- Settles O40: the address range is checked first, whatever the rectangle, and the bounds of a range that passes. -/
theorem blitChecksRangeThenBounds : Obligations.BlitChecksRangeThenBounds := by
  unfold Obligations.BlitChecksRangeThenBounds
  intro s addr len x y w h hdead hclear
  refine ⟨fun hpast => exec_stop (launchOf_blit_pastTop hclear hdead (Nat.not_le.mpr hpast)), fun hspace hout =>
    exec_stop (launchOf_blit_outside hclear hdead hspace ?_)⟩
  rw [blitFits_iff]
  omega

/-! ## Operations that only write, all of it accepted -/

section
variable {s : State} {i : Instr} {rest : List Answer}

theorem exec_streamedOk {es : List BusEvent} (hl : launchOf i s = .events es .nothing)
    (hanswers : s.answers = okAnswers es.length ++ rest) : ∃ t, exec i s = .next t ∧ s.StreamedOk t es rest := by
  have hrun : exec i s = .next ((s.afterEvents (okEntries es) rest s.draws).complete .ok) := by
    rw [exec_eq_run, hl, Launch.run, State.runEvents_ok (launchOf_events_isWrite hl) hanswers]
    rfl
  have hev := s.afterEvents_eventful (okEntries es) rest s.draws
  exact ⟨_, hrun, State.completed_complete hev .ok, exec_sameButBlock (isOperation_of_launchOf_events hl) hrun,
    rfl, rfl, rfl, rfl⟩

/-- The window of R152 and R153, its positions written as big-endian numbers. -/
theorem writeWindowEvents_eq_windowTrace (cs ps rw : Byte) (r : Rect) (payload : List Byte) :
    writeWindowEvents cs ps rw r payload = windowTrace cs ps rw r.x0 r.x1 r.y0 r.y1 payload := by
  rw [writeWindowEvents, programWindow, encodePosition_toU16, encodePosition_toU16]
  rfl

theorem windowWrite_eq_windowTrace {cfg : Config} {cs ps rw : Byte} (hids : cfg.writeIds cs ps rw) (r : Rect)
    (payload : List Byte) (raw : List BusEvent) :
    windowWrite cfg r payload raw = .events (windowTrace cs ps rw r.x0 r.x1 r.y0 r.y1 payload ++ raw) .nothing := by
  rw [windowWrite_of_writeIds hids, writeWindowEvents_eq_windowTrace]

/-- A window write without raw writes after it. -/
theorem exec_windowWrite_streamedOk {cs ps rw : Byte} {r : Rect} {payload : List Byte}
    (hids : s.cfg.writeIds cs ps rw) (hl : launchOf i s = windowWrite s.cfg r payload [])
    (hanswers : s.answers = okAnswers 3 ++ rest) :
    ∃ t, exec i s = .next t ∧ s.StreamedOk t (windowTrace cs ps rw r.x0 r.x1 r.y0 r.y1 payload) rest := by
  rw [windowWrite_eq_windowTrace hids, List.append_nil] at hl
  exact exec_streamedOk hl hanswers

end

/-- Settles O32: one window write of one pixel. -/
theorem pixelSetWritesOnePixel : Obligations.PixelSetWritesOnePixel := by
  unfold Obligations.PixelSetWritesOnePixel
  intro s x y color cs ps rw rest _ hdead hids hx0 hx1 hy0 hy1 hanswers
  rw [← encodePixel_eq_pixelBytes]
  exact exec_windowWrite_streamedOk hids (launchOf_pixelSet hdead ⟨hx0, hx1, hy0, hy1⟩ color) hanswers

/-- Settles O39: one window write whose payload is `MemRead` of the buffer (00_scope.md R14). -/
theorem blitSendsTheBufferAsItLies : Obligations.BlitSendsTheBufferAsItLies := by
  unfold Obligations.BlitSendsTheBufferAsItLies
  intro s addr len x y w h cs ps rw rest _ hdead hids hspace hclear hx hy hw hh hright hbottom hanswers
  have hfits : blitFits s.cfg x y w h := blitFits_iff.mpr ⟨hx, hy, hw, hh, hright, hbottom⟩
  rw [← memReadReturnsBytesInAddressOrder s.mem addr len]
  exact exec_windowWrite_streamedOk hids (launchOf_blit hclear hdead hspace hfits) hanswers

/-! ## The chunks of a fill (42_display_ops.md R175) -/

section
variable {cfg : Config}

theorem rep_length (l : List Byte) (k : Nat) : (rep l k).length = k * l.length := by
  rw [rep, List.length_flatten, List.map_replicate, List.sum_replicate, smul_eq_mul]

/-- No pixels are the null transaction (20_memory.md R66). -/
theorem busWrite_rep_encodePixel (color : U16) (k : Nat) :
    busWrite none (rep (encodePixel color) k) = if k = 0 then [] else [.write none (rep (pixelBytes color) k)] := by
  rw [← encodePixel_eq_pixelBytes]
  cases k <;> rfl

theorem chunkEvents_eq (hchunk : 1 ≤ cfg.chunkPixels) (total : Nat) (color : U16) :
    chunkEvents cfg total color =
      List.replicate (total / cfg.chunkPixels) (.write none (rep (pixelBytes color) cfg.chunkPixels)) ++
        if total % cfg.chunkPixels = 0 then []
        else [.write none (rep (pixelBytes color) (total % cfg.chunkPixels))] := by
  rw [chunkEvents, busWrite_rep_encodePixel, busWrite_rep_encodePixel, if_neg (Nat.ne_of_gt hchunk),
    List.flatten_replicate_singleton]
  rfl

theorem busWrite_rawData (data : List Byte) : (busWrite none data).flatMap BusEvent.rawData = data := by
  cases data with
  | nil => rfl
  | cons b data => exact List.flatMap_singleton _ _

/-- Raw writes carry the pixels of their chunks, joined. -/
theorem rawWrites_rawData (chunks : List (List (Byte × Byte))) :
    (rawWrites chunks).flatMap BusEvent.rawData = pixelStream chunks.flatten := by
  induction chunks with
  | nil => rfl
  | cons ps chunks ih =>
    rw [rawWrites, List.flatMap_cons, ← rawWrites, List.flatMap_append, busWrite_rawData, ih, List.flatten_cons,
      pixelStream, pixelStream, pixelStream, List.flatMap_append]

theorem chunkEvents_rawData (cfg : Config) (total : Nat) (color : U16) :
    (chunkEvents cfg total color).flatMap BusEvent.rawData = rep (pixelBytes color) total := by
  rw [chunkEvents_eq_rawWrites, rawWrites_rawData, fillChunks_flatten, ← rep_encodePixel, encodePixel_eq_pixelBytes]

theorem chunkEvents_length (hchunk : 1 ≤ cfg.chunkPixels) (total : Nat) (color : U16) :
    (chunkEvents cfg total color).length =
      total / cfg.chunkPixels + if total % cfg.chunkPixels = 0 then 0 else 1 := by
  rw [chunkEvents_eq hchunk, List.length_append, List.length_replicate]
  split <;> rfl

theorem of_mem_chunkEvents (hchunk : 1 ≤ cfg.chunkPixels) {total : Nat} {color : U16} {e : BusEvent}
    (he : e ∈ chunkEvents cfg total color) :
    ∃ k, 1 ≤ k ∧ k ≤ cfg.chunkPixels ∧ e = .write none (rep (pixelBytes color) k) := by
  rw [chunkEvents_eq hchunk] at he
  rcases List.mem_append.mp he with hfull | hrest
  · exact ⟨_, hchunk, le_rfl, List.eq_of_mem_replicate hfull⟩
  · split at hrest
    · cases hrest
    · rename_i hleft
      exact ⟨_, Nat.pos_of_ne_zero hleft, (Nat.mod_lt _ hchunk).le, List.mem_singleton.mp hrest⟩

end

/-- Settles O38: the data of the chunks joined, their number, and the size of each. -/
theorem chunksCarryEveryPixelOnce : Obligations.ChunksCarryEveryPixelOnce := by
  unfold Obligations.ChunksCarryEveryPixelOnce
  intro cfg total color hwf
  obtain ⟨-, -, hchunk, -⟩ := (onlyWellFormedConfigurationsRun.1 cfg).mp hwf
  refine ⟨chunkEvents_rawData cfg total color, ?_, chunkEvents_length hchunk total color,
    fun e he => of_mem_chunkEvents hchunk he⟩
  rw [chunkEvents_rawData, rep_length, Nat.mul_comm]
  rfl

/-! ## The rectangle of a fill (42_display_ops.md R174) -/

section
variable {cfg : Config}

theorem clampX_zero (hwf : cfg.wf = true) : clampX cfg 0 = 0 := by
  obtain ⟨⟨hwidth, -⟩, -⟩ := (onlyWellFormedConfigurationsRun.1 cfg).mp hwf
  simp only [clampX, clamp]
  omega

theorem clampY_zero (hwf : cfg.wf = true) : clampY cfg 0 = 0 := by
  obtain ⟨-, ⟨hheight, -⟩, -⟩ := (onlyWellFormedConfigurationsRun.1 cfg).mp hwf
  simp only [clampY, clamp]
  omega

theorem clampW_zero_width (hwf : cfg.wf = true) : clampW cfg 0 cfg.width = cfg.width := by
  obtain ⟨⟨hwidth, -⟩, -⟩ := (onlyWellFormedConfigurationsRun.1 cfg).mp hwf
  simp only [clampW, clampX_zero hwf, clamp]
  omega

theorem clampH_zero_height (hwf : cfg.wf = true) : clampH cfg 0 cfg.height = cfg.height := by
  obtain ⟨-, ⟨hheight, -⟩, -⟩ := (onlyWellFormedConfigurationsRun.1 cfg).mp hwf
  simp only [clampH, clampY_zero hwf, clamp]
  omega

/-- The clamped sizes are at least 1. -/
theorem one_le_clampW_clampH (hwf : cfg.wf = true) (x y w h : Int) : 1 ≤ clampW cfg x w ∧ 1 ≤ clampH cfg y h := by
  obtain ⟨-, hw, -, -, hh, -⟩ := clampedRect_inside hwf x y w h
  simp only [clampedRect, sizedRect] at hw hh
  omega

/-- A width of 1 stays 1: there is always room for it. -/
theorem clampW_one (hwf : cfg.wf = true) (x : Int) : clampW cfg x 1 = 1 :=
  le_antisymm (min_le_right _ _) (one_le_clampW_clampH hwf x 0 1 1).1

theorem clampH_one (hwf : cfg.wf = true) (y : Int) : clampH cfg y 1 = 1 :=
  le_antisymm (min_le_right _ _) (one_le_clampW_clampH hwf 0 y 1 1).2

end

/-- Settles O34: the rectangle is the clamped one by definition; it lies inside the canvas, so its bounds fit. -/
theorem fillClampsOntoTheCanvas : Obligations.FillClampsOntoTheCanvas := by
  unfold Obligations.FillClampsOntoTheCanvas
  intro cfg x y w h hwf cx cy cw ch
  have hin := clampedRect_inside hwf x y w h
  obtain ⟨hw, hh⟩ := one_le_clampW_clampH hwf x y w h
  obtain ⟨-, hx1, -, hy1⟩ := Rect.fitsU16_of_inside hwf hin
  exact ⟨rfl, hin, sizedRect_pixels _ _ _ _, one_le_mul_of_one_le_of_one_le hw hh, hx1, hy1⟩

/-! ## Fills and lines -/

section
variable {s : State} {cs ps rw : Byte} {rest : List Answer}

theorem launchOf_fillRect_eq_fillTrace (hwf : s.cfg.wf = true) (hdead : s.status.dead = false)
    (hids : s.cfg.writeIds cs ps rw) (x y w h : Int) (color : U16) :
    launchOf (.fillRect x y w h color) s =
      .events (fillTrace cs ps rw s.cfg.chunkPixels (clampX s.cfg x) (clampY s.cfg y) (clampW s.cfg x w)
        (clampH s.cfg y h) color) .nothing := by
  obtain ⟨-, -, hchunk, -⟩ := (onlyWellFormedConfigurationsRun.1 s.cfg).mp hwf
  rw [launchOf_fillRect hdead, ← chunkEvents_eq_rawWrites, windowWrite_eq_windowTrace hids, chunkEvents_eq hchunk,
    fillTrace, List.append_assoc]
  rfl

theorem exec_fillRect_streamedOk (hwf : s.cfg.wf = true) (hdead : s.status.dead = false)
    (hids : s.cfg.writeIds cs ps rw) {x y w h : Int} {color : U16} {es : List BusEvent}
    (hes : fillTrace cs ps rw s.cfg.chunkPixels (clampX s.cfg x) (clampY s.cfg y) (clampW s.cfg x w)
      (clampH s.cfg y h) color = es)
    (hanswers : s.answers = okAnswers es.length ++ rest) :
    ∃ t, exec (.fillRect x y w h color) s = .next t ∧ s.StreamedOk t es rest :=
  exec_streamedOk (hes ▸ launchOf_fillRect_eq_fillTrace hwf hdead hids x y w h color) hanswers

end

/-- Settles O35: the events of the launch are R175's for the clamped rectangle, all of them writes. -/
theorem fillRectStreamsTheClampedRectangle : Obligations.FillRectStreamsTheClampedRectangle := by
  unfold Obligations.FillRectStreamsTheClampedRectangle
  intro s x y w h color cs ps rw rest hwf hdead hids cx cy cw ch es hanswers
  exact exec_fillRect_streamedOk hwf hdead hids rfl hanswers

/-- Settles O36: each is the `FILL_RECT` it expands to; clamping leaves the whole canvas, a height of 1 and a width of 1
as they are. -/
theorem fillAndLinesStreamTheirRectangles : Obligations.FillAndLinesStreamTheirRectangles := by
  unfold Obligations.FillAndLinesStreamTheirRectangles
  intro s x y w h color cs ps rw rest hwf hdead hids cx cy cw ch whole row column
  obtain ⟨hfill, hhline, hvline⟩ := fillAndLinesExpandToFillRect s x y w h color
  rw [hfill, hhline, hvline]
  refine ⟨exec_fillRect_streamedOk hwf hdead hids ?_, exec_fillRect_streamedOk hwf hdead hids ?_,
    exec_fillRect_streamedOk hwf hdead hids ?_⟩
  · rw [clampX_zero hwf, clampY_zero hwf, clampW_zero_width hwf, clampH_zero_height hwf]
  · rw [clampH_one hwf]
    rfl
  · rw [clampW_one hwf]
    rfl

/-! ## `PIXEL_GET` -/

section
variable {s : State} {cmd : Option Byte} {rest : List Answer}

/-- A read that the transport answers with as many bytes as it asks for (20_memory.md R67). -/
theorem State.perform_read_ok {n : Nat} {bytes : List Byte} (hlen : bytes.length = n)
    (h : s.answers = .ok bytes :: rest) :
    s.perform (.read cmd n) =
      (.ok bytes, s.afterEvents [{ event := .read cmd n, answer := .ok bytes }] rest s.draws) := by
  simp only [State.perform, State.draw, BusEvent.drawsAnswer, h, Answer.fit, hlen, if_true, State.record,
    State.afterEvents]

/-- Writes that succeed and then a read of a pixel's samples: `RESULT` takes the pixel (40_pixel_codec.md R133). -/
theorem State.runEvents_decode {es : List BusEvent} {r g b : Byte} (hes : ∀ e ∈ es, e.isWrite = true)
    (h : s.answers = okAnswers es.length ++ .ok [r, g, b] :: rest) :
    s.runEvents (es ++ [.read cmd 3]) .decodeResult [] =
      (s.afterEvents (okEntries es ++ [{ event := .read cmd 3, answer := .ok [r, g, b] }]) rest s.draws).finish
        .decodeResult [r, g, b] := by
  rw [State.runEvents_append_ok es [.read cmd 3] .decodeResult s [] (.ok [r, g, b] :: rest) hes h, State.runEvents,
    State.perform_read_ok (n := 3) rfl rfl, State.afterEvents, State.afterEvents, List.append_assoc]
  rfl

/-- An operation that ends with a read of a pixel, all of it accepted. -/
theorem exec_decode {i : Instr} {es : List BusEvent} {r g b : Byte}
    (hl : launchOf i s = .events (es ++ [.read cmd 3]) .decodeResult) (hes : ∀ e ∈ es, e.isWrite = true)
    (hanswers : s.answers = okAnswers es.length ++ .ok [r, g, b] :: rest) :
    ∃ t, exec i s = .next t ∧ s.Completed t .ok ∧ s.sameButBlock t ∧ t.result = packColor r g b ∧ t.answers = rest ∧
      t.draws = s.draws ∧
      t.trace = s.trace ++ (okEntries es ++ [{ event := .read cmd 3, answer := .ok [r, g, b] }]) := by
  have hrun := exec_eq_run i s
  rw [hl, Launch.run, State.runEvents_decode hes hanswers] at hrun
  exact ⟨_, hrun, .of_eventful (s.afterEvents_eventful _ rest s.draws) (State.finish_completed _ _ _),
    exec_sameButBlock (isOperation_of_launchOf_events hl) hrun, rfl, rfl, rfl, rfl⟩

end

/-- Settles O29: two writes that program the window, and a read whose samples are decoded. -/
theorem pixelGetReturnsTheDecodedSamples : Obligations.PixelGetReturnsTheDecodedSamples := by
  unfold Obligations.PixelGetReturnsTheDecodedSamples
  intro s x y cs ps rd r g b rest hdead hids hx hy hanswers
  exact exec_decode (es := [_, _]) (launchOf_pixelGet hdead hids hx hy) (by simp [BusEvent.isWrite]) hanswers

end Sys2Proof.Machine
end

section
/-! PROOFS. Completion and errors (60_exceptions.md): completion as one step, the doorbell while busy, a dead block, and
which codes an operation can complete with.

An operation that completes with another code than `OK` and `TRANSPORT_ERROR` was stopped by its launch
(`exec_stopped`), and `launchOf_stopsIn` lists the codes with which a launch can stop. -/

namespace Sys2Proof.Machine

/-! ## Completion (60_exceptions.md R220) -/

/-- Settles O19: completing is stopping with the code and no effect besides; `decode_pixel` and `COLOR565` pack the same
colour, which is in `RESULT` before the completion. -/
theorem completionWritesCodeLogAndBusy : Obligations.CompletionWritesCodeLogAndBusy := by
  unfold Obligations.CompletionWritesCodeLogAndBusy
  intro s c
  obtain ⟨hcompleted, hsame, htrace, hresult, hanswers, hdraws⟩ := s.complete_stoppedWith c
  exact ⟨hcompleted, hsame, htrace, hresult, hanswers, hdraws, fun r g b => ⟨rfl, exec_eq_run _ s⟩⟩

/-! ## A doorbell while busy (60_exceptions.md R224) -/

theorem State.doorbell_busy {s : State} (v : Word) (hbusy : s.status.busy = true) :
    s.doorbell v = { s with faultLog := s.faultLog ||| busyViolation } := if_pos hbusy

/-- Settles O16: the step is the doorbell of a busy block. -/
theorem doorbellWhileBusyIsDroppedAndLogged : Obligations.DoorbellWhileBusyIsDroppedAndLogged := by
  unfold Obligations.DoorbellWhileBusyIsDroppedAndLogged
  intro s v rest hnext hbusy
  have hbusy' : (State.status { s with inputs := rest }).busy = true := hbusy
  rw [step_write hnext rfl (by decide), State.writeReg, State.doorbell_busy v hbusy', busyViolation]
  rfl

/-! ## A dead block (60_exceptions.md R216) -/

section
variable {s : State} {l : Launch}

theorem unlessDead_dead (hdead : s.status.dead = true) : unlessDead s l = .stop .notReady := if_pos hdead

/-- The launch of every operation but `COLOR565` asks for `DEAD` first, after the overlap that R75 refuses. -/
theorem launchOf_dead {i : Instr} (hi : i.isOperation = true) (hcolor : ∀ r g b, i ≠ .color565 r g b)
    (hdead : s.status.dead = true)
    (hclear : ∀ addr len x y w h, i = .blit addr len x y w h → overlapsRegisters s.cfg addr len = false) :
    launchOf i s = .stop .notReady := by
  cases i with
  | pixelGet | pixelSet | fillRect | fill | hline | vline => exact unlessDead_dead hdead
  | blit addr len x y w h =>
    rw [launchOf, launchBlit, refuseOverlap, hclear addr len x y w h rfl]
    exact unlessDead_dead hdead
  | color565 r g b => exact absurd rfl (hcolor r g b)
  | encodePosition | encodePixel | decodePixel => cases hi

end

/-- Settles O21: the launch stops with `NOT_READY`. -/
theorem deadBlockAnswersNotReady : Obligations.DeadBlockAnswersNotReady := by
  unfold Obligations.DeadBlockAnswersNotReady
  exact fun i s hi hcolor hdead hclear => exec_stop (launchOf_dead hi hcolor hdead hclear)

/-! ## Failures before the first event (60_exceptions.md R221) -/

section
variable {i : Instr} {s t : State}

/-- Once it performs events, an operation completes with one of two codes (60_exceptions.md R212). -/
theorem State.runEvents_code (todo : List BusEvent) (onOk : OnOk) (received : List Byte) (s : State) :
    (s.runEvents todo onOk received).status.code = .ok ∨
      (s.runEvents todo onOk received).status.code = .transportError := by
  rcases State.runEvents_cases todo onOk received s with
    ⟨s', bytes, -, -, -, -, -, hrun⟩ | ⟨-, -, -, s', -, -, -, -, -, -, hrun⟩ <;> rw [hrun]
  · exact .inl (s'.finish_completed onOk bytes).code
  · exact .inr rfl

/-- A completion with any code but `OK` and `TRANSPORT_ERROR` is a stop of the operation's launch. -/
theorem exec_stopped (hi : i.isOperation = true) (hx : exec i s = .next t) (hok : t.status.code ≠ .ok)
    (htransport : t.status.code ≠ .transportError) :
    launchOf i s = .stop t.status.code ∧ t = s.complete t.status.code := by
  rcases exec_operation_cases hi hx with ⟨c, hl, rfl⟩ | ⟨v, -, rfl⟩ | ⟨todo, onOk, -, rfl⟩
  · exact ⟨hl, rfl⟩
  · exact absurd rfl hok
  · exact ((State.runEvents_code todo onOk [] s).elim hok htransport).elim

end

/-- Settles O25: the launch stopped, so what happened is the completion alone. -/
theorem failuresBeforeTheFirstEventArePrecise : Obligations.FailuresBeforeTheFirstEventArePrecise := by
  unfold Obligations.FailuresBeforeTheFirstEventArePrecise
  intro i s t hi hx hok htransport
  have hstopped := s.complete_stoppedWith t.status.code
  rwa [← (exec_stopped hi hx hok htransport).2] at hstopped

/-! ## The codes with which a launch stops (60_exceptions.md R211 to R219) -/

/-- If the launch stops, it is with one of these codes. -/
def Launch.StopsIn (l : Launch) (codes : List Code) : Prop := ∀ c, l = .stop c → c ∈ codes

/-- The codes with which an instruction can complete before its first event (60_exceptions.md R219). -/
def stopCodes : Instr → List Code
  | .pixelGet _ _ => [.notReady, .configError, .encodeRange]
  | .pixelSet _ _ _ => [.notReady, .configError, .ok]
  | .fillRect _ _ _ _ _ => [.notReady, .configError]
  | .fill _ => [.notReady, .configError]
  | .hline _ _ _ _ => [.notReady, .configError]
  | .vline _ _ _ _ => [.notReady, .configError]
  | .blit _ _ _ _ _ _ => [.notReady, .configError, .outOfBounds, .illegalOp]
  | .color565 _ _ _ => []
  | .encodePosition _ _ => []
  | .encodePixel _ => []
  | .decodePixel _ _ _ => []

section
variable {l l' : Launch} {codes codes' : List Code}

theorem Launch.stop_stopsIn (c : Code) : (Launch.stop c).StopsIn [c] := by
  rintro _ ⟨⟩
  exact List.mem_singleton_self c

theorem Launch.StopsIn.ite {p : Prop} [Decidable p] (h : l.StopsIn codes) (h' : l'.StopsIn codes') :
    (if p then l else l').StopsIn (codes ++ codes') := by
  intro c hc
  split at hc
  · exact List.mem_append_left _ (h c hc)
  · exact List.mem_append_right _ (h' c hc)

theorem Launch.StopsIn.unlessDead (h : l.StopsIn codes) (s : State) :
    (unlessDead s l).StopsIn (.notReady :: codes) :=
  (Launch.stop_stopsIn .notReady).ite h

theorem Launch.StopsIn.refuseOverlap (h : l.StopsIn codes) (cfg : Config) (addr len : Nat) :
    (refuseOverlap cfg addr len l).StopsIn codes :=
  Launch.StopsIn.ite (codes := []) (fun _ => Launch.noConfusion) h

theorem windowWrite_stopsIn (cfg : Config) (r : Rect) (payload : List Byte) (raw : List BusEvent) :
    (windowWrite cfg r payload raw).StopsIn [.configError] := by
  unfold windowWrite
  split
  · exact fun _ => Launch.noConfusion
  · exact Launch.stop_stopsIn _

theorem windowRead_stopsIn (cfg : Config) (r : Rect) : (windowRead cfg r).StopsIn [.configError] := by
  unfold windowRead
  split
  · exact fun _ => Launch.noConfusion
  · exact Launch.stop_stopsIn _

end

theorem launchOf_stopsIn (i : Instr) (s : State) : (launchOf i s).StopsIn (stopCodes i) := by
  cases i with
  | pixelGet => exact ((windowRead_stopsIn _ _).ite (Launch.stop_stopsIn _)).unlessDead s
  | pixelSet => exact ((windowWrite_stopsIn _ _ _ _).ite (Launch.stop_stopsIn _)).unlessDead s
  | fillRect | fill | hline | vline => exact (windowWrite_stopsIn _ _ _ _).unlessDead s
  | blit =>
    exact ((((windowWrite_stopsIn _ _ _ _).ite (Launch.stop_stopsIn _)).ite (Launch.stop_stopsIn _)).unlessDead
      s).refuseOverlap _ _ _
  | color565 | encodePosition | encodePixel | decodePixel => exact fun _ => Launch.noConfusion

/-- Only `BLIT` checks an address range and bounds (60_exceptions.md R211, R215). -/
theorem eq_blit_of_mem_stopCodes {i : Instr} (h : .outOfBounds ∈ stopCodes i ∨ .illegalOp ∈ stopCodes i) :
    ∃ addr len x y w h, i = .blit addr len x y w h := by
  cases i with
  | blit => exact ⟨_, _, _, _, _, _, rfl⟩
  | _ => simp [stopCodes] at h

/-- Only `PIXEL_GET` encodes coordinates that no canvas bounds (60_exceptions.md R214). -/
theorem eq_pixelGet_of_mem_stopCodes {i : Instr} (h : .encodeRange ∈ stopCodes i) :
    ∃ x y, i = .pixelGet x y := by
  cases i with
  | pixelGet => exact ⟨_, _, rfl⟩
  | _ => simp [stopCodes] at h

/-- Settles O26: each of the three codes is a stop of the launch, so it is among the operation's. -/
theorem argumentErrorsComeOnlyFromTheirOperations : Obligations.ArgumentErrorsComeOnlyFromTheirOperations := by
  unfold Obligations.ArgumentErrorsComeOnlyFromTheirOperations
  intro i s t hi hx
  have hmem {c : Code} (hc : t.status.code = c) (hok : c ≠ .ok) (htransport : c ≠ .transportError) :
      c ∈ stopCodes i := by
    subst hc
    exact launchOf_stopsIn i s _ (exec_stopped hi hx hok htransport).1
  exact ⟨fun hc => eq_blit_of_mem_stopCodes (.inl (hmem hc (by decide) (by decide))),
    fun hc => eq_blit_of_mem_stopCodes (.inr (hmem hc (by decide) (by decide))),
    fun hc => eq_pixelGet_of_mem_stopCodes (hmem hc (by decide) (by decide))⟩

end Sys2Proof.Machine
end

section
/-! PROOFS. Reset and start-up (70_reset_and_hazards.md): the events of start-up, how it ends, and that only hardware
reset brings it back.

However the block comes to move, a step in STARTUP is one `startupMove` (`step_startup`, `step_inStartup`), so the two ends
of start-up follow from what that move does with an event that fails and with one that succeeds. That no other step enters
STARTUP is one relation between the two states of a step, `State.StartupShrinks`, which every move of the block and every
other input keeps. -/

namespace Sys2Proof.Machine

/-! ## Hardware reset (70_reset_and_hazards.md R250) -/

/-- Settles O2: the step is `State.hardReset`, and each clause is what that leaves in a field. -/
theorem hardResetRestoresResetValues : Obligations.HardResetRestoresResetValues := by
  unfold Obligations.HardResetRestoresResetValues
  intro s rest hnext
  exact ⟨State.hardReset { s with inputs := rest }, step_eq_takeInput hnext Input.noConfusion, rfl, rfl, rfl, rfl,
    State.readReg_eq_zero_of_reset rfl rfl rfl, rfl, rfl, rfl, rfl, rfl, rfl⟩

/-! ## The events of start-up (70_reset_and_hazards.md R251, R252, R253) -/

/-- `BusWrite` is its one write transaction, unless that is the null transaction (20_memory.md R66). -/
theorem busWrite_eq_filter (cmd : Option Byte) (data : List Byte) :
    busWrite cmd data = [BusEvent.write cmd data].filter (fun e => e != .write none []) := by
  cases cmd with
  | some c => rfl
  | none => cases data <;> rfl

/-- Settles O7: the pulse is R252's four events, and each entry of `INIT_SEQ` is its write, filtered by itself. -/
theorem startupPerformsPulseThenInitSequence : Obligations.StartupPerformsPulseThenInitSequence := by
  unfold Obligations.StartupPerformsPulseThenInitSequence
  intro cfg
  rw [List.map_eq_flatMap, List.filter_flatMap]
  simp only [← busWrite_eq_filter]
  rfl

/-- Every event of start-up succeeds where the transport answers `ok` without bytes: none of them is a read. -/
theorem startupEvents_fit_ok {cfg : Config} {e : BusEvent} (he : e ∈ startupEvents cfg) :
    (Answer.ok []).fit e = .ok [] := by
  rw [startupPerformsPulseThenInitSequence, List.mem_append] at he
  rcases he with hpulse | hinit
  · split at hpulse
    · simp only [List.mem_cons, List.not_mem_nil, or_false] at hpulse
      rcases hpulse with rfl | rfl | rfl | rfl <;> rfl
    · simp at hpulse
  · obtain ⟨entry, -, rfl⟩ := List.mem_map.mp (List.mem_of_mem_filter hinit)
    rfl

/-! ## A step in STARTUP -/

section
variable {s : State} {e : BusEvent} {todo : List BusEvent} {rest : List Answer} {after : List Input}

theorem advance_startup (hp : s.phase = .startup todo) : advance s = .next (startupMove todo s) := by
  simp only [advance, hp]

theorem proceed_startup (hp : s.phase = .startup todo) : proceed s = .next (startupMove todo s) := by
  simp only [proceed, hp, advance_startup hp]

/-- Alone, while the host polls or by a turn, start-up makes the same move. -/
theorem step_startup (hmoves : s.blockMoves after) (hp : s.phase = .startup todo) :
    step s = .next (startupMove todo { s with inputs := after }) := by
  obtain ⟨hwf, hreq, ⟨rfl, halone⟩ | hturn⟩ := hmoves
  · rw [step_eq_proceed hwf hreq halone, proceed_startup hp]
  · rw [step_eq_takeInput ⟨hwf, hreq, hturn⟩ Input.noConfusion]
    exact advance_startup hp

/-! ## Start-up that fails (70_reset_and_hazards.md R255) -/

theorem startupMove_fail (he : e.drawsAnswer = true) (h : s.answers = .fail :: rest) :
    startupMove (e :: todo) s =
      (s.afterEvents [{ event := e, answer := .fail }] rest s.draws).startupFailed := by
  rw [startupMove, State.perform_fail he h]
  rfl

theorem Code.faultBit_transportError : Code.transportError.faultBit = 0x00000004#32 := by decide

end

/-- Settles O9: the move is `State.startupFailed` after the event that failed. -/
theorem startupFailureMakesTheBlockDead : Obligations.StartupFailureMakesTheBlockDead := by
  unfold Obligations.StartupFailureMakesTheBlockDead
  intro s e todo rest after hmoves hp he hanswers
  have hstep := step_startup hmoves hp
  rw [startupMove_fail (s := { s with inputs := after }) he hanswers] at hstep
  refine ⟨_, hstep, rfl, ?_, rfl, rfl, rfl, rfl, rfl, ⟨rfl, rfl, rfl, rfl, rfl, rfl, rfl⟩⟩
  rw [State.startupFailed_faultLog, Code.faultBit_transportError]
  rfl

/-! ## Start-up that succeeds (70_reset_and_hazards.md R254) -/

section
variable {s : State} {e : BusEvent} {todo : List BusEvent} {rest : List Answer}

/-- An event that a transport answering `ok` lets succeed uses up one answer, or none if it is `WAIT`. -/
theorem State.perform_fit_ok (hfit : (Answer.ok []).fit e = .ok [])
    (h : s.answers = okAnswers ([e].filter BusEvent.drawsAnswer).length ++ rest) :
    s.perform e = (.ok [], s.afterEvents (okEntries [e]) rest s.draws) := by
  cases he : e.drawsAnswer with
  | true =>
    have hanswers : s.answers = .ok [] :: rest := by simpa [he, okAnswers] using h
    simp only [State.perform, State.draw, he, hanswers, hfit]
    rfl
  | false =>
    have hanswers : s.answers = rest := by simpa [he, okAnswers] using h
    simp only [State.perform, State.draw, he, hfit, ← hanswers]
    rfl

/-- `s` in STARTUP, with these events to perform. -/
def State.inStartup (s : State) (todo : List BusEvent) : State := { s with phase := .startup todo }

theorem step_inStartup (h : s.Unattended) (todo : List BusEvent) :
    step (s.inStartup todo) = .next (startupMove todo (s.inStartup todo)) := by
  rw [step_eq_proceed (s := s.inStartup todo) h.wf h.request (.inl h.inputs), proceed_startup rfl]

theorem startupMove_ok (hfit : (Answer.ok []).fit e = .ok [])
    (h : s.answers = okAnswers ([e].filter BusEvent.drawsAnswer).length ++ rest) :
    startupMove (e :: todo) s = (s.afterEvents (okEntries [e]) rest s.draws).inStartup todo := by
  rw [startupMove, State.perform_fit_ok hfit h]
  rfl

theorem okAnswers_filter_cons (e : BusEvent) (todo : List BusEvent) :
    okAnswers ((e :: todo).filter BusEvent.drawsAnswer).length =
      okAnswers ([e].filter BusEvent.drawsAnswer).length ++ okAnswers (todo.filter BusEvent.drawsAnswer).length := by
  rw [okAnswers, okAnswers, okAnswers, List.replicate_append_replicate, ← List.length_append, ← List.filter_append,
    List.singleton_append]

/-- Start-up to its end, one event a step and a step for the completion, by induction on the events. -/
theorem run_startup (todo : List BusEvent) :
    ∀ {s : State}, s.Unattended → (∀ e ∈ todo, (Answer.ok []).fit e = .ok []) →
      s.answers = okAnswers (todo.filter BusEvent.drawsAnswer).length ++ rest →
      Sys2Proof.core.run (todo.length + 1) (s.inStartup todo) =
        .next (s.afterEvents (okEntries todo) rest s.draws).startupDone := by
  induction todo with
  | nil =>
    intro s h _ hanswers
    have hsame : s.afterEvents [] rest s.draws = s := by
      rw [State.afterEvents, List.append_nil, show rest = s.answers from hanswers.symm]
    rw [okEntries, List.map_nil, hsame]
    exact run_succ_next (M := Sys2Proof.core) (step_inStartup h []) 0
  | cons e todo ih =>
    intro s h hfit hanswers
    obtain ⟨he, htodo⟩ := List.forall_mem_cons.mp hfit
    rw [okAnswers_filter_cons, List.append_assoc] at hanswers
    have hstep := step_inStartup h (e :: todo)
    rw [startupMove_ok (s := s.inStartup (e :: todo)) he hanswers] at hstep
    have hrest := ih (s := s.afterEvents (okEntries [e]) _ s.draws) ⟨h.wf, h.request, h.inputs⟩ htodo rfl
    refine (run_succ_next (M := Sys2Proof.core) hstep _).trans (hrest.trans ?_)
    simp only [State.afterEvents, List.append_assoc, ← okEntries_append, List.singleton_append]

/-- Completing `OK` logs nothing. -/
theorem State.startupDone_keeps_faultLog (s : State) : s.startupDone.faultLog = s.faultLog := BitVec.or_zero

end

/-- Settles O8: the block that start-up leaves, field by field. -/
theorem startupWithoutFailureMakesTheBlockReady : Obligations.StartupWithoutFailureMakesTheBlockReady := by
  unfold Obligations.StartupWithoutFailureMakesTheBlockReady
  intro cfg rest hwf es s
  refine ⟨_, run_startup (s := s) es ⟨hwf, rfl, rfl⟩ (fun _ => startupEvents_fit_ok) rfl, ?_⟩
  exact ⟨rfl, rfl, List.nil_append _, rfl, State.startupDone_keeps_faultLog _, rfl, rfl, rfl⟩

/-! ## Nothing else enters start-up (70_reset_and_hazards.md R256) -/

/-- If `t` is in STARTUP, so was `s`, with at least as many events to perform. -/
def State.StartupShrinks (s t : State) : Prop :=
  ∀ todo, t.phase = .startup todo → ∃ before, s.phase = .startup before ∧ todo.length ≤ before.length

section
variable {s t : State}

theorem State.startupShrinks_of_phase (hphase : t.phase = s.phase) : s.StartupShrinks t :=
  fun todo hp => ⟨todo, hphase ▸ hp, le_rfl⟩

theorem State.startupShrinks_of_ne (hne : ∀ todo, t.phase ≠ .startup todo) : s.StartupShrinks t :=
  fun todo hp => absurd hp (hne todo)

/-- A completion ends idle. -/
theorem Status.idlePhase_ne_startup (st : Status) (todo : List BusEvent) : st.idlePhase ≠ .startup todo := by
  unfold Status.idlePhase
  split <;> exact Phase.noConfusion

theorem State.Completed.startupShrinks {c : Code} (h : s.Completed t c) : s.StartupShrinks t :=
  State.startupShrinks_of_ne fun todo => h.phase ▸ s.status.idlePhase_ne_startup todo

/-- A move of start-up goes past its first event, or ends it. -/
theorem startupMove_startupShrinks {todo : List BusEvent} (hp : s.phase = .startup todo) :
    s.StartupShrinks (startupMove todo s) := by
  cases todo with
  | nil => exact State.startupShrinks_of_ne s.status.idlePhase_ne_startup
  | cons e rest =>
    rw [startupMove]
    split
    · rintro _ ⟨⟩
      exact ⟨_, hp, by simp⟩
    · exact State.startupShrinks_of_ne fun _ => Phase.noConfusion

theorem eventMove_startupShrinks (todo : List BusEvent) (onOk : OnOk) (received : List Byte) :
    s.StartupShrinks (eventMove todo onOk received s) := by
  cases todo with
  | nil => exact (s.finish_completed onOk received).startupShrinks
  | cons e rest =>
    rw [eventMove]
    split <;> rename_i s' hperf
    · exact State.startupShrinks_of_ne fun _ => Phase.noConfusion
    · exact (State.completed_complete (State.perform_cases hperf).1 _).startupShrinks

theorem exec_startupShrinks {i : Instr} (hi : i.isOperation = true) (hx : exec i s = .next t) :
    s.StartupShrinks t := by
  obtain ⟨c, hcompleted⟩ := exec_completed hi hx
  exact hcompleted.startupShrinks

theorem runLatched_startupShrinks (hr : runLatched s = .next t) : s.StartupShrinks t := by
  unfold runLatched at hr
  split at hr
  · rename_i i hd
    exact exec_startupShrinks (decodeCommand_isOperation hd) hr
  · cases hr
    exact (s.complete_stoppedWith _).completed.startupShrinks

theorem enterLatched_startupShrinks (hr : enterLatched s = .next t) : s.StartupShrinks t := by
  unfold enterLatched at hr
  split at hr
  · rename_i i hd
    rcases Launch.enter_cases hr with ⟨todo, onOk, -, rfl⟩ | hrun
    · exact State.startupShrinks_of_ne fun _ => Phase.noConfusion
    · exact exec_startupShrinks (decodeCommand_isOperation hd) (exec_eq_run i s ▸ hrun)
  · cases hr
    exact (s.complete_stoppedWith _).completed.startupShrinks

theorem advance_startupShrinks (ha : advance s = .next t) : s.StartupShrinks t := by
  rcases advance_cases ha with ⟨todo, hp, rfl⟩ | ⟨-, rfl⟩ | ⟨-, hr⟩ | ⟨todo, onOk, received, -, rfl⟩
  · exact startupMove_startupShrinks hp
  · exact State.startupShrinks_of_phase rfl
  · exact enterLatched_startupShrinks hr
  · exact eventMove_startupShrinks todo onOk received

theorem proceed_startupShrinks (hpr : proceed s = .next t) : s.StartupShrinks t := by
  rcases proceed_cases hpr with ⟨-, hr⟩ | ⟨-, ha⟩
  · exact runLatched_startupShrinks hr
  · exact advance_startupShrinks ha

/-- A doorbell is dropped, or starts an operation. -/
theorem State.writeReg_startupShrinks (s : State) (offset : Nat) (v : Word) :
    s.StartupShrinks (s.writeReg offset v) := by
  rcases State.writeReg_cases s offset v with hw | hw <;> rw [hw]
  · exact State.startupShrinks_of_phase rfl
  · unfold State.doorbell
    split
    · exact State.startupShrinks_of_phase rfl
    · exact State.startupShrinks_of_ne fun _ => Phase.noConfusion

theorem takeInput_startupShrinks {i : Input} (hi : takeInput i s = .next t) (hne : i ≠ .hardReset) :
    s.StartupShrinks t := by
  rcases takeInput_cases hi with ⟨offset, size, v, -, rfl⟩ | ⟨offset, size, -, rfl⟩ | ⟨a, b, -, -, rfl⟩ | ⟨-, rfl⟩ |
    ⟨-, hadv⟩ | ⟨hreset, -⟩
  · exact s.writeReg_startupShrinks offset v
  · exact State.startupShrinks_of_phase rfl
  · exact State.startupShrinks_of_phase rfl
  · exact State.startupShrinks_of_phase rfl
  · exact advance_startupShrinks hadv
  · exact absurd hreset hne

end

/-- Settles O54, by whose move the step is: the codec port's, the block's, the host's. -/
theorem startupRunsOnlyAfterReset : Obligations.StartupRunsOnlyAfterReset := by
  unfold Obligations.StartupRunsOnlyAfterReset
  intro s t todo hstep htodo hreset
  suffices hshrinks : s.StartupShrinks t from hshrinks todo htodo
  obtain ⟨-, ⟨bytes, -, hwire⟩ | ⟨-, -, hblock⟩ | ⟨hreq, i, rest, hinputs, -, hinput⟩⟩ := step_cases hstep
  · rw [runWire_cases hwire]
    exact State.startupShrinks_of_phase rfl
  · exact proceed_startupShrinks hblock
  · refine takeInput_startupShrinks (s := { s with inputs := rest }) hinput ?_
    rintro rfl
    simp [State.resetsNext, hreq, hinputs] at hreset

end Sys2Proof.Machine
end
